-- ==== Sys2Proof/Word.lean ====
section
/-! DEFINITION. The word types of the SIPC core (`00_scope.md` R4, R12): every quantity is unsigned, and the
arithmetic of `BitVec` is the arithmetic modulo 2^width of R13 (`+`, `-`, `*` are `add64`, `sub64`, `mul64`,
`^^^` and `|||` are the bitwise operations). -/

namespace Sys2Proof

/-- The 64-bit data word of the engine (R4). -/
abbrev Word := BitVec 64

/-- One byte of the message buffer (R4, `20_memory.md` R60). -/
abbrev Byte := BitVec 8

/-- A 32-bit command word (`30_encoding.md` R80). -/
abbrev CmdWord := BitVec 32

end Sys2Proof
end

