-- ==== Sys2Proof/Syntax.lean ====
section
/-! DEFINITION. The commands of the SIPC core: one constructor per row of `spec/opcode_table.json`, in the
table's order (`30_encoding.md` R83). -/

namespace Sys2Proof

/-- A command. Only `PERMR` and `PERML` have an operand, the number of rounds (R82); every other command names
its registers implicitly (R81). `sealBuf` and `openBuf` are `SEAL` and `OPEN` (both words are keywords of Lean). -/
inductive Instr where
  | nop
  | clr
  | scrub
  | permr (count : Nat)
  | perml (count : Nat)
  | sinit
  | nabs
  | dsep
  | init
  | encw
  | encloop
  | decw
  | decloop
  | fin
  | sttag
  | ldtag
  | oprep
  | unfin
  | uninit
  | authchk
  | padchk
  | sealBuf
  | openBuf
  deriving DecidableEq, Repr

end Sys2Proof
end

