-- ==== Sys2Proof/WellFormed.lean ====
section
/-! DEFINITION. Which terms of `Instr` are commands: the count of format N is an 8-bit number
(`30_encoding.md` R82, R88). -/

namespace Sys2Proof

/-- The operand fits its field. -/
def Instr.wf : Instr → Bool
  | .nop => true
  | .clr => true
  | .scrub => true
  | .permr count => count < 256
  | .perml count => count < 256
  | .sinit => true
  | .nabs => true
  | .dsep => true
  | .init => true
  | .encw => true
  | .encloop => true
  | .decw => true
  | .decloop => true
  | .fin => true
  | .sttag => true
  | .ldtag => true
  | .oprep => true
  | .unfin => true
  | .uninit => true
  | .authchk => true
  | .padchk => true
  | .sealBuf => true
  | .openBuf => true

end Sys2Proof
end

