-- ==== Sys2Proof/Decode.lean ====
section
/-! DEFINITION. The decoder and the encoder of command words (`30_encoding.md` R80 to R86). -/

namespace Sys2Proof

/-- Why a word is no command (R84, R85). Raised by `decode`; safe: the engine records `Fault(ILLEGAL)` for it. -/
inductive Reject where
  /-- A bit of `w[31:16]` is set. -/
  | highBits
  /-- `w[7:0]` is none of the 23 opcodes. -/
  | unassignedOpcode
  /-- A bit of `w[15:8]` is set in a format Z command. -/
  | operandBits
  deriving DecidableEq, Repr

/-- `w[7:0]` (R81). -/
def opcodeField (w : CmdWord) : BitVec 8 := w.extractLsb' 0 8

/-- `w[15:8]` (R81). -/
def imm8Field (w : CmdWord) : BitVec 8 := w.extractLsb' 8 8

/-- `w[31:16]` (R81). -/
def zeroField (w : CmdWord) : BitVec 16 := w.extractLsb' 16 16

/-- `count = zext_32(imm8)` (R82). -/
def countOf (w : CmdWord) : Nat := ((imm8Field w).setWidth 32).toNat

/-- A format Z command, whose `w[15:8]` must be zero (R84). -/
def formatZ (w : CmdWord) (i : Instr) : Except Reject Instr :=
  if imm8Field w ≠ 0 then .error .operandBits else .ok i

/-- The decode procedure after acceptance (R84), its checks in R84's order. -/
def decode (w : CmdWord) : Except Reject Instr :=
  if zeroField w ≠ 0 then .error .highBits
  else match (opcodeField w).toNat with
    | 0x00 => formatZ w .nop
    | 0x01 => formatZ w .clr
    | 0x02 => formatZ w .scrub
    | 0x10 => .ok (.permr (countOf w))
    | 0x11 => .ok (.perml (countOf w))
    | 0x20 => formatZ w .sinit
    | 0x21 => formatZ w .nabs
    | 0x22 => formatZ w .dsep
    | 0x23 => formatZ w .init
    | 0x30 => formatZ w .encw
    | 0x31 => formatZ w .encloop
    | 0x32 => formatZ w .decw
    | 0x33 => formatZ w .decloop
    | 0x40 => formatZ w .fin
    | 0x41 => formatZ w .sttag
    | 0x42 => formatZ w .ldtag
    | 0x43 => formatZ w .oprep
    | 0x44 => formatZ w .unfin
    | 0x45 => formatZ w .uninit
    | 0x48 => formatZ w .authchk
    | 0x49 => formatZ w .padchk
    | 0x50 => formatZ w .sealBuf
    | 0x51 => formatZ w .openBuf
    | _ => .error .unassignedOpcode

/-- The host's interface to the decoder: the command words are 32 bits, so bits from `nbits` on are zero and the
word is the low 32 bits (R80, R84). -/
def decodeTableWord (nbits w : Nat) : Option Instr :=
  match decode (BitVec.ofNat 32 (w % 2 ^ nbits)) with
  | .ok i => some i
  | .error _ => none

/-- The opcode of a command (R83). -/
def opcodeOf : Instr → BitVec 8
  | .nop => 0x00
  | .clr => 0x01
  | .scrub => 0x02
  | .permr _ => 0x10
  | .perml _ => 0x11
  | .sinit => 0x20
  | .nabs => 0x21
  | .dsep => 0x22
  | .init => 0x23
  | .encw => 0x30
  | .encloop => 0x31
  | .decw => 0x32
  | .decloop => 0x33
  | .fin => 0x40
  | .sttag => 0x41
  | .ldtag => 0x42
  | .oprep => 0x43
  | .unfin => 0x44
  | .uninit => 0x45
  | .authchk => 0x48
  | .padchk => 0x49
  | .sealBuf => 0x50
  | .openBuf => 0x51

/-- The field `w[15:8]` of a command: the count in format N, zero in format Z (R80). -/
def imm8Of : Instr → BitVec 8
  | .nop => 0
  | .clr => 0
  | .scrub => 0
  | .permr count => BitVec.ofNat 8 count
  | .perml count => BitVec.ofNat 8 count
  | .sinit => 0
  | .nabs => 0
  | .dsep => 0
  | .init => 0
  | .encw => 0
  | .encloop => 0
  | .decw => 0
  | .decloop => 0
  | .fin => 0
  | .sttag => 0
  | .ldtag => 0
  | .oprep => 0
  | .unfin => 0
  | .uninit => 0
  | .authchk => 0
  | .padchk => 0
  | .sealBuf => 0
  | .openBuf => 0

/-- The word of a command: `opcode + 256 * count` (R83). -/
def encode (i : Instr) : CmdWord := (0 : BitVec 16) ++ imm8Of i ++ opcodeOf i

end Sys2Proof
end

