-- ==== Sys2Proof/Config.lean ====
section
/-! DEFINITION. The constants of the algorithm and the parameters of the hardware (`00_scope.md` R6 to R11). -/

namespace Sys2Proof

/-- The four initialisation constants, the configuration field `INIT_CONST` (R10, `92_eei_decisions.md` D37). -/
structure InitConst where
  c0 : Word
  c1 : Word
  c2 : Word
  c3 : Word
  deriving DecidableEq, Repr

/-- The parameters the spec asks a model to take as arguments (`92_eei_decisions.md`, the table of parameters). -/
structure Config where
  /-- `MEMWORDS`, the capacity of the message buffer in words (R11); register `CAP` reads it (`10_state.md` R37). -/
  memWords : BitVec 32
  initConst : InitConst
  deriving DecidableEq, Repr

/-- The bound R11 puts on `MEMWORDS`; its upper half, `2^32 - 1`, is the width of the field. -/
def Config.wf (c : Config) : Bool := 7 ≤ c.memWords.toNat

/-- `PASSES` (R6). -/
def Config.passes : Nat := 3

/-- `FINROUNDS` (R7). -/
def Config.finRounds : Nat := 4

/-- `DELTA` (R8). -/
def Config.delta : Word := 0x9e3779b97f4a7c15

/-- The shift that derives a rotation count from `GAMMA` (R8). -/
def Config.gammaShift : Nat := 58

/-- `DS_ENC` (R9). -/
def Config.dsEnc : Word := 0xfd

/-- `DS_FIN` (R9). -/
def Config.dsFin : Word := 0xfe

/-- The value of `INIT_CONST` for this hardware: the ASCII words of R10 read little-endian. -/
def Config.sipcInitConst : InitConst where
  c0 := 0x75657370656d6f73
  c1 := 0x6d6f646e61726f64
  c2 := 0x6172656e6567796c
  c3 := 0x7365747962646574

/-- The configuration `State.reset` takes. `MEMWORDS` is left open by R11; 8 is the capacity the spec's own
vectors start from (`95_test_vectors.md`, Conventions). DESIGN CHOICE, log entry 1. -/
def Config.sipc : Config where
  memWords := 8
  initConst := Config.sipcInitConst

end Sys2Proof
end

