-- ==== Sys2Proof/Machine/State.lean ====
section
/-! DEFINITION. The state of the machine (`10_state.md` R20 to R48), the ways a run can stop, and reset. -/

namespace Sys2Proof.Machine

/-- The sponge: V0, V1, V2, V3 (R21). -/
structure Sponge where
  v0 : Word
  v1 : Word
  v2 : Word
  v3 : Word
  deriving DecidableEq, Repr

/-- A pair of key or nonce words: (K1, K2), (N1, N2), (KW1, KW2) or (NW1, NW2) (R22 to R25). -/
structure Pair where
  w1 : Word
  w2 : Word
  deriving DecidableEq, Repr

/-- The sequencer position (PASS, IDX), which plays the program counter's part (R28 to R30). -/
structure Position where
  pass : BitVec 2
  idx : BitVec 32
  deriving DecidableEq, Repr

/-- The message buffer BUF (R42): the bytes that hold a value, as (address, byte) cells in strictly rising
address order (`Memory.wf`). -/
abbrev Memory := List Host.Cell

/-- What a byte that is not listed reads as: no value, since after reset a byte holds none until something
writes it (R48). -/
def Memory.unlisted : Option Byte := none

/-- The canonical form: strictly rising addresses. (No cell can equal `Memory.unlisted`, which is no value.) -/
abbrev Memory.wf (m : Memory) : Prop := m.Pairwise fun x y => x.1 < y.1

/-- What the host can do (`00_scope.md` R5, `30_encoding.md` R88). A command is a `regWrite` to CMD. -/
inductive HostAction where
  /-- `RegRead(r)` (R40). -/
  | regRead (r : BitVec 5)
  /-- `RegWrite(r, v)` (R41). -/
  | regWrite (r : BitVec 5) (v : Word)
  /-- `BufRead(a, n)` (`20_memory.md` R65). -/
  | bufRead (a n : Nat)
  /-- `BufWrite(a, n, v)` (`20_memory.md` R65). -/
  | bufWrite (a n : Nat) (v : Word)
  /-- The reset event (`70_reset_and_hazards.md` R230). -/
  | reset
  deriving DecidableEq, Repr

/-- The state. The first fourteen lines hold what R20 lists; `config` holds the hardware's parameters, which
nothing writes; `script` and `observed` are the host's side of the interface (log entries 3 and 5). -/
structure State where
  /-- V0 to V3 (R21). -/
  v : Sponge
  /-- K1, K2 (R22). -/
  k : Pair
  /-- N1, N2 (R23). -/
  n : Pair
  /-- KW1, KW2 (R24). -/
  kw : Pair
  /-- NW1, NW2 (R25). -/
  nw : Pair
  /-- GAMMA (R26). -/
  gamma : Word
  /-- LEN (R31). -/
  len : BitVec 32
  /-- PASS and IDX (R28 to R30). -/
  pos : Position
  /-- PADLEN (R32). -/
  padlen : Byte
  /-- STATUS.ERR, the four implemented bits of STATUS (R34). -/
  err : BitVec 4
  /-- ERRINFO (R35). -/
  errinfo : CmdWord
  /-- BUF (R42). -/
  buf : Memory
  /-- MEMWORDS and INIT_CONST (`00_scope.md` R10, R11). -/
  config : Config
  /-- The host statements still to come, the next one first (`00_scope.md` R16). -/
  script : List HostAction
  /-- The values the host's reads have returned, oldest first (`30_encoding.md` R88). -/
  observed : List Word
  deriving DecidableEq, Repr

/-- The ways the machine stops with a fault. A fault of the SPEC (`60_exceptions.md` R200) is none of these: it
is recorded in STATUS and is a next state. -/
inductive Fault where
  /-- Raised by the buffer primitives of `Ops.lean` for an address that does not exist (`20_memory.md` R60).
  Safe, and by R64 never reached: a command checks BufOK first, a host access its own range. -/
  | outsideBuffer
  deriving DecidableEq, Repr

/-- The runs the model gives no meaning. -/
inductive Refusal where
  /-- Raised by no arm of `exec`: every command has its meaning. Safe. -/
  | notModelled (mnemonic : String)
  /-- Raised by a read, by a command or the host, of a byte nothing has written since reset (`10_state.md` R48,
  `20_memory.md` R69). Safe: the spec itself refuses the run. -/
  | unwrittenByte
  /-- Raised by a host buffer access of a width other than 1 and 8 (`20_memory.md` R65). Safe: not offered. -/
  | accessWidth
  /-- Raised by an 8-byte host access at an address that is not a multiple of 8 (`20_memory.md` R65). Safe: not
  offered. -/
  | misalignedAccess
  /-- Raised by a host access that reaches past the end of the buffer (`20_memory.md` R68). Safe: the spec itself
  refuses it. -/
  | accessOutsideBuffer
  deriving DecidableEq, Repr

/-- The outcome of an operation that yields an `α`. -/
abbrev Result (α : Type) := Host.Outcome α Fault Refusal

/-- The machine right after reset, for hardware of configuration `c` (`10_state.md` R45, R48). -/
def State.resetFor (c : Config) : State where
  v := ⟨0, 0, 0, 0⟩
  k := ⟨0, 0⟩
  n := ⟨0, 0⟩
  kw := ⟨0, 0⟩
  nw := ⟨0, 0⟩
  gamma := 0
  len := 0
  pos := ⟨0, 0⟩
  padlen := 0
  err := 0
  errinfo := 0
  buf := []
  config := c
  script := []
  observed := []

/-- The machine right after reset. -/
def State.reset : State := State.resetFor Config.sipc

end Sys2Proof.Machine
end

