-- ==== Sys2Proof/Machine/Flags.lean ====
section
/-! DEFINITION. The only flag, STATUS.ERR: its codes and its readings (`10_state.md` R34, `60_exceptions.md`
R201). No command sets a carry, zero, overflow or sign flag. -/

namespace Sys2Proof.Machine

/-- The fault codes the engine produces (`60_exceptions.md` R201). -/
inductive ErrCode where
  | malformed
  | auth
  | pad
  | illegal
  | bounds
  deriving DecidableEq, Repr

/-- The value of STATUS.ERR for a fault (`60_exceptions.md` R201). -/
def ErrCode.code : ErrCode → BitVec 4
  | .malformed => 1
  | .auth => 2
  | .pad => 3
  | .illegal => 4
  | .bounds => 5

/-- STATUS as the host reads it: ERR in bits 3:0, bits 31:4 zero (`10_state.md` R34, R39). -/
def State.status (s : State) : BitVec 32 := s.err.setWidth 32

/-- A fault is recorded (`60_exceptions.md` R207). -/
def State.faulted (s : State) : Bool := s.err ≠ 0

end Sys2Proof.Machine
end

