-- ==== Sys2Proof/Machine/Operands.lean ====
section
/-! DEFINITION. The implicit operands of the commands: the position, the buffer's layout, and the conditions on
them (`10_state.md` R33, `20_memory.md` R63, R64). The one explicit operand, the count of PERMR and PERML, is
taken from the word by `countOf` (`Decode.lean`). -/

namespace Sys2Proof.Machine

/-- The address of message word `i`, and of tag word `j` for `i = LEN + j` (`20_memory.md` R63). -/
def wordAddr (i : Nat) : Nat := 8 * i

/-- The address of tag word `j` (`20_memory.md` R63). -/
def State.tagAddr (s : State) (j : Nat) : Nat := wordAddr (s.len.toNat + j)

/-- The address of the message word the position designates (`10_state.md` R28). -/
def State.currentAddr (s : State) : Nat := wordAddr s.pos.idx.toNat

/-- The number of bytes of the message region (`20_memory.md` R63). -/
def State.messageBytes (s : State) : Nat := 8 * s.len.toNat

/-- The number of bytes of the message and tag regions (`20_memory.md` R63). -/
def State.sealedBytes (s : State) : Nat := 8 * (s.len.toNat + 4)

/-- The number of bytes of the buffer (`20_memory.md` R60). -/
def State.bufBytes (s : State) : Nat := 8 * s.config.memWords.toNat

/-- `LEN + 4 <= MEMWORDS`: the message and its tag fit the buffer. -/
def State.fits (s : State) : Bool := s.len.toNat + 4 ≤ s.config.memWords.toNat

/-- `BufOK` (`20_memory.md` R64). -/
def State.bufOK (s : State) : Bool := 1 ≤ s.len.toNat && s.fits

/-- The position (PASSES, 0): the forward loop is complete (`10_state.md` R30). -/
def Position.finish : Position := ⟨3, 0⟩

/-- The position (0, 0). -/
def Position.start : Position := ⟨0, 0⟩

/-- `PosValid` (`10_state.md` R33). -/
def Position.valid (p : Position) (len : BitVec 32) : Bool :=
  (p.pass.toNat < Config.passes && p.idx.toNat < len.toNat) || p == Position.finish

/-- `Next` (`10_state.md` R33), applied only where `PASS < 3` and `IDX < LEN`. -/
def Position.next (p : Position) (len : BitVec 32) : Position :=
  if p.idx.toNat + 1 < len.toNat then ⟨p.pass, p.idx + 1⟩ else ⟨p.pass + 1, 0⟩

/-- `Prev` (`10_state.md` R33), applied only at a valid position other than (0, 0). -/
def Position.prev (p : Position) (len : BitVec 32) : Position :=
  if 0 < p.idx.toNat then ⟨p.pass, p.idx - 1⟩ else ⟨p.pass - 1, len - 1⟩

/-- `PASS < PASSES`: the forward loop has steps left (`42_loop.md` R121). -/
def State.unfinished (s : State) : Bool := s.pos.pass.toNat < Config.passes

/-- `(PASS, IDX) != (0, 0)`: the inverse loop has steps left (`42_loop.md` R123). -/
def State.started (s : State) : Bool := s.pos != Position.start

/-- `T = PASSES * LEN`, the number of word steps of a whole loop, an integer that does not wrap
(`43_finalize.md` R133). -/
def State.totalSteps (s : State) : Nat := Config.passes * s.len.toNat

/-- The state SINIT builds and AUTHCHK expects: the constants XORed with (K1, K2, K1, K2)
(`41_init.md` R110, `44_checks.md` R140). -/
def State.keyedSponge (s : State) : Sponge :=
  ⟨s.config.initConst.c0 ^^^ s.k.w1, s.config.initConst.c1 ^^^ s.k.w2,
   s.config.initConst.c2 ^^^ s.k.w1, s.config.initConst.c3 ^^^ s.k.w2⟩

/-- The exchange of the two words of a pair (`10_state.md` R24, R25). -/
def Pair.swap (p : Pair) : Pair := ⟨p.w2, p.w1⟩

end Sys2Proof.Machine
end

