-- ==== Sys2Proof/Machine/Ops.lean ====
section
/-! DEFINITION. The shared operations: sequencing, the buffer primitives (`20_memory.md` R60, R61), the loop,
the zeroing of registers, taking a fault and returning from one (`60_exceptions.md` R203 to R208). -/

namespace Sys2Proof.Machine

/-- Run `f` on what `r` yields; a stop stops (`00_scope.md` R14: statements execute in order). -/
def andThen {α β : Type} (r : Result α) (f : α → Result β) : Result β :=
  match r with
  | .next x => f x
  | .fault e => .fault e
  | .refused e => .refused e

/-- One byte of the buffer. -/
def Memory.read : Memory → Nat → Option Byte
  | [], _ => Memory.unlisted
  | (b, x) :: m, a => if b = a then some x else Memory.read m a

/-- Write one byte, keeping the addresses in strictly rising order. -/
def Memory.write : Memory → Nat → Byte → Memory
  | [], a, x => [(a, x)]
  | (b, y) :: m, a, x =>
    if a < b then (a, x) :: (b, y) :: m
    else if a = b then (a, x) :: m
    else (b, y) :: Memory.write m a x

/-- `n` bytes from address `a`, the first the least significant (R61); no value where one of them has none. -/
def Memory.readLE (m : Memory) : Nat → Nat → Option Word
  | 0, _ => some 0
  | n + 1, a => (m.read a).bind fun b => (m.readLE n (a + 1)).map fun (r : Word) => b.setWidth 64 ||| r <<< 8

/-- Write the low `n` bytes of `v` from address `a`, the least significant first (R61). -/
def Memory.writeLE (m : Memory) : Nat → Nat → Word → Memory
  | 0, _, _ => m
  | n + 1, a, v => (m.write a (v.setWidth 8)).writeLE n (a + 1) (v >>> 8)

/-- Write zero to addresses `0` to `n - 1` (`45_duplex.md` R152). -/
def Memory.zeroise (m : Memory) : Nat → Memory
  | 0 => m
  | n + 1 => (m.zeroise n).write n 0

/-- The `n` bytes at addresses `a` to `a + n - 1` exist (R60). -/
def State.inBuffer (s : State) (a n : Nat) : Bool := a + n ≤ s.bufBytes

/-- `MemRead(a, n)` (R61) for `n` up to 8. -/
def readMem (n : Nat) (s : State) (a : Nat) : Result Word :=
  if s.inBuffer a n then
    match s.buf.readLE n a with
    | some w => .next w
    | none => .refused .unwrittenByte
  else .fault .outsideBuffer

/-- `MemWrite(a, n, v)` (R61) for `n` up to 8. -/
def writeMem (n : Nat) (s : State) (a : Nat) (v : Word) : Result State :=
  if s.inBuffer a n then .next { s with buf := s.buf.writeLE n a v } else .fault .outsideBuffer

/-- `MemRead(a, 8)`. -/
def readWord (s : State) (a : Nat) : Result Word := readMem 8 s a

/-- `MemRead(a, 1)`. -/
def readByte (s : State) (a : Nat) : Result Byte := andThen (readMem 1 s a) fun w => .next (w.setWidth 8)

/-- `MemWrite(a, 8, v)`. -/
def writeWord (s : State) (a : Nat) (v : Word) : Result State := writeMem 8 s a v

/-- The bytes at addresses `a` to `a + n - 1`, lowest first. -/
def readBytes (s : State) : Nat → Nat → Result (List Byte)
  | 0, _ => .next []
  | n + 1, a => andThen (readByte s a) fun b => andThen (readBytes s n (a + 1)) fun r => .next (b :: r)

/-- `MemWrite(a, 1, 0)` for every `a` from 0 to `n - 1` (`45_duplex.md` R152). -/
def zeroBytes (s : State) (n : Nat) : Result State :=
  if s.inBuffer 0 n then .next { s with buf := s.buf.zeroise n } else .fault .outsideBuffer

/-- `while more: do body`, for a loop that makes at most `n` turns (`42_loop.md` R121, R123; log entry 11). -/
def loopWhile (more : State → Bool) (body : State → Result State) : Nat → State → Result State
  | 0, s => .next s
  | n + 1, s => if more s then andThen (body s) (loopWhile more body n) else .next s

/-- V, KW, NW, GAMMA, PASS, IDX <- 0 (`46_system.md` R162). -/
def State.scrubbed (s : State) : State :=
  { s with v := ⟨0, 0, 0, 0⟩, kw := ⟨0, 0⟩, nw := ⟨0, 0⟩, gamma := 0, pos := Position.start }

/-- Taking a fault, `raise Fault(code)` in a command with word `w`: all that fault entry does
(`60_exceptions.md` R206). -/
def takeFault (c : ErrCode) (w : CmdWord) (s : State) : State := { s with err := c.code, errinfo := w }

/-- The return from a fault: every register to its reset value, STATUS and ERRINFO among them, the buffer left
alone (`60_exceptions.md` R208, `46_system.md` R161). -/
def State.cleared (s : State) : State :=
  { s.scrubbed with k := ⟨0, 0⟩, n := ⟨0, 0⟩, len := 0, padlen := 0, err := 0, errinfo := 0 }

/-- A command `i` ends with fault `c`. -/
def raise (c : ErrCode) (i : Instr) (s : State) : Result State := .next (takeFault c (encode i) s)

/-- The acceptance rule: while a fault is recorded a command is ignored (`60_exceptions.md` R203 step 1, R207). -/
def accept (s : State) (f : State → Result State) : Result State := if s.faulted then .next s else f s

/-- The commands that touch the buffer raise BOUNDS where BufOK fails, before any access (`20_memory.md` R64). -/
def requireBuf (i : Instr) (s : State) (f : State → Result State) : Result State :=
  if s.bufOK then f s else raise .bounds i s

/-- The word-step commands raise BOUNDS where BufOK fails, the position is invalid, or `ok` fails
(`42_loop.md` R120 to R123). -/
def requireStep (i : Instr) (ok : Bool) (s : State) (f : State → Result State) : Result State :=
  requireBuf i s fun s => if s.pos.valid s.len && ok then f s else raise .bounds i s

/-- SEAL and OPEN raise MALFORMED where `LEN < 3`, then BOUNDS where the message and its tag do not fit
(`45_duplex.md` R150, R151). -/
def requireMessage (i : Instr) (s : State) (f : State → Result State) : Result State :=
  if s.len.toNat < 3 then raise .malformed i s
  else if s.fits then f s
  else raise .bounds i s

end Sys2Proof.Machine
end

