-- ==== Sys2Proof/Machine/Checks.lean ====
section
/-! DEFINITION. The authentication check and the padding check: AUTHCHK, PADCHK (`44_checks.md`). -/

namespace Sys2Proof.Machine

/-- The test of AUTHCHK: all four words equal those SINIT would build from the master key (R140). -/
def State.authentic (s : State) : Bool := s.v == s.keyedSponge

/-- The OR of the `n` bytes from address `a` on (R141). -/
def orBytes (s : State) : Nat → Nat → Result Byte
  | 0, _ => .next 0
  | n + 1, a => andThen (readByte s a) fun b => andThen (orBytes s n (a + 1)) fun acc => .next (b ||| acc)

/-- The padding test (R141): the pad count where the padding is good, nothing where it is bad. -/
def padTest (s : State) : Result (Option Byte) :=
  andThen (readByte s (s.messageBytes - 1)) fun padlen =>
    if padlen = 0 ∨ s.messageBytes < padlen.toNat then .next none
    else
      andThen (orBytes s (padlen.toNat - 1) (s.messageBytes - padlen.toNat)) fun acc =>
        .next (if acc = 0 then some padlen else none)

/-- AUTHCHK (R140). -/
def execAuthchk (s : State) : Result State :=
  accept s fun s => if s.authentic then .next s else raise .auth .authchk s

/-- PADCHK (R141): a failed test zeroes PADLEN and raises PAD. -/
def execPadchk (s : State) : Result State :=
  accept s fun s => requireBuf .padchk s fun s =>
    andThen (padTest s) fun r =>
      match r with
      | some padlen => .next { s with padlen := padlen }
      | none => raise .pad .padchk { s with padlen := 0 }

end Sys2Proof.Machine
end

