-- ==== Sys2Proof/Machine/Round.lean ====
section
/-! DEFINITION. The ARX round function, forward and inverse, and PERMR and PERML (`40_round.md`); the rotation
and shift primitives (`00_scope.md` R13). -/

namespace Sys2Proof.Machine

/-- `shr64` (`00_scope.md` R13). -/
def shr64 (a : Word) (n : Nat) : Word := a >>> n

/-- `rotl64` (`00_scope.md` R13), for counts 0 to 63. -/
def rotl64 (a : Word) (n : Nat) : Word := a.rotateLeft n

/-- `rotr64` (`00_scope.md` R13). -/
def rotr64 (a : Word) (n : Nat) : Word := rotl64 a ((64 - n) % 64)

/-- `PermR`, the eight lines of R100. -/
def permR (s : Sponge) : Sponge :=
  -- line 1
  let v0 := s.v0 + s.v1
  let v2 := s.v2 + s.v3
  -- line 2
  let v1 := rotl64 s.v1 13
  let v3 := rotl64 s.v3 16
  -- line 3
  let v1 := v1 ^^^ v0
  let v3 := v3 ^^^ v2
  -- line 4
  let v0 := rotl64 v0 32
  -- line 5
  let v2 := v2 + v1
  let v0 := v0 + v3
  -- line 6
  let v1 := rotl64 v1 17
  let v3 := rotl64 v3 21
  -- line 7
  let v1 := v1 ^^^ v2
  let v3 := v3 ^^^ v0
  -- line 8
  let v2 := rotl64 v2 32
  ⟨v0, v1, v2, v3⟩

/-- `PermL`, the eight lines of R101. -/
def permL (s : Sponge) : Sponge :=
  -- line 8'
  let v2 := rotr64 s.v2 32
  -- line 7'
  let v1 := s.v1 ^^^ v2
  let v3 := s.v3 ^^^ s.v0
  -- line 6'
  let v1 := rotr64 v1 17
  let v3 := rotr64 v3 21
  -- line 5'
  let v2 := v2 - v1
  let v0 := s.v0 - v3
  -- line 4'
  let v0 := rotr64 v0 32
  -- line 3'
  let v1 := v1 ^^^ v0
  let v3 := v3 ^^^ v2
  -- line 2'
  let v1 := rotr64 v1 13
  let v3 := rotr64 v3 16
  -- line 1'
  let v0 := v0 - v1
  let v2 := v2 - v3
  ⟨v0, v1, v2, v3⟩

/-- `repeat count times` of a function of the sponge (R102, R103). -/
def rounds (f : Sponge → Sponge) : Nat → Sponge → Sponge
  | 0, v => v
  | n + 1, v => rounds f n (f v)

/-- PERMR (R102). -/
def execPermr (count : Nat) (s : State) : Result State :=
  accept s fun s => .next { s with v := rounds permR count s.v }

/-- PERML (R103). -/
def execPerml (count : Nat) (s : State) : Result State :=
  accept s fun s => .next { s with v := rounds permL count s.v }

end Sys2Proof.Machine
end

