-- ==== Sys2Proof/Machine/Init.lean ====
section
/-! DEFINITION. Initialisation: SINIT, NABS, DSEP, INIT (`41_init.md`). -/

namespace Sys2Proof.Machine

/-- The body of SINIT (R110). -/
def sinitBody (s : State) : State :=
  { s with v := s.keyedSponge, kw := s.k, nw := s.n, gamma := 0, pos := Position.start }

/-- The nonce absorb on the sponge (R111): one round after each nonce word, NW1 first. -/
def absorbNonce (nw : Pair) (v : Sponge) : Sponge :=
  let v := permR { v with v3 := v.v3 ^^^ nw.w1 }
  permR { v with v3 := v.v3 ^^^ nw.w2 }

/-- The body of NABS (R111). -/
def nabsBody (s : State) : State := { s with v := absorbNonce s.nw s.v }

/-- `V0 <- V0 ^ 0xfd` (R112). -/
def separate (v : Sponge) : Sponge := { v with v0 := v.v0 ^^^ Config.dsEnc }

/-- The body of DSEP (R112). -/
def dsepBody (s : State) : State := { s with v := separate s.v }

/-- The body of INIT: SINIT, NABS, DSEP in order (R113). -/
def initBody (s : State) : State := dsepBody (nabsBody (sinitBody s))

/-- SINIT (R110). -/
def execSinit (s : State) : Result State := accept s fun s => .next (sinitBody s)

/-- NABS (R111). -/
def execNabs (s : State) : Result State := accept s fun s => .next (nabsBody s)

/-- DSEP (R112). -/
def execDsep (s : State) : Result State := accept s fun s => .next (dsepBody s)

/-- INIT (R113). -/
def execInit (s : State) : Result State := accept s fun s => .next (initBody s)

end Sys2Proof.Machine
end

