-- ==== Sys2Proof/Machine/Finalize.lean ====
section
/-! DEFINITION. Finalisation, the tag and their inverses: FIN, STTAG, LDTAG, OPREP, UNFIN, UNINIT
(`43_finalize.md`). -/

namespace Sys2Proof.Machine

/-- The four XORs before the rounds of FIN (R130). -/
def preFinal (kw nw : Pair) (gamma : Word) (v : Sponge) : Sponge where
  v0 := v.v0 ^^^ (nw.w2 + Config.dsFin)
  v1 := v.v1 ^^^ kw.w1
  v2 := v.v2 ^^^ (nw.w1 + gamma)
  v3 := v.v3 ^^^ kw.w2

/-- The whitening: the four XORs after the rounds of FIN (R130). -/
def whiten (kw nw : Pair) (v : Sponge) : Sponge where
  v0 := v.v0 ^^^ nw.w2
  v1 := v.v1 ^^^ (kw.w1 + kw.w2)
  v2 := v.v2 ^^^ nw.w1
  v3 := v.v3 ^^^ (kw.w2 + 2 * kw.w1)

/-- The body of FIN (R130). -/
def finBody (s : State) : State :=
  { s with v := whiten s.kw s.nw (rounds permR Config.finRounds (preFinal s.kw s.nw s.gamma s.v)) }

/-- The body of UNFIN (R134). -/
def unfinBody (s : State) : State :=
  { s with v := preFinal s.kw s.nw s.gamma (rounds permL Config.finRounds (whiten s.kw s.nw s.v)) }

/-- The body of OPREP (R133). -/
def oprepBody (s : State) : State :=
  { s with
    gamma := Config.delta * BitVec.ofNat 64 s.totalSteps
    kw := if s.totalSteps % 2 = 1 then s.k.swap else s.k
    nw := if s.totalSteps % 2 = 1 then s.n.swap else s.n
    pos := Position.finish }

/-- The body of UNINIT (R135). -/
def uninitBody (s : State) : State :=
  let v := permL (separate s.v)
  let v := permL { v with v3 := v.v3 ^^^ s.nw.w2 }
  { s with v := { v with v3 := v.v3 ^^^ s.nw.w1 } }

/-- The body of STTAG, after its check (R131): the words go out in the order V0, V1, V2, V3. -/
def storeTag (s : State) : Result State :=
  andThen (writeWord s (s.tagAddr 0) s.v.v0) fun s =>
  andThen (writeWord s (s.tagAddr 1) s.v.v1) fun s =>
  andThen (writeWord s (s.tagAddr 2) s.v.v2) fun s =>
  writeWord s (s.tagAddr 3) s.v.v3

/-- The body of LDTAG, after its check (R132). -/
def loadTag (s : State) : Result State :=
  andThen (readWord s (s.tagAddr 0)) fun v0 =>
  andThen (readWord s (s.tagAddr 1)) fun v1 =>
  andThen (readWord s (s.tagAddr 2)) fun v2 =>
  andThen (readWord s (s.tagAddr 3)) fun v3 =>
  .next { s with v := ⟨v0, v1, v2, v3⟩ }

/-- FIN (R130). -/
def execFin (s : State) : Result State := accept s fun s => .next (finBody s)

/-- STTAG (R131). -/
def execSttag (s : State) : Result State := accept s fun s => requireBuf .sttag s storeTag

/-- LDTAG (R132). -/
def execLdtag (s : State) : Result State := accept s fun s => requireBuf .ldtag s loadTag

/-- OPREP (R133). -/
def execOprep (s : State) : Result State := accept s fun s => .next (oprepBody s)

/-- UNFIN (R134). -/
def execUnfin (s : State) : Result State := accept s fun s => .next (unfinBody s)

/-- UNINIT (R135). -/
def execUninit (s : State) : Result State := accept s fun s => .next (uninitBody s)

end Sys2Proof.Machine
end

