-- ==== Sys2Proof/Machine/Loop.lean ====
section
/-! DEFINITION. The absorb/produce main loop and its inverse: ENCW, ENCLOOP, DECW, DECLOOP (`42_loop.md`). -/

namespace Sys2Proof.Machine

/-- What the working pairs and GAMMA add to V1 and V2 in a word step (R120, R122): the rotated KW1 and
`NW1 + GAMMA`. -/
def keyMix (kw nw : Pair) (gamma : Word) (v : Sponge) : Sponge :=
  { v with
    v1 := v.v1 ^^^ rotl64 kw.w1 (shr64 gamma Config.gammaShift).toNat
    v2 := v.v2 ^^^ (nw.w1 + gamma) }

/-- The sponge after a forward word step on the word `p` (R120). -/
def forwardSponge (kw nw : Pair) (gamma p : Word) (v : Sponge) : Sponge :=
  let v := permR (keyMix kw nw gamma { v with v3 := v.v3 ^^^ p })
  { v with v0 := v.v0 ^^^ p }

/-- The sponge after an inverse word step that recovered the word `w` (R122). -/
def inverseSponge (kw nw : Pair) (gamma w : Word) (v : Sponge) : Sponge :=
  let v := keyMix kw nw gamma (permL { v with v0 := v.v0 ^^^ w })
  { v with v3 := v.v3 ^^^ w }

/-- GAMMA, KW, NW and the position move one step on (the last four statements of R120). -/
def State.advance (s : State) : State :=
  { s with
    gamma := s.gamma + Config.delta
    kw := s.kw.swap
    nw := s.nw.swap
    pos := s.pos.next s.len }

/-- GAMMA, KW, NW and the position move one step back (the first four statements of R122). -/
def State.retreat (s : State) : State :=
  { s with
    pos := s.pos.prev s.len
    gamma := s.gamma - Config.delta
    kw := s.kw.swap
    nw := s.nw.swap }

/-- The body of ENCW, from `p <- MemRead` on (R120). -/
def encStep (s : State) : Result State :=
  andThen (readWord s s.currentAddr) fun p =>
    let v := forwardSponge s.kw s.nw s.gamma p s.v
    andThen (writeWord { s with v := v } s.currentAddr (p + v.v3)) fun s => .next s.advance

/-- The body of DECW, from `(PASS, IDX) <- Prev` on (R122). -/
def decStep (s : State) : Result State :=
  let s := s.retreat
  andThen (readWord s s.currentAddr) fun c =>
    let w := c - s.v.v3
    andThen (writeWord s s.currentAddr w) fun s =>
      .next { s with v := inverseSponge s.kw s.nw s.gamma w s.v }

/-- The body of ENCLOOP: `while PASS < 3: do ENCW` (R121). -/
def encLoop (s : State) : Result State := loopWhile State.unfinished encStep s.totalSteps s

/-- The body of DECLOOP: `while (PASS, IDX) != (0, 0): do DECW` (R123). -/
def decLoop (s : State) : Result State := loopWhile State.started decStep s.totalSteps s

/-- ENCW (R120). -/
def execEncw (s : State) : Result State :=
  accept s fun s => requireStep .encw s.unfinished s encStep

/-- ENCLOOP (R121). -/
def execEncloop (s : State) : Result State :=
  accept s fun s => requireStep .encloop true s encLoop

/-- DECW (R122). -/
def execDecw (s : State) : Result State :=
  accept s fun s => requireStep .decw s.started s decStep

/-- DECLOOP (R123). -/
def execDecloop (s : State) : Result State :=
  accept s fun s => requireStep .decloop true s decLoop

end Sys2Proof.Machine
end

