-- ==== Sys2Proof/Machine/Duplex.lean ====
section
/-! DEFINITION. The authenticated-encryption duplex engine: SEAL and OPEN (`45_duplex.md`). -/

namespace Sys2Proof.Machine

/-- `FailClean` (R152): message and tag regions zero, working registers zero, PADLEN zero. -/
def failClean (s : State) : Result State :=
  andThen (zeroBytes s s.sealedBytes) fun s => .next { s.scrubbed with padlen := 0 }

/-- A failed check of OPEN: FailClean, then fault entry (R151, R152). -/
def openFails (c : ErrCode) (s : State) : Result State :=
  andThen (failClean s) fun s => raise c .openBuf s

/-- The inverse pipeline of OPEN up to its checks: LDTAG, OPREP, UNFIN, DECLOOP, UNINIT (R151). -/
def openRecover (s : State) : Result State :=
  andThen (loadTag s) fun s =>
  andThen (decLoop (unfinBody (oprepBody s))) fun s =>
  .next (uninitBody s)

/-- The two checks of OPEN, the authentication check first, and its ends (R151). -/
def openVerify (s : State) : Result State :=
  if s.authentic then
    andThen (padTest s) fun r =>
      match r with
      | some padlen => .next { s.scrubbed with padlen := padlen }
      | none => openFails .pad s
  else openFails .auth s

/-- SEAL (R150). -/
def execSealBuf (s : State) : Result State :=
  accept s fun s => requireMessage .sealBuf s fun s =>
    andThen (encLoop (initBody s)) fun s =>
    andThen (storeTag (finBody s)) fun s =>
    .next s.scrubbed

/-- OPEN (R151). -/
def execOpenBuf (s : State) : Result State :=
  accept s fun s => requireMessage .openBuf s fun s => andThen (openRecover s) openVerify

end Sys2Proof.Machine
end

