-- ==== Sys2Proof/Machine/System.lean ====
section
/-! DEFINITION. The system commands NOP, CLR, SCRUB (`46_system.md`). -/

namespace Sys2Proof.Machine

/-- NOP (R160). -/
def execNop (s : State) : Result State := accept s .next

/-- CLR (R161): the one command accepted while a fault is recorded. -/
def execClr (s : State) : Result State := .next s.cleared

/-- SCRUB (R162). -/
def execScrub (s : State) : Result State := accept s fun s => .next s.scrubbed

end Sys2Proof.Machine
end

