-- ==== Sys2Proof/Machine/Dispatch.lean ====
section
/-! DEFINITION. The meaning of each command, one arm per constructor. -/

namespace Sys2Proof.Machine

/-- The command `i` written to CMD. -/
def exec (i : Instr) (s : State) : Host.Outcome State Fault Refusal :=
  match i with
  | .nop => Sys2Proof.Machine.execNop s
  | .clr => Sys2Proof.Machine.execClr s
  | .scrub => Sys2Proof.Machine.execScrub s
  | .permr count => Sys2Proof.Machine.execPermr count s
  | .perml count => Sys2Proof.Machine.execPerml count s
  | .sinit => Sys2Proof.Machine.execSinit s
  | .nabs => Sys2Proof.Machine.execNabs s
  | .dsep => Sys2Proof.Machine.execDsep s
  | .init => Sys2Proof.Machine.execInit s
  | .encw => Sys2Proof.Machine.execEncw s
  | .encloop => Sys2Proof.Machine.execEncloop s
  | .decw => Sys2Proof.Machine.execDecw s
  | .decloop => Sys2Proof.Machine.execDecloop s
  | .fin => Sys2Proof.Machine.execFin s
  | .sttag => Sys2Proof.Machine.execSttag s
  | .ldtag => Sys2Proof.Machine.execLdtag s
  | .oprep => Sys2Proof.Machine.execOprep s
  | .unfin => Sys2Proof.Machine.execUnfin s
  | .uninit => Sys2Proof.Machine.execUninit s
  | .authchk => Sys2Proof.Machine.execAuthchk s
  | .padchk => Sys2Proof.Machine.execPadchk s
  | .sealBuf => Sys2Proof.Machine.execSealBuf s
  | .openBuf => Sys2Proof.Machine.execOpenBuf s

end Sys2Proof.Machine
end

