-- ==== Sys2Proof/Machine/HostAccess.lean ====
section
/-! DEFINITION. The host's accesses: the register map, register reads and writes, the write to CMD, buffer reads
and writes, and the reset event (`10_state.md` R36 to R41, `20_memory.md` R65, R68, `70_reset_and_hazards.md`
R230). -/

namespace Sys2Proof.Machine

/-- The registers with a number (`10_state.md` R38). -/
inductive Reg where
  | cmd | status | errinfo | len | idx | pass | padlen
  | k1 | k2 | n1 | n2 | kw1 | kw2 | nw1 | nw2
  | v0 | v1 | v2 | v3 | gamma | cap
  deriving DecidableEq, Repr

/-- The number of a register (`10_state.md` R38). -/
def Reg.number : Reg → BitVec 5
  | .cmd => 0x00
  | .status => 0x01
  | .errinfo => 0x02
  | .len => 0x03
  | .idx => 0x04
  | .pass => 0x05
  | .padlen => 0x06
  | .k1 => 0x08
  | .k2 => 0x09
  | .n1 => 0x0a
  | .n2 => 0x0b
  | .kw1 => 0x0c
  | .kw2 => 0x0d
  | .nw1 => 0x0e
  | .nw2 => 0x0f
  | .v0 => 0x10
  | .v1 => 0x11
  | .v2 => 0x12
  | .v3 => 0x13
  | .gamma => 0x14
  | .cap => 0x18

/-- The register of a number; none for the reserved numbers (`10_state.md` R38, R39). -/
def regOf (r : BitVec 5) : Option Reg :=
  match r.toNat with
  | 0x00 => some .cmd
  | 0x01 => some .status
  | 0x02 => some .errinfo
  | 0x03 => some .len
  | 0x04 => some .idx
  | 0x05 => some .pass
  | 0x06 => some .padlen
  | 0x08 => some .k1
  | 0x09 => some .k2
  | 0x0a => some .n1
  | 0x0b => some .n2
  | 0x0c => some .kw1
  | 0x0d => some .kw2
  | 0x0e => some .nw1
  | 0x0f => some .nw2
  | 0x10 => some .v0
  | 0x11 => some .v1
  | 0x12 => some .v2
  | 0x13 => some .v3
  | 0x14 => some .gamma
  | 0x18 => some .cap
  | _ => none

/-- The value of a register, zero-extended to 64 bits; CMD has no storage and reads 0 (`10_state.md` R36, R37,
R40). -/
def State.regValue (s : State) : Reg → Word
  | .cmd => 0
  | .status => s.status.setWidth 64
  | .errinfo => s.errinfo.setWidth 64
  | .len => s.len.setWidth 64
  | .idx => s.pos.idx.setWidth 64
  | .pass => s.pos.pass.setWidth 64
  | .padlen => s.padlen.setWidth 64
  | .k1 => s.k.w1
  | .k2 => s.k.w2
  | .n1 => s.n.w1
  | .n2 => s.n.w2
  | .kw1 => s.kw.w1
  | .kw2 => s.kw.w2
  | .nw1 => s.nw.w1
  | .nw2 => s.nw.w2
  | .v0 => s.v.v0
  | .v1 => s.v.v1
  | .v2 => s.v.v2
  | .v3 => s.v.v3
  | .gamma => s.gamma
  | .cap => s.config.memWords.setWidth 64

/-- `RegRead(r)`: 0 for a reserved number (`10_state.md` R39, R40). -/
def regRead (s : State) (r : BitVec 5) : Word :=
  match regOf r with
  | some reg => s.regValue reg
  | none => 0

/-- A word written to CMD (`10_state.md` R36): a command runs, an illegal word raises ILLEGAL, and either is
ignored while a fault is recorded (`30_encoding.md` R84, `60_exceptions.md` R203). -/
def submit (w : CmdWord) (s : State) : Result State :=
  match decode w with
  | .ok i => exec i s
  | .error _ => accept s fun s => .next (takeFault .illegal w s)

/-- A write to a register: the low bits for a narrower one, ignored for a read-only one, a command for CMD
(`10_state.md` R41). -/
def setReg (reg : Reg) (v : Word) (s : State) : Result State :=
  match reg with
  | .cmd => submit (v.setWidth 32) s
  | .status => .next s
  | .errinfo => .next s
  | .len => .next { s with len := v.setWidth 32 }
  | .idx => .next { s with pos := { s.pos with idx := v.setWidth 32 } }
  | .pass => .next { s with pos := { s.pos with pass := v.setWidth 2 } }
  | .padlen => .next s
  | .k1 => .next { s with k := { s.k with w1 := v } }
  | .k2 => .next { s with k := { s.k with w2 := v } }
  | .n1 => .next { s with n := { s.n with w1 := v } }
  | .n2 => .next { s with n := { s.n with w2 := v } }
  | .kw1 => .next { s with kw := { s.kw with w1 := v } }
  | .kw2 => .next { s with kw := { s.kw with w2 := v } }
  | .nw1 => .next { s with nw := { s.nw with w1 := v } }
  | .nw2 => .next { s with nw := { s.nw with w2 := v } }
  | .v0 => .next { s with v := { s.v with v0 := v } }
  | .v1 => .next { s with v := { s.v with v1 := v } }
  | .v2 => .next { s with v := { s.v with v2 := v } }
  | .v3 => .next { s with v := { s.v with v3 := v } }
  | .gamma => .next { s with gamma := v }
  | .cap => .next s

/-- `RegWrite(r, v)`: ignored for a reserved number (`10_state.md` R39, R41). -/
def regWrite (r : BitVec 5) (v : Word) (s : State) : Result State :=
  match regOf r with
  | some reg => setReg reg v s
  | none => .next s

/-- What the host interface offers: one byte anywhere in the buffer, or eight at a multiple of 8; the model
refuses the rest (`20_memory.md` R65, R68). -/
def offered {α : Type} (s : State) (a n : Nat) (f : Result α) : Result α :=
  if n ≠ 1 ∧ n ≠ 8 then .refused .accessWidth
  else if n = 8 ∧ a % 8 ≠ 0 then .refused .misalignedAccess
  else if s.inBuffer a n then f
  else .refused .accessOutsideBuffer

/-- `BufRead(a, n)` (`20_memory.md` R65, R69). -/
def bufRead (a n : Nat) (s : State) : Result Word := offered s a n (readMem n s a)

/-- `BufWrite(a, n, v)` (`20_memory.md` R65). -/
def bufWrite (a n : Nat) (v : Word) (s : State) : Result State := offered s a n (writeMem n s a v)

/-- The reset event: every register at its reset value, every byte of the buffer without a value
(`70_reset_and_hazards.md` R230, `10_state.md` R45, R48). The hardware's parameters and the host's own side are
not the machine's to reset. -/
def resetEvent (s : State) : State :=
  { State.resetFor s.config with script := s.script, observed := s.observed }

/-- The host sees the value `w` of a read (`30_encoding.md` R88). -/
def State.observe (s : State) (w : Word) : State := { s with observed := s.observed ++ [w] }

/-- One host action (`00_scope.md` R5). -/
def perform (a : HostAction) (s : State) : Result State :=
  match a with
  | .regRead r => .next (s.observe (regRead s r))
  | .regWrite r v => regWrite r v s
  | .bufRead a n => andThen (bufRead a n s) fun w => .next (s.observe w)
  | .bufWrite a n v => bufWrite a n v s
  | .reset => .next (resetEvent s)

/-- The host's next action, taken from its script. With none left nothing happens: only the host makes the engine
take a step (`00_scope.md` R5, R16; log entries 3 and 4). -/
def hostStep (s : State) : Result State :=
  match s.script with
  | [] => .next s
  | a :: rest => perform a { s with script := rest }

end Sys2Proof.Machine
end

