-- ==== Sys2Proof/Machine/Step.lean ====
section
/-! DEFINITION. One step of the machine: the next event of the total order of `20_memory.md` R70. -/

namespace Sys2Proof.Machine

/-- The next host action of the script, with the command it starts, if any, carried out whole
(`10_state.md` R36). -/
def step (s : State) : Host.Outcome State Fault Refusal := hostStep s

/-- The state whose next step runs the command word `w`: a write of it to CMD put first in the script. Commands
are not fetched from any memory (`20_memory.md` R72). -/
def State.withFetchWord (s : State) (nbits w : Nat) : State :=
  { s with script :=
      .regWrite Reg.cmd.number ((BitVec.ofNat 32 (w % 2 ^ nbits)).setWidth 64) :: s.script }

end Sys2Proof.Machine
end

