-- ==== Sys2Proof/Machine/Script.lean ====
section
/-! DEFINITION. Host scripts: the statements and pseudo-statements of `30_encoding.md` R88 and R89 and the host
actions they stand for. -/

namespace Sys2Proof.Machine

/-- A statement of a host script (R88) or a pseudo-statement (R89). The bare `PERMR` and `PERML` are
`permrOnce` and `permlOnce`. -/
inductive Statement where
  | command (i : Instr)
  | wr (reg : Reg) (value : Word)
  | rd (reg : Reg)
  | wb (addr : Nat) (value : Word)
  | rb (addr : Nat)
  | wbb (addr : Nat) (value : Word)
  | rbb (addr : Nat)
  | resetStatement
  | word (value : CmdWord)
  | permrOnce
  | permlOnce
  | ldkey (a b : Word)
  | ldnonce (a b : Word)
  | initSeq
  | sealSeq
  | openSeq
  deriving DecidableEq, Repr

/-- The write of a command to CMD (R88). -/
def commandAction (i : Instr) : HostAction := .regWrite Reg.cmd.number ((encode i).setWidth 64)

/-- The commands of `SEAL.SEQ` (R89). -/
def sealCommands : List Instr := [.init, .encloop, .fin, .sttag]

/-- The commands of `OPEN.SEQ` (R89). -/
def openCommands : List Instr := [.ldtag, .oprep, .unfin, .decloop, .uninit, .authchk, .padchk]

/-- The host actions of a statement (R88, R89). -/
def Statement.actions : Statement → List HostAction
  | .command i => [commandAction i]
  | .wr reg value => [.regWrite reg.number value]
  | .rd reg => [.regRead reg.number]
  | .wb addr value => [.bufWrite addr 8 value]
  | .rb addr => [.bufRead addr 8]
  | .wbb addr value => [.bufWrite addr 1 value]
  | .rbb addr => [.bufRead addr 1]
  | .resetStatement => [.reset]
  | .word value => [.regWrite Reg.cmd.number (value.setWidth 64)]
  | .permrOnce => [commandAction (.permr 1)]
  | .permlOnce => [commandAction (.perml 1)]
  | .ldkey a b => [.regWrite Reg.k1.number a, .regWrite Reg.k2.number b]
  | .ldnonce a b => [.regWrite Reg.n1.number a, .regWrite Reg.n2.number b]
  | .initSeq => [commandAction .sinit, commandAction .nabs, commandAction .dsep]
  | .sealSeq => sealCommands.map commandAction
  | .openSeq => openCommands.map commandAction

/-- The conditions R88 puts on a statement's operands. -/
def Statement.wf : Statement → Bool
  | .command i => i.wf
  | .wb addr _ => addr % 8 = 0
  | .rb addr => addr % 8 = 0
  | _ => true

/-- The actions of a script, in order. -/
def scriptActions (l : List Statement) : List HostAction := l.flatMap Statement.actions

/-- Perform host actions one after another (`20_memory.md` R70). -/
def performAll : List HostAction → State → Result State
  | [], s => .next s
  | a :: rest, s => andThen (perform a s) (performAll rest)

/-- Commands executed one after another, each to its end before the next. -/
def execAll : List Instr → State → Result State
  | [], s => .next s
  | i :: rest, s => andThen (exec i s) (execAll rest)

end Sys2Proof.Machine
end

