-- ==== Sys2Proof/Machine/Codec.lean ====
section
/-! DEFINITION. The host codec (`47_host_codec.md`): software of the host that turns byte strings into register
and buffer contents and back. No command is defined here. -/

namespace Sys2Proof.Machine

/-- `LE64(B, j)` (`00_scope.md` R15). -/
def le64 (b : List Byte) (j : Nat) : Word :=
  ((b.drop j).take 8).foldr (fun x (r : Word) => x.setWidth 64 ||| r <<< 8) 0

/-- `roundUp8` (`00_scope.md` R15). -/
def roundUp8 (x : Nat) : Nat := (x + 7) / 8 * 8

/-- `Norm16(B)` (R170). -/
def norm16 (b : List Byte) : List Byte :=
  if 16 ≤ b.length then b.take 16
  else b ++ List.replicate (15 - b.length) 0 ++ [BitVec.ofNat 8 (16 - b.length)]

/-- The two words of a key or nonce (R171). -/
def keyWords (b : List Byte) : Pair := ⟨le64 (norm16 b) 0, le64 (norm16 b) 8⟩

/-- The padded length of a message of `l` bytes (R172). -/
def paddedLength (l : Nat) : Nat := roundUp8 (max (l + 1) 24)

/-- `Pad(M)` (R172). -/
def padMessage (m : List Byte) : List Byte :=
  let padlen := paddedLength m.length - m.length
  m ++ List.replicate (padlen - 1) 0 ++ [BitVec.ofNat 8 padlen]

/-- `Unpad` (R173): the padded bytes less `padlen` of them. -/
def unpad (x : List Byte) (padlen : Nat) : List Byte := x.take (x.length - padlen)

/-- The words of a byte string, `count` of them, as writes to the buffer from address 0 (R174, R175). -/
def wordWrites (x : List Byte) (count : Nat) : List HostAction :=
  (List.range count).map fun i => .bufWrite (8 * i) 8 (le64 x (8 * i))

/-- CLR, the key, the nonce and LEN: the opening of both calls (R174, R175). -/
def loadCall (key nonce : List Byte) (w : Nat) : List HostAction :=
  [commandAction .clr,
   .regWrite Reg.k1.number (keyWords key).w1, .regWrite Reg.k2.number (keyWords key).w2,
   .regWrite Reg.n1.number (keyWords nonce).w1, .regWrite Reg.n2.number (keyWords nonce).w2,
   .regWrite Reg.len.number (BitVec.ofNat 64 w)]

/-- What a byte-level call answers (R174, R175). -/
inductive HostReply where
  | bytes (b : List Byte)
  /-- MALFORMED, AUTH or PAD, by their STATUS.ERR codes (R175, R176). -/
  | failure (code : BitVec 4)
  /-- The message does not fit this engine: the host's own refusal (R174). -/
  | doesNotFit
  deriving DecidableEq, Repr

/-- `SealBytes(key, nonce, M)` (R174): the reply and the engine it leaves. -/
def sealBytes (key nonce m : List Byte) (s : State) : Result (HostReply × State) :=
  let x := padMessage m
  let w := x.length / 8
  if w + 4 ≤ s.config.memWords.toNat then
    andThen (performAll (loadCall key nonce w ++ wordWrites x w ++ [commandAction .sealBuf]) s) fun s =>
    andThen (readBytes s (8 * w + 32) 0) fun b => .next (.bytes b, s)
  else .next (.doesNotFit, s)

/-- `OpenBytes(key, nonce, C)` (R175), its length guard (R176) before any engine access. -/
def openBytes (key nonce c : List Byte) (s : State) : Result (HostReply × State) :=
  if c.length % 8 ≠ 0 ∨ c.length < 56 then .next (.failure ErrCode.malformed.code, s)
  else
    let w := c.length / 8 - 4
    if w + 4 ≤ s.config.memWords.toNat then
      andThen (performAll (loadCall key nonce w ++ wordWrites c (w + 4) ++ [commandAction .openBuf]) s) fun s =>
      let e : BitVec 4 := (regRead s Reg.status.number).setWidth 4
      if e ≠ 0 then
        andThen (perform (commandAction .clr) s) fun s => .next (.failure e, s)
      else
        andThen (readBytes s (8 * w - (regRead s Reg.padlen.number).toNat) 0) fun b => .next (.bytes b, s)
    else .next (.doesNotFit, s)

end Sys2Proof.Machine
end

