-- ==== Sys2Proof/Safety.lean ====
section
/-! DEFINITION. The terms the claims about the machine are stated in: the invariant, what of the buffer holds a
value or is unchanged, and when padding is good. -/

namespace Sys2Proof.Machine

/-- The invariant every step keeps: the buffer is in canonical form and inside the buffer's addresses
(`20_memory.md` R60), STATUS.ERR is a code the engine produces (`60_exceptions.md` R201), and ERRINFO is 0 where
no fault is recorded (`10_state.md` R35). -/
def State.Inv (s : State) : Prop :=
  s.buf.wf ∧ (∀ x ∈ s.buf, x.1 < s.bufBytes) ∧ s.err.toNat ≤ 5 ∧ (s.err = 0 → s.errinfo = 0)

/-- The `n` bytes from address `a` hold values (`20_memory.md` R69). -/
def State.written (s : State) (a n : Nat) : Prop := ∀ i < n, (s.buf.read (a + i)).isSome

/-- Every byte outside addresses `lo` to `hi - 1` reads as before. -/
def sameOutside (lo hi : Nat) (s t : State) : Prop := ∀ a, a < lo ∨ hi ≤ a → t.buf.read a = s.buf.read a

/-- Every byte reads as before. -/
def sameBuf (s t : State) : Prop := ∀ a, t.buf.read a = s.buf.read a

/-- All of `t` but its buffer is as in `s`. -/
def sameRegisters (s t : State) : Prop := t = { s with buf := t.buf }

/-- The position is valid and BufOK holds: what the word-step commands require (`42_loop.md` R120 to R123). -/
def State.stepReady (s : State) : Prop := s.bufOK = true ∧ s.pos.valid s.len = true

/-- What SEAL and OPEN require of LEN (`45_duplex.md` R150, R151). -/
def State.messageFits (s : State) : Prop := 3 ≤ s.len.toNat ∧ s.len.toNat + 4 ≤ s.config.memWords.toNat

/-- The message region ends in good padding of count `b` (`45_duplex.md` R153): the last byte is `b`,
`1 <= b <= 8 * LEN`, and the `b - 1` bytes before it are zero. -/
def State.paddedBy (s : State) (b : Byte) : Prop :=
  s.buf.read (s.messageBytes - 1) = some b ∧ 1 ≤ b.toNat ∧ b.toNat ≤ s.messageBytes ∧
    ∀ a, s.messageBytes - b.toNat ≤ a → a < s.messageBytes - 1 → s.buf.read a = some 0

/-- The order number of a position: how many word steps lead to it from (0, 0) (`10_state.md` R33). -/
def Position.ordinal (p : Position) (len : BitVec 32) : Nat := p.pass.toNat * len.toNat + p.idx.toNat

/-- The pair after `j` exchanges (`42_loop.md` R124). -/
def Pair.exchanged (p : Pair) (j : Nat) : Pair := if j % 2 = 1 then p.swap else p

/-- The 233 opcode values `30_encoding.md` R85 lists as unassigned. -/
def unassigned (opcode : Nat) : Prop :=
  (0x03 ≤ opcode ∧ opcode ≤ 0x0f) ∨ (0x12 ≤ opcode ∧ opcode ≤ 0x1f) ∨ (0x24 ≤ opcode ∧ opcode ≤ 0x2f) ∨
  (0x34 ≤ opcode ∧ opcode ≤ 0x3f) ∨ opcode = 0x46 ∨ opcode = 0x47 ∨ (0x4a ≤ opcode ∧ opcode ≤ 0x4f) ∨
  (0x52 ≤ opcode ∧ opcode ≤ 0xff)

/-- The illegal words, as `30_encoding.md` R85 lists them: an unassigned opcode, a bit of 31:16, or a bit of 15:8
with a format Z opcode. -/
def illegalWord (w : CmdWord) : Prop :=
  unassigned (w.toNat % 256) ∨ w.toNat / 65536 ≠ 0 ∨
    (w.toNat % 256 ≠ 0x10 ∧ w.toNat % 256 ≠ 0x11 ∧ w.toNat / 256 % 256 ≠ 0)

/-- The fault `code` is recorded for the command word `w` and nothing else changes (`60_exceptions.md` R205,
R206). -/
def onlyFaults (code : BitVec 4) (w : CmdWord) (s : State) (r : Result State) : Prop :=
  r = .next { s with err := code, errinfo := w }

/-- The state a failed OPEN leaves (`45_duplex.md` R152): message and tag bytes zero, bytes beyond them
untouched, the working registers and PADLEN zero, K, N, LEN unchanged, `code` recorded. -/
def openFailed (code : BitVec 4) (s : State) (r : Result State) : Prop :=
  ∃ t, r = .next t ∧ (∀ a < s.sealedBytes, t.buf.read a = some 0) ∧ sameOutside 0 s.sealedBytes s t ∧
    t = { s with v := ⟨0, 0, 0, 0⟩, kw := ⟨0, 0⟩, nw := ⟨0, 0⟩, gamma := 0, pos := ⟨0, 0⟩, padlen := 0, err := code, errinfo := 0x51, buf := t.buf }

/-- Which fault codes a command can raise (`60_exceptions.md` R202). -/
def mayRaise : Instr → List (BitVec 4)
  | .nop => []
  | .clr => []
  | .scrub => []
  | .permr _ => []
  | .perml _ => []
  | .sinit => []
  | .nabs => []
  | .dsep => []
  | .init => []
  | .encw => [5]
  | .encloop => [5]
  | .decw => [5]
  | .decloop => [5]
  | .fin => []
  | .sttag => [5]
  | .ldtag => [5]
  | .oprep => []
  | .unfin => []
  | .uninit => []
  | .authchk => [2]
  | .padchk => [5, 3]
  | .sealBuf => [1, 5]
  | .openBuf => [1, 5, 2, 3]

/-- The low bits a host write to a register keeps; none for CMD and the read-only registers (`10_state.md` R38,
R41). -/
def Reg.writeWidth : Reg → Option Nat
  | .cmd => none
  | .status => none
  | .errinfo => none
  | .len => some 32
  | .idx => some 32
  | .pass => some 2
  | .padlen => none
  | .cap => none
  | _ => some 64

end Sys2Proof.Machine
end

