-- ==== Sys2Proof/Certificates/Slice0/Obligations.lean ====
section
/-! DEFINITION. The statements for the provers, each about the machine as the numbered rules of spec/ give it. -/

open Sys2Proof Sys2Proof.Machine

/-! ### Encoding -/

/-- Decoding an encoded well-formed command gives it back, with every operand value (`30_encoding.md` R83, R84). -/
def Obligations.DecodeOfEncodeIsTheCommand : Prop :=
  ∀ i : Instr, i.wf = true → decode (encode i) = .ok i

/-- Every word that decodes is the encoding of the command it decodes to, and that command is well-formed: no bit
of an accepted word is ignored (`30_encoding.md` R84). -/
def Obligations.DecodedWordIsTheEncoding : Prop :=
  ∀ (w : CmdWord) (i : Instr), decode w = .ok i → encode i = w ∧ i.wf = true

/-- The illegal words are exactly those R85 lists, and one written to CMD while no fault is recorded raises
ILLEGAL, with the word in ERRINFO, and changes nothing else (`30_encoding.md` R85). -/
def Obligations.IllegalWordsRaiseIllegalOnly : Prop :=
  (∀ w : CmdWord, (∃ r, decode w = .error r) ↔ illegalWord w) ∧
  ∀ (w : CmdWord) (s : State), s.err = 0 → illegalWord w → onlyFaults 4 w s (submit w s)

/-- A few words written out from the opcode map decode to the commands they stand for (`30_encoding.md` R83). -/
def Obligations.WordsOfTheOpcodeMapDecode : Prop :=
  decode 0x00000000 = .ok .nop ∧ decode 0x00000001 = .ok .clr ∧ decode 0x00000410 = .ok (.permr 4) ∧
  decode 0x0000ff11 = .ok (.perml 255) ∧ decode 0x00000030 = .ok .encw ∧ decode 0x00000045 = .ok .uninit ∧
  decode 0x00000049 = .ok .padchk ∧ decode 0x00000050 = .ok .sealBuf ∧ decode 0x00000051 = .ok .openBuf ∧
  decode 0x00000150 = .error .operandBits ∧ decode 0x00000046 = .error .unassignedOpcode ∧
  decode 0x00010010 = .error .highBits

/-! ### The step and the acceptance of commands -/

/-- A write of a word that decodes to `i` makes the step `exec i` on the state whose script has moved past that
write, and a word placed by `withFetchWord` is what the next step runs (`10_state.md` R36, `30_encoding.md` R84). That
the host's statements to come stand in `script` is the model's choice (log entry 3). -/
def Obligations.StepRunsTheDecodedCommand : Prop :=
  (∀ (s : State) (v : Word) (rest : List HostAction) (i : Instr), s.script = .regWrite 0x00 v :: rest →
    decode (v.setWidth 32) = .ok i → step s = exec i { s with script := rest }) ∧
  ∀ (s : State) (w : CmdWord) (i : Instr), decode w = .ok i → step (s.withFetchWord 32 w.toNat) = exec i s

/-- While a fault is recorded a write of any word but exactly 0x00000001 changes nothing, ERR and ERRINFO
included (`60_exceptions.md` R203 step 1, R207), and CLR is accepted. That the write stands in `script` is the model's
choice (log entry 3). -/
def Obligations.FaultedEngineIgnoresAllButClr : Prop :=
  ∀ (s : State) (v : Word) (rest : List HostAction), s.script = .regWrite 0x00 v :: rest → s.err ≠ 0 →
    (v.setWidth 32 ≠ (1 : CmdWord) → step s = .next { s with script := rest }) ∧
    (v.setWidth 32 = (1 : CmdWord) → ∃ t, step s = .next t ∧ t.err = 0 ∧ t.errinfo = 0)

/-- Only CLR and the reset event lead from a recorded fault back to `ERR = 0`, and both leave every register at
its reset value (`60_exceptions.md` R208). That the host's next action stands in `script` is the model's choice (log
entry 3). -/
def Obligations.OnlyClrOrResetReturnsFromFault : Prop :=
  ∀ (s t : State), step s = .next t → s.err ≠ 0 → t.err = 0 →
    (∃ rest, s.script = .reset :: rest ∨ ∃ v : Word, s.script = .regWrite 0x00 v :: rest ∧ v.setWidth 32 = (1 : CmdWord)) ∧
    ∀ reg : Reg, t.regValue reg = (State.resetFor s.config).regValue reg

/-- The faults a command can raise are those of R202's table; a valid command never raises ILLEGAL; a command
whose cell of the table is blank ends with no fault (`60_exceptions.md` R202, an inference the spec marks as its own:
"derived: from the Faults line of every rule"). The terms PERMR and PERML with a
count above 255, which no word decodes to, are included by the model's choice (log entry 13). -/
def Obligations.CommandsRaiseOnlyTheirFaults : Prop :=
  ∀ (i : Instr) (s t : State), s.err = 0 → exec i s = .next t → t.err ≠ 0 → t.err ∈ mayRaise i

/-- MALFORMED before BOUNDS: SEAL and OPEN with `LEN < 3` record MALFORMED whatever the capacity; a message that
does not fit records BOUNDS; every other buffer command records BOUNDS where BufOK fails; in each case nothing else
changes (`60_exceptions.md` R203 steps 3 and 4, R205). -/
def Obligations.InterfaceFaultsChangeNothingElse : Prop :=
  ∀ s : State, s.err = 0 →
    (s.len.toNat < 3 → onlyFaults 1 0x50 s (exec .sealBuf s) ∧ onlyFaults 1 0x51 s (exec .openBuf s)) ∧
    (3 ≤ s.len.toNat → s.config.memWords.toNat < s.len.toNat + 4 →
      onlyFaults 5 0x50 s (exec .sealBuf s) ∧ onlyFaults 5 0x51 s (exec .openBuf s)) ∧
    (s.len.toNat = 0 ∨ s.config.memWords.toNat < s.len.toNat + 4 →
      onlyFaults 5 0x30 s (exec .encw s) ∧ onlyFaults 5 0x31 s (exec .encloop s) ∧
      onlyFaults 5 0x32 s (exec .decw s) ∧ onlyFaults 5 0x33 s (exec .decloop s) ∧
      onlyFaults 5 0x41 s (exec .sttag s) ∧ onlyFaults 5 0x42 s (exec .ldtag s) ∧
      onlyFaults 5 0x49 s (exec .padchk s))

/-! ### System commands, reset and the host's accesses -/

/-- NOP changes nothing; CLR, accepted whether or not a fault is recorded, puts every register to 0 and leaves the
buffer; SCRUB zeroes the working registers only (`46_system.md` R160 to R162). -/
def Obligations.SystemCommandsHaveTheirEffect : Prop :=
  decode 0x00000000 = .ok .nop ∧ decode 0x00000001 = .ok .clr ∧ decode 0x00000002 = .ok .scrub ∧
  (∀ s : State, exec .nop s = .next s) ∧
  (∀ s : State, exec .clr s = .next
    { s with v := ⟨0, 0, 0, 0⟩, k := ⟨0, 0⟩, n := ⟨0, 0⟩, kw := ⟨0, 0⟩, nw := ⟨0, 0⟩, gamma := 0, len := 0, pos := ⟨0, 0⟩, padlen := 0, err := 0, errinfo := 0 }) ∧
  (∀ s : State, s.err = 0 → exec .scrub s = .next
    { s with v := ⟨0, 0, 0, 0⟩, kw := ⟨0, 0⟩, nw := ⟨0, 0⟩, gamma := 0, pos := ⟨0, 0⟩ })

/-- The reset event: every register 0, every byte of the buffer without a value, on hardware of any capacity; the
parameters stay (`70_reset_and_hazards.md` R230, `10_state.md` R45, R48). That the host's side of the state stays is
the model's choice (log entry 5). -/
def Obligations.ResetZeroesRegistersAndForgetsTheBuffer : Prop :=
  ∀ (s : State) (rest : List HostAction), s.script = .reset :: rest → ∃ t, step s = .next t ∧
    (∀ reg : Reg, reg ≠ .cap → t.regValue reg = 0) ∧ t.regValue .cap = s.config.memWords.setWidth 64 ∧
    (∀ a, t.buf.read a = none) ∧ t.config = s.config ∧ t.script = rest ∧ t.observed = s.observed

/-- The first command after reset, on hardware of any capacity: every buffer-touching command raises BOUNDS, SEAL
and OPEN raise MALFORMED, the others work at once, OPREP gives GAMMA 0 and position (3, 0), SINIT gives the
constants, and AUTHCHK raises AUTH unless the constants are 0 (`70_reset_and_hazards.md` R231). That PERMR and PERML
with a count above 255, which no word decodes to, complete too is the model's choice (log entry 13). -/
def Obligations.FirstCommandAfterReset : Prop :=
  ∀ c : Config, let s := State.resetFor c
    (∀ i ∈ [Instr.encw, .encloop, .decw, .decloop, .sttag, .ldtag, .padchk], onlyFaults 5 (encode i) s (exec i s)) ∧
    (∀ i ∈ [Instr.sealBuf, .openBuf], onlyFaults 1 (encode i) s (exec i s)) ∧
    (∀ count, ∀ i ∈ [Instr.nop, .clr, .scrub, .permr count, .perml count, .sinit, .nabs, .dsep, .init, .fin, .oprep, .unfin, .uninit],
      ∃ t, exec i s = .next t ∧ t.err = 0) ∧
    exec .oprep s = .next { s with gamma := 0, pos := ⟨3, 0⟩ } ∧
    exec .sinit s = .next { s with v := ⟨c.initConst.c0, c.initConst.c1, c.initConst.c2, c.initConst.c3⟩ } ∧
    (c.initConst ≠ ⟨0, 0, 0, 0⟩ → onlyFaults 2 0x48 s (exec .authchk s))

/-- A register read returns the register's value, zero-extended, and 0 for CMD and for the reserved numbers; it
changes nothing of the machine (`10_state.md` R38, R39, R40). That the host's side of the state, `script` and
`observed`, takes the value is the model's choice (log entries 3 and 5). -/
def Obligations.RegisterReadReturnsTheValue : Prop :=
  ∀ (s : State) (r : BitVec 5) (rest : List HostAction), s.script = .regRead r :: rest → ∃ w : Word,
    step s = .next { s with script := rest, observed := s.observed ++ [w] } ∧
    (r = 0x00 → w = 0) ∧ (r = 0x01 → w = s.err.setWidth 64) ∧ (r = 0x02 → w = s.errinfo.setWidth 64) ∧
    (r = 0x03 → w = s.len.setWidth 64) ∧ (r = 0x04 → w = s.pos.idx.setWidth 64) ∧
    (r = 0x05 → w = s.pos.pass.setWidth 64) ∧ (r = 0x06 → w = s.padlen.setWidth 64) ∧ (r = 0x07 → w = 0) ∧
    (r = 0x08 → w = s.k.w1) ∧ (r = 0x09 → w = s.k.w2) ∧ (r = 0x0a → w = s.n.w1) ∧ (r = 0x0b → w = s.n.w2) ∧
    (r = 0x0c → w = s.kw.w1) ∧ (r = 0x0d → w = s.kw.w2) ∧ (r = 0x0e → w = s.nw.w1) ∧ (r = 0x0f → w = s.nw.w2) ∧
    (r = 0x10 → w = s.v.v0) ∧ (r = 0x11 → w = s.v.v1) ∧ (r = 0x12 → w = s.v.v2) ∧ (r = 0x13 → w = s.v.v3) ∧
    (r = 0x14 → w = s.gamma) ∧ (0x15 ≤ r.toNat ∧ r.toNat ≤ 0x17 → w = 0) ∧
    (r = 0x18 → w = s.config.memWords.setWidth 64) ∧ (0x19 ≤ r.toNat → w = 0)

/-- A register write stores the low bits the register has, is ignored for a read-only register and a reserved
number, leaves every other register, the buffer and the parameters alone, whatever STATUS.ERR holds; a write to CMD
runs the low 32 bits as a command word (`10_state.md` R39, R41). That the write stands in `script` is the model's choice
(log entry 3). -/
def Obligations.RegisterWriteStoresTheLowBits : Prop :=
  ∀ (s : State) (r : BitVec 5) (v : Word) (rest : List HostAction), s.script = .regWrite r v :: rest →
    (r = 0x00 → step s = submit (v.setWidth 32) { s with script := rest }) ∧
    (r ≠ 0x00 → ∃ t, step s = .next t ∧ t.buf = s.buf ∧ t.config = s.config ∧ t.script = rest ∧ t.observed = s.observed ∧
      ∀ reg : Reg, t.regValue reg =
        if reg.number = r then
          match reg.writeWidth with
          | some width => BitVec.ofNat 64 (v.toNat % 2 ^ width)
          | none => s.regValue reg
        else s.regValue reg)

/-- Host buffer accesses: one byte anywhere in range, eight at a multiple of 8, whatever STATUS.ERR holds. A write
changes the bytes written and no others; a read returns their little-endian value and changes nothing. Any other
access, one that reaches past the end, and a read of a byte nothing has written is refused (`20_memory.md` R65, R68,
R69). That the host's side of the state is `script` and `observed` is the model's choice (log entries 3 and 5). -/
def Obligations.HostBufferAccesses : Prop :=
  (∀ (s : State) (a n : Nat) (v : Word) (rest : List HostAction), s.script = .bufWrite a n v :: rest →
    (n = 1 ∨ (n = 8 ∧ a % 8 = 0)) → a + n ≤ 8 * s.config.memWords.toNat → ∃ t, step s = .next t ∧
      (∀ k < n, t.buf.read (a + k) = some (v.extractLsb' (8 * k) 8)) ∧ sameOutside a (a + n) s t ∧
      t = { s with script := rest, buf := t.buf }) ∧
  (∀ (s : State) (a n : Nat) (rest : List HostAction), s.script = .bufRead a n :: rest →
    (n = 1 ∨ (n = 8 ∧ a % 8 = 0)) → a + n ≤ 8 * s.config.memWords.toNat → s.written a n → ∃ w : Word,
      (∀ k < n, s.buf.read (a + k) = some (w.extractLsb' (8 * k) 8)) ∧ w.toNat < 2 ^ (8 * n) ∧
      step s = .next { s with script := rest, observed := s.observed ++ [w] }) ∧
  (∀ (s : State) (a n : Nat) (rest : List HostAction), s.script = .bufRead a n :: rest →
    (n = 1 ∨ (n = 8 ∧ a % 8 = 0)) → a + n ≤ 8 * s.config.memWords.toNat → ¬ s.written a n →
      step s = .refused .unwrittenByte) ∧
  ∀ (s : State) (a n : Nat) (v : Word) (rest : List HostAction),
    (s.script = .bufWrite a n v :: rest ∨ s.script = .bufRead a n :: rest) →
    ((n ≠ 1 ∧ n ≠ 8) ∨ (n = 8 ∧ a % 8 ≠ 0) ∨ 8 * s.config.memWords.toNat < a + n) → ∃ e, step s = .refused e

/-! ### The message buffer -/

/-- Byte order is little-endian: a word read is made of its bytes, the first the least significant, and a word
write stores them so; a byte access reads and writes the one byte; a write changes no other byte
(`20_memory.md` R61). -/
def Obligations.BufferIsLittleEndian : Prop :=
  ∀ (m : Memory) (a : Nat) (w : Word),
    (m.readLE 8 a = some w ↔ ∀ k < 8, m.read (a + k) = some (w.extractLsb' (8 * k) 8)) ∧
    (m.readLE 1 a = some w ↔ ∃ b : Byte, m.read a = some b ∧ w = b.setWidth 64) ∧
    (∀ k < 8, (m.writeLE 8 a w).read (a + k) = some (w.extractLsb' (8 * k) 8)) ∧
    (m.writeLE 1 a w).read a = some (w.extractLsb' 0 8) ∧
    (∀ b, b < a ∨ a + 8 ≤ b → (m.writeLE 8 a w).read b = m.read b) ∧
    (∀ b, b ≠ a → (m.writeLE 1 a w).read b = m.read b)

/-- No step makes an access outside the buffer: from any state, the step never ends in the fault that the buffer
primitives raise for an address that does not exist (`20_memory.md` R64). -/
def Obligations.NoStepLeavesTheBuffer : Prop :=
  ∀ (s : State) (f : Fault), step s ≠ .fault f

/-- The only way a command stops the run is a read of a byte of the message or tag region that nothing has
written (`20_memory.md` R69, `93_implementation_defined.md` U5). The terms PERMR and PERML with a
count above 255, which no word decodes to, are included by the model's choice (log entry 13). -/
def Obligations.OnlyUnwrittenBytesRefuseACommand : Prop :=
  ∀ (i : Instr) (s : State) (e : Refusal), exec i s = .refused e →
    e = .unwrittenByte ∧ ∃ a < s.sealedBytes, s.buf.read a = none

/-- Bytes at `8 * (LEN + 4)` and beyond are never read or written by any command: a command run on two states
that differ only there ends the same way, in states that differ only there, and leaves them as they were
(`20_memory.md` R63). The terms PERMR and PERML with a
count above 255, which no word decodes to, are included by the model's choice (log entry 13). -/
def Obligations.NoCommandTouchesBytesPastTheTag : Prop :=
  ∀ (i : Instr) (s : State) (m : Memory), (∀ a < s.sealedBytes, m.read a = s.buf.read a) →
    (∀ t, exec i s = .next t → (∀ a, s.sealedBytes ≤ a → t.buf.read a = s.buf.read a) ∧
      ∃ t', exec i { s with buf := m } = .next t' ∧ t' = { t with buf := t'.buf } ∧
        (∀ a < s.sealedBytes, t'.buf.read a = t.buf.read a) ∧
        ∀ a, s.sealedBytes ≤ a → t'.buf.read a = m.read a) ∧
    ∀ e, exec i s = .refused e → exec i { s with buf := m } = .refused e

/-! ### Invariants and whole-machine rules -/

/-- Every step, from any state with the invariant, leaves the invariant: the buffer in canonical form and inside
its addresses, ERR a code the engine produces, ERRINFO 0 where no fault is recorded. -/
def Obligations.StepKeepsTheInvariant : Prop :=
  ∀ s t : State, s.Inv → step s = .next t → t.Inv

/-- The state after reset has the invariant, on hardware of any configuration. -/
def Obligations.ResetHasTheInvariant : Prop :=
  ∀ c : Config, (State.resetFor c).Inv

/-- No command and no host action changes the parameters of the hardware, the initialisation constants among them
(`10_state.md` R27). -/
def Obligations.NoStepChangesTheParameters : Prop :=
  ∀ s t : State, step s = .next t → t.config = s.config

/-- No command other than CLR writes K1, K2, N1, N2 or LEN (`10_state.md` R22, R23, R31, R38). The terms PERMR and PERML with a
count above 255, which no word decodes to, are included by the model's choice (log entry 13). -/
def Obligations.OnlyClrWritesKeyNonceAndLength : Prop :=
  ∀ (i : Instr) (s t : State), i ≠ .clr → exec i s = .next t → t.k = s.k ∧ t.n = s.n ∧ t.len = s.len

/-- The registers a command writes are those of the register map's last column: KW, NW, GAMMA, PASS and IDX only
by the commands it names, PADLEN only by PADCHK, OPEN and CLR, V by none of NOP, OPREP, STTAG, AUTHCHK and PADCHK,
and the buffer only by the seven commands that write it (`10_state.md` R38, R42). The terms PERMR and PERML with a
count above 255, which no word decodes to, are included by the model's choice (log entry 13). -/
def Obligations.CommandsWriteOnlyTheirRegisters : Prop :=
  ∀ (i : Instr) (s t : State), exec i s = .next t →
    (i ∉ [Instr.sinit, .init, .encw, .encloop, .decw, .decloop, .oprep, .sealBuf, .openBuf, .scrub, .clr] →
      t.kw = s.kw ∧ t.nw = s.nw ∧ t.gamma = s.gamma ∧ t.pos = s.pos) ∧
    (i ∉ [Instr.padchk, .openBuf, .clr] → t.padlen = s.padlen) ∧
    (i ∈ [Instr.nop, .oprep, .sttag, .authchk, .padchk] → t.v = s.v) ∧
    (i ∉ [Instr.encw, .encloop, .decw, .decloop, .sttag, .sealBuf, .openBuf] → t.buf = s.buf)

/-! ### The round function -/

/-- The arithmetic primitives are those of `00_scope.md` R13: sums, differences and products modulo 2^64, the
bitwise operations, the shift and the two rotations, a rotation undone by its reverse; a rotation count taken from
GAMMA is at most 63. -/
def Obligations.ArithmeticIsThatOfTheSpec : Prop :=
  ∀ (a b : Word) (n : Nat), n ≤ 63 →
    (a + b).toNat = (a.toNat + b.toNat) % 2 ^ 64 ∧
    ((a - b).toNat : Int) = ((a.toNat : Int) - (b.toNat : Int)) % 2 ^ 64 ∧
    (a * b).toNat = a.toNat * b.toNat % 2 ^ 64 ∧
    (∀ i < 64, (a ^^^ b).getLsbD i = Bool.xor (a.getLsbD i) (b.getLsbD i)) ∧
    (∀ i < 64, (a ||| b).getLsbD i = (a.getLsbD i || b.getLsbD i)) ∧
    (shr64 a n).toNat = a.toNat / 2 ^ n ∧
    (rotl64 a n).toNat = (if n = 0 then a.toNat else a.toNat * 2 ^ n % 2 ^ 64 + a.toNat / 2 ^ (64 - n)) ∧
    rotr64 a n = rotl64 a ((64 - n) % 64) ∧
    rotr64 (rotl64 a n) n = a ∧ rotl64 (rotr64 a n) n = a ∧
    (shr64 a 58).toNat ≤ 63

/-- The forward round is the eight lines of `40_round.md` R100, written out as the values its words take. -/
def Obligations.ForwardRoundIsItsEightLines : Prop :=
  ∀ s : Sponge,
    let x0 := s.v0 + s.v1
    let x2 := s.v2 + s.v3
    let x1 := rotl64 s.v1 13 ^^^ x0
    let x3 := rotl64 s.v3 16 ^^^ x2
    let y0 := rotl64 x0 32 + x3
    let y2 := x2 + x1
    permR s = ⟨y0, rotl64 x1 17 ^^^ y2, rotl64 y2 32, rotl64 x3 21 ^^^ y0⟩

/-- The inverse round undoes the round and the round undoes the inverse round, on every state, and so for every
number of them. Both the listing of the inverse round and the property are inferences the spec marks as its own
(`40_round.md`, R101's "the line-by-line reversal of rule R100", R104's "the compositions in both orders are the
identity"). -/
def Obligations.RoundAndInverseRoundCancel : Prop :=
  (∀ s : Sponge, permL (permR s) = s ∧ permR (permL s) = s) ∧
  ∀ (n : Nat) (s : Sponge), rounds permL n (rounds permR n s) = s ∧ rounds permR n (rounds permL n s) = s

/-- The all-zero state is a fixed point of both round functions: an inference the spec marks as its own
(`40_round.md`, R105's "the all-zero state is a fixed point of both functions"). -/
def Obligations.ZeroIsAFixedPointOfTheRounds : Prop :=
  permR ⟨0, 0, 0, 0⟩ = ⟨0, 0, 0, 0⟩ ∧ permL ⟨0, 0, 0, 0⟩ = ⟨0, 0, 0, 0⟩

/-- PERMR and PERML apply their round `count` times to V and change nothing else; a count of 0 changes nothing;
each undoes the other (`40_round.md` R102, R103, for the counts 0 to 255 they give). That a count above 255, which no
word decodes to, runs that many rounds is the model's choice (log entry 13). -/
def Obligations.PermCommandsApplyTheirRounds : Prop :=
  (∀ count < 256, decode (BitVec.ofNat 32 (0x10 + 256 * count)) = .ok (.permr count) ∧
    decode (BitVec.ofNat 32 (0x11 + 256 * count)) = .ok (.perml count)) ∧
  ∀ (count : Nat) (s : State), s.err = 0 →
    exec (.permr count) s = .next { s with v := permR^[count] s.v } ∧
    exec (.perml count) s = .next { s with v := permL^[count] s.v } ∧
    execAll [.permr count, .perml count] s = .next s ∧ execAll [.perml count, .permr count] s = .next s

/-! ### Initialisation -/

/-- SINIT builds the state from the key and the constants and loads the working registers (`41_init.md` R110). The
loads of KW, NW, GAMMA and the position are an inference the spec marks as its own (R110's "a loop that starts at the
first word of the first pass require"). -/
def Obligations.SinitBuildsTheKeyedState : Prop :=
  decode 0x00000020 = .ok .sinit ∧ ∀ s : State, s.err = 0 → exec .sinit s = .next
    { s with v := ⟨s.config.initConst.c0 ^^^ s.k.w1, s.config.initConst.c1 ^^^ s.k.w2, s.config.initConst.c2 ^^^ s.k.w1, s.config.initConst.c3 ^^^ s.k.w2⟩, kw := s.k, nw := s.n, gamma := 0, pos := ⟨0, 0⟩ }

/-- NABS absorbs NW1 and then NW2, one round after each (`41_init.md` R111). -/
def Obligations.NabsAbsorbsBothNonceWords : Prop :=
  decode 0x00000021 = .ok .nabs ∧ ∀ (s : State) (x y : Sponge), s.err = 0 →
    x = permR ⟨s.v.v0, s.v.v1, s.v.v2, s.v.v3 ^^^ s.nw.w1⟩ → y = permR ⟨x.v0, x.v1, x.v2, x.v3 ^^^ s.nw.w2⟩ →
    exec .nabs s = .next { s with v := y }

/-- DSEP XORs 0xfd into V0, changes only its bits 7:0, and is its own inverse (`41_init.md` R112). -/
def Obligations.DsepSeparatesTheMode : Prop :=
  decode 0x00000022 = .ok .dsep ∧ ∀ s : State, s.err = 0 →
    exec .dsep s = .next { s with v := { s.v with v0 := s.v.v0 ^^^ 0xfd } } ∧
    (s.v.v0 ^^^ 0xfd) >>> 8 = s.v.v0 >>> 8 ∧ execAll [.dsep, .dsep] s = .next s

/-- INIT is SINIT, NABS, DSEP as one step, it completes, and its result depends on the key and the nonce only
(`41_init.md` R113). The values it leaves in KW, NW, GAMMA and the position are SINIT's loads, an inference the spec
marks as its own (R110's "a loop that starts at the first word of the first pass require"). -/
def Obligations.InitIsItsThreeSteps : Prop :=
  decode 0x00000023 = .ok .init ∧
  (∀ s : State, exec .init s = execAll [.sinit, .nabs, .dsep] s) ∧
  (∀ s : State, s.err = 0 → ∃ t, exec .init s = .next t ∧
    t = { s with v := t.v, kw := s.k, nw := s.n, gamma := 0, pos := ⟨0, 0⟩ }) ∧
  ∀ s s' t t' : State, s.err = 0 → s'.err = 0 → s.k = s'.k → s.n = s'.n → s.config = s'.config →
    exec .init s = .next t → exec .init s' = .next t' → t.v = t'.v

/-! ### The main loop -/

/-- Where they apply, `Next` and `Prev` lead from valid positions to valid positions, are inverse, and move one place in the order
of positions (`10_state.md` R33). -/
def Obligations.NextAndPrevAreInverse : Prop :=
  ∀ (p : Position) (len : BitVec 32),
    (p.pass.toNat < 3 ∧ p.idx.toNat < len.toNat →
      (p.next len).valid len = true ∧ (p.next len).prev len = p ∧ p.next len ≠ ⟨0, 0⟩ ∧
      (p.next len).ordinal len = p.ordinal len + 1) ∧
    (p.valid len = true → 1 ≤ len.toNat → p ≠ ⟨0, 0⟩ →
      (p.prev len).valid len = true ∧ (p.prev len).next len = p ∧ (p.prev len).pass.toNat < 3 ∧
      (p.prev len).ordinal len + 1 = p.ordinal len) ∧
    (p.valid len = true → p.ordinal len ≤ 3 * len.toNat)

/-- One forward word step: where BufOK holds, the position is valid and not (3, 0) and word IDX holds a value, ENCW
completes with the sponge, the word, GAMMA, the pairs and the position of R120 and everything else unchanged; where a
condition fails it raises BOUNDS and changes nothing else (`42_loop.md` R120). -/
def Obligations.EncwStepsOneWord : Prop :=
  decode 0x00000030 = .ok .encw ∧
  (∀ s : State, s.err = 0 → s.bufOK = true → s.pos.pass.toNat < 3 → s.pos.idx.toNat < s.len.toNat →
    s.written (8 * s.pos.idx.toNat) 8 → ∃ (p : Word) (r : Sponge) (t : State),
      s.buf.readLE 8 (8 * s.pos.idx.toNat) = some p ∧
      r = permR ⟨s.v.v0, s.v.v1 ^^^ rotl64 s.kw.w1 (shr64 s.gamma 58).toNat, s.v.v2 ^^^ (s.nw.w1 + s.gamma), s.v.v3 ^^^ p⟩ ∧
      exec .encw s = .next t ∧
      t.buf.readLE 8 (8 * s.pos.idx.toNat) = some (p + r.v3) ∧
      sameOutside (8 * s.pos.idx.toNat) (8 * s.pos.idx.toNat + 8) s t ∧
      t = { s with v := ⟨r.v0 ^^^ p, r.v1, r.v2, r.v3⟩, gamma := s.gamma + 0x9e3779b97f4a7c15, kw := ⟨s.kw.w2, s.kw.w1⟩, nw := ⟨s.nw.w2, s.nw.w1⟩, pos := if s.pos.idx.toNat + 1 < s.len.toNat then ⟨s.pos.pass, s.pos.idx + 1⟩ else ⟨s.pos.pass + 1, 0⟩, buf := t.buf }) ∧
  ∀ s : State, s.err = 0 → (s.bufOK = false ∨ s.pos.valid s.len = false ∨ s.pos.pass = 3) →
    onlyFaults 5 0x30 s (exec .encw s)

/-- One inverse word step, from the position before: where BufOK holds, the position is valid and not (0, 0) and the
word of the position before holds a value, DECW completes with the effect of R122 and everything else unchanged; where
a condition fails it raises BOUNDS and changes nothing else (`42_loop.md` R122). -/
def Obligations.DecwStepsOneWordBack : Prop :=
  decode 0x00000032 = .ok .decw ∧
  (∀ (s : State) (q : Position), s.err = 0 → s.bufOK = true → s.pos.valid s.len = true → s.pos ≠ ⟨0, 0⟩ →
    q = (if 0 < s.pos.idx.toNat then ⟨s.pos.pass, s.pos.idx - 1⟩ else ⟨s.pos.pass - 1, s.len - 1⟩) →
    s.written (8 * q.idx.toNat) 8 → ∃ (c w g : Word) (r : Sponge) (t : State),
      s.buf.readLE 8 (8 * q.idx.toNat) = some c ∧ w = c - s.v.v3 ∧ g = s.gamma - 0x9e3779b97f4a7c15 ∧
      r = permL ⟨s.v.v0 ^^^ w, s.v.v1, s.v.v2, s.v.v3⟩ ∧
      exec .decw s = .next t ∧
      t.buf.readLE 8 (8 * q.idx.toNat) = some w ∧
      sameOutside (8 * q.idx.toNat) (8 * q.idx.toNat + 8) s t ∧
      t = { s with v := ⟨r.v0, r.v1 ^^^ rotl64 s.kw.w2 (shr64 g 58).toNat, r.v2 ^^^ (s.nw.w2 + g), r.v3 ^^^ w⟩, gamma := g, kw := ⟨s.kw.w2, s.kw.w1⟩, nw := ⟨s.nw.w2, s.nw.w1⟩, pos := q, buf := t.buf }) ∧
  ∀ s : State, s.err = 0 → (s.bufOK = false ∨ s.pos.valid s.len = false ∨ s.pos = ⟨0, 0⟩) →
    onlyFaults 5 0x32 s (exec .decw s)

/-- ENCW then DECW, and DECW then ENCW, restore the whole state, wherever the first does not fault
(`42_loop.md` R125, an inference the spec marks as its own: "DECW's first four statements undo ENCW's last four");
`s.buf.wf` is a part of the invariant of `StepKeepsTheInvariant`. -/
def Obligations.WordStepsAreInverse : Prop :=
  ∀ s t : State, s.err = 0 → s.buf.wf → t.err = 0 →
    (exec .encw s = .next t → exec .decw t = .next s) ∧ (exec .decw s = .next t → exec .encw t = .next s)

/-- ENCLOOP is the remaining forward word steps as one step: from the `j`-th position it equals `3 * LEN - j` ENCW
commands, completes at (3, 0) where the message holds values, moves GAMMA and the pairs by that many steps, and
changes no byte past the message; where BufOK or the position fails it raises BOUNDS only (`42_loop.md` R121). -/
def Obligations.EncloopRunsTheRemainingSteps : Prop :=
  decode 0x00000031 = .ok .encloop ∧
  (∀ (s : State) (k : Nat), s.err = 0 → s.stepReady → s.pos.ordinal s.len + k = 3 * s.len.toNat →
    exec .encloop s = execAll (List.replicate k .encw) s ∧
    (s.written 0 (8 * s.len.toNat) → ∃ t, exec .encloop s = .next t ∧ sameOutside 0 (8 * s.len.toNat) s t ∧
      t = { s with v := t.v, gamma := s.gamma + BitVec.ofNat 64 k * 0x9e3779b97f4a7c15, kw := s.kw.exchanged k, nw := s.nw.exchanged k, pos := ⟨3, 0⟩, buf := t.buf })) ∧
  ∀ s : State, s.err = 0 → (s.bufOK = false ∨ s.pos.valid s.len = false) → onlyFaults 5 0x31 s (exec .encloop s)

/-- DECLOOP is the inverse word steps back to (0, 0) as one step: from the `j`-th position it equals `j` DECW
commands and completes at (0, 0); after OPREP it ends with GAMMA 0 and the pairs at the master key and nonce; where
BufOK or the position fails it raises BOUNDS only (`42_loop.md` R123). -/
def Obligations.DecloopRunsBackToTheStart : Prop :=
  decode 0x00000033 = .ok .decloop ∧
  (∀ (s : State) (j : Nat), s.err = 0 → s.stepReady → j = s.pos.ordinal s.len →
    exec .decloop s = execAll (List.replicate j .decw) s ∧
    (s.written 0 (8 * s.len.toNat) → ∃ t, exec .decloop s = .next t ∧ sameOutside 0 (8 * s.len.toNat) s t ∧
      t = { s with v := t.v, gamma := s.gamma - BitVec.ofNat 64 j * 0x9e3779b97f4a7c15, kw := s.kw.exchanged j, nw := s.nw.exchanged j, pos := ⟨0, 0⟩, buf := t.buf })) ∧
  (∀ s t : State, s.err = 0 → s.bufOK = true → execAll [.oprep, .decloop] s = .next t →
    t.gamma = 0 ∧ t.kw = s.k ∧ t.nw = s.n ∧ t.pos = ⟨0, 0⟩) ∧
  ∀ s : State, s.err = 0 → (s.bufOK = false ∨ s.pos.valid s.len = false) → onlyFaults 5 0x33 s (exec .decloop s)

/-- From (0, 0), DECLOOP after ENCLOOP restores the whole state, and from (3, 0) ENCLOOP after DECLOOP does
(`42_loop.md` R125, an inference the spec marks as its own: "Hence DECLOOP after ENCLOOP, each from the position the
other leaves, restores everything"); `s.buf.wf` is a part of the invariant of `StepKeepsTheInvariant`. -/
def Obligations.LoopsAreInverse : Prop :=
  ∀ s : State, s.err = 0 → s.buf.wf → s.bufOK = true → s.written 0 (8 * s.len.toNat) →
    (s.pos = ⟨0, 0⟩ → execAll [.encloop, .decloop] s = .next s) ∧
    (s.pos = ⟨3, 0⟩ → execAll [.decloop, .encloop] s = .next s)

/-- The loop's bookkeeping: `j` ENCW commands after SINIT leave GAMMA at `j * DELTA`, the position at word
`j mod LEN` of pass `floor(j / LEN)`, and the pairs exchanged where `j` is odd (`42_loop.md` R124, an inference the
spec marks as its own: "derived: from rules R110 and R120"). -/
def Obligations.WordStepBookkeeping : Prop :=
  ∀ (s : State) (j : Nat), s.err = 0 → s.bufOK = true → s.written 0 (8 * s.len.toNat) → j ≤ 3 * s.len.toNat →
    ∃ t, execAll (.sinit :: List.replicate j .encw) s = .next t ∧
      t.gamma = 0x9e3779b97f4a7c15 * BitVec.ofNat 64 j ∧ t.pos.pass.toNat = j / s.len.toNat ∧
      t.pos.idx.toNat = j % s.len.toNat ∧
      (j % 2 = 0 → t.kw = s.k ∧ t.nw = s.n) ∧ (j % 2 = 1 → t.kw = ⟨s.k.w2, s.k.w1⟩ ∧ t.nw = ⟨s.n.w2, s.n.w1⟩)

/-! ### Finalisation and the tag -/

/-- FIN: the four XORs, four rounds, and the whitening of R130; nothing else changes (`43_finalize.md` R130). -/
def Obligations.FinMakesTheTag : Prop :=
  decode 0x00000040 = .ok .fin ∧ ∀ (s : State) (r : Sponge), s.err = 0 →
    r = permR (permR (permR (permR ⟨s.v.v0 ^^^ (s.nw.w2 + 0xfe), s.v.v1 ^^^ s.kw.w1, s.v.v2 ^^^ (s.nw.w1 + s.gamma), s.v.v3 ^^^ s.kw.w2⟩))) →
    exec .fin s = .next
      { s with v := ⟨r.v0 ^^^ s.nw.w2, r.v1 ^^^ (s.kw.w1 + s.kw.w2), r.v2 ^^^ s.nw.w1, r.v3 ^^^ (s.kw.w2 + 2 * s.kw.w1)⟩ }

/-- UNFIN: the whitening undone, four inverse rounds, the four XORs undone (`43_finalize.md` R134). The undoing of the
four XORs is an inference the spec marks as its own (R134's "is required for the inverse loop to start from the state
the forward loop ended in"). -/
def Obligations.UnfinUndoesTheTag : Prop :=
  decode 0x00000044 = .ok .unfin ∧ ∀ (s : State) (r : Sponge), s.err = 0 →
    r = permL (permL (permL (permL ⟨s.v.v0 ^^^ s.nw.w2, s.v.v1 ^^^ (s.kw.w1 + s.kw.w2), s.v.v2 ^^^ s.nw.w1, s.v.v3 ^^^ (s.kw.w2 + 2 * s.kw.w1)⟩))) →
    exec .unfin s = .next
      { s with v := ⟨r.v0 ^^^ (s.nw.w2 + 0xfe), r.v1 ^^^ s.kw.w1, r.v2 ^^^ (s.nw.w1 + s.gamma), r.v3 ^^^ s.kw.w2⟩ }

/-- UNINIT: 0xfd first, then an inverse round and NW2, an inverse round and NW1 (`43_finalize.md` R135). -/
def Obligations.UninitUndoesInitialisation : Prop :=
  decode 0x00000045 = .ok .uninit ∧ ∀ (s : State) (x y : Sponge), s.err = 0 →
    x = permL ⟨s.v.v0 ^^^ 0xfd, s.v.v1, s.v.v2, s.v.v3⟩ → y = permL ⟨x.v0, x.v1, x.v2, x.v3 ^^^ s.nw.w2⟩ →
    exec .uninit s = .next { s with v := ⟨y.v0, y.v1, y.v2, y.v3 ^^^ s.nw.w1⟩ }

/-- OPREP: GAMMA `DELTA * 3 * LEN`, the pairs exchanged exactly where `3 * LEN` is odd, position (3, 0); nothing
else changes, and LEN may be 0 (`43_finalize.md` R133). -/
def Obligations.OprepSetsEndOfLoopValues : Prop :=
  decode 0x00000043 = .ok .oprep ∧ ∀ s : State, s.err = 0 → exec .oprep s = .next
    { s with gamma := 0x9e3779b97f4a7c15 * BitVec.ofNat 64 (3 * s.len.toNat), kw := if s.len.toNat % 2 = 1 then ⟨s.k.w2, s.k.w1⟩ else s.k, nw := if s.len.toNat % 2 = 1 then ⟨s.n.w2, s.n.w1⟩ else s.n, pos := ⟨3, 0⟩ }

/-- STTAG stores V0 to V3 to words LEN to LEN+3 and changes nothing else; it raises BOUNDS where BufOK fails
(`43_finalize.md` R131). -/
def Obligations.SttagStoresTheTag : Prop :=
  decode 0x00000041 = .ok .sttag ∧
  (∀ s : State, s.err = 0 → s.bufOK = true → ∃ t, exec .sttag s = .next t ∧
    t.buf.readLE 8 (8 * (s.len.toNat + 0)) = some s.v.v0 ∧ t.buf.readLE 8 (8 * (s.len.toNat + 1)) = some s.v.v1 ∧
    t.buf.readLE 8 (8 * (s.len.toNat + 2)) = some s.v.v2 ∧ t.buf.readLE 8 (8 * (s.len.toNat + 3)) = some s.v.v3 ∧
    sameOutside (8 * s.len.toNat) (8 * (s.len.toNat + 4)) s t ∧ sameRegisters s t) ∧
  ∀ s : State, s.err = 0 → s.bufOK = false → onlyFaults 5 0x41 s (exec .sttag s)

/-- LDTAG loads V0 to V3 from words LEN to LEN+3 and changes nothing else; it raises BOUNDS where BufOK fails
(`43_finalize.md` R132). -/
def Obligations.LdtagLoadsTheTag : Prop :=
  decode 0x00000042 = .ok .ldtag ∧
  (∀ s : State, s.err = 0 → s.bufOK = true → s.written (8 * s.len.toNat) 32 → ∃ v : Sponge,
    exec .ldtag s = .next { s with v := v } ∧
    s.buf.readLE 8 (8 * (s.len.toNat + 0)) = some v.v0 ∧ s.buf.readLE 8 (8 * (s.len.toNat + 1)) = some v.v1 ∧
    s.buf.readLE 8 (8 * (s.len.toNat + 2)) = some v.v2 ∧ s.buf.readLE 8 (8 * (s.len.toNat + 3)) = some v.v3) ∧
  ∀ s : State, s.err = 0 → s.bufOK = false → onlyFaults 5 0x42 s (exec .ldtag s)

/-- FIN and UNFIN undo each other, NABS then DSEP and UNINIT undo each other, STTAG then LDTAG leaves V, and LDTAG
then STTAG leaves the buffer (`43_finalize.md` R136, an inference the spec marks as its own: "each sequence XORs the
same values in and out around rounds that cancel"). -/
def Obligations.FinalisationIsInvertible : Prop :=
  ∀ s : State, s.err = 0 →
    execAll [.fin, .unfin] s = .next s ∧ execAll [.unfin, .fin] s = .next s ∧
    execAll [.nabs, .dsep, .uninit] s = .next s ∧ execAll [.uninit, .nabs, .dsep] s = .next s ∧
    (s.bufOK = true → ∃ t, execAll [.sttag, .ldtag] s = .next t ∧ t.v = s.v) ∧
    (s.bufOK = true → s.written (8 * s.len.toNat) 32 → ∃ t, execAll [.ldtag, .sttag] s = .next t ∧ sameBuf s t)

/-! ### The two checks -/

/-- AUTHCHK passes, changing nothing, exactly where all four words of V are those SINIT would build from the master
key; otherwise it raises AUTH and changes nothing else (`44_checks.md` R140). -/
def Obligations.AuthchkComparesAllFourWords : Prop :=
  decode 0x00000048 = .ok .authchk ∧ ∀ s : State, s.err = 0 →
    (s.v.v0 = s.config.initConst.c0 ^^^ s.k.w1 ∧ s.v.v1 = s.config.initConst.c1 ^^^ s.k.w2 ∧
      s.v.v2 = s.config.initConst.c2 ^^^ s.k.w1 ∧ s.v.v3 = s.config.initConst.c3 ^^^ s.k.w2 →
      exec .authchk s = .next s) ∧
    (¬ (s.v.v0 = s.config.initConst.c0 ^^^ s.k.w1 ∧ s.v.v1 = s.config.initConst.c1 ^^^ s.k.w2 ∧
      s.v.v2 = s.config.initConst.c2 ^^^ s.k.w1 ∧ s.v.v3 = s.config.initConst.c3 ^^^ s.k.w2) →
      onlyFaults 2 0x48 s (exec .authchk s))

/-- The two wordings of the check agree: where the working nonce is the nonce, the state UNINIT recovers is the
keyed state exactly where the state before it is the one INIT builds (`44_checks.md` R142). -/
def Obligations.BothAuthenticationChecksAgree : Prop :=
  ∀ s t u : State, s.err = 0 → s.nw = s.n → exec .uninit s = .next t → exec .init s = .next u →
    (exec .authchk t = .next t ↔ s.v = u.v)

/-- PADCHK, by the last byte `b` of the message: with good padding of count `b` it sets PADLEN to `b` and changes
nothing else; with a count of 0 or above `8 * LEN`, or with another value than 0 among the `b - 1` bytes before the
count, it sets PADLEN to 0 and raises PAD; where BufOK fails it raises BOUNDS and leaves PADLEN (`44_checks.md` R141).
The bytes it reads hold values (`20_memory.md` R69). -/
def Obligations.PadchkChecksThePadding : Prop :=
  decode 0x00000049 = .ok .padchk ∧
  (∀ (s : State) (b : Byte), s.err = 0 → s.bufOK = true → s.buf.read (8 * s.len.toNat - 1) = some b →
    (1 ≤ b.toNat → b.toNat ≤ 8 * s.len.toNat →
      (∀ a, 8 * s.len.toNat - b.toNat ≤ a → a < 8 * s.len.toNat - 1 → s.buf.read a = some 0) →
      exec .padchk s = .next { s with padlen := b }) ∧
    (b = 0 ∨ 8 * s.len.toNat < b.toNat → onlyFaults 3 0x49 { s with padlen := 0 } (exec .padchk s)) ∧
    (1 ≤ b.toNat → b.toNat ≤ 8 * s.len.toNat → s.written (8 * s.len.toNat - b.toNat) b.toNat →
      (∃ a, 8 * s.len.toNat - b.toNat ≤ a ∧ a < 8 * s.len.toNat - 1 ∧ s.buf.read a ≠ some 0) →
      onlyFaults 3 0x49 { s with padlen := 0 } (exec .padchk s))) ∧
  ∀ s : State, s.err = 0 → s.bufOK = false → onlyFaults 5 0x49 s (exec .padchk s)

/-! ### The duplex engine -/

/-- SEAL is INIT, ENCLOOP, FIN, STTAG, SCRUB as one step; where the message fits and holds values it completes,
changes bytes of the message and tag only and no register but the working ones; where LEN is below 3, or the message
does not fit, it records MALFORMED, or BOUNDS, and changes nothing else (`45_duplex.md` R150). -/
def Obligations.SealIsItsPipeline : Prop :=
  decode 0x00000050 = .ok .sealBuf ∧
  (∀ s : State, s.err = 0 → s.messageFits →
    exec .sealBuf s = execAll [.init, .encloop, .fin, .sttag, .scrub] s ∧
    (s.written 0 (8 * s.len.toNat) → ∃ t, exec .sealBuf s = .next t ∧
      sameOutside 0 (8 * (s.len.toNat + 4)) s t ∧ t.written 0 (8 * (s.len.toNat + 4)) ∧
      t = { s with v := ⟨0, 0, 0, 0⟩, kw := ⟨0, 0⟩, nw := ⟨0, 0⟩, gamma := 0, pos := ⟨0, 0⟩, buf := t.buf })) ∧
  ∀ s : State, s.err = 0 →
    (s.len.toNat < 3 → onlyFaults 1 0x50 s (exec .sealBuf s)) ∧
    (3 ≤ s.len.toNat → s.config.memWords.toNat < s.len.toNat + 4 → onlyFaults 5 0x50 s (exec .sealBuf s))

/-- OPEN: where message and tag fit and hold values, LDTAG, OPREP, UNFIN, DECLOOP, UNINIT complete in a state `u`,
and OPEN completes. With `u`'s V the keyed state and good padding of count `b` in `u`, it leaves `u`'s buffer, the tag
as it was, PADLEN `b` and zero working registers; with another V it records AUTH whatever the padding; with bad padding
it records PAD; after either failure the state is FailClean's. Where LEN is below 3, or the message does not fit, it
records MALFORMED, or BOUNDS, and changes nothing else (`45_duplex.md` R151, R152). -/
def Obligations.OpenVerifiesBeforeItReturns : Prop :=
  decode 0x00000051 = .ok .openBuf ∧
  (∀ s : State, s.err = 0 → s.messageFits → s.written 0 (8 * (s.len.toNat + 4)) → ∃ u,
    execAll [.ldtag, .oprep, .unfin, .decloop, .uninit] s = .next u ∧ sameOutside 0 (8 * s.len.toNat) s u ∧
    (∀ b, u.v = s.keyedSponge → u.paddedBy b → exec .openBuf s = .next
      { s with v := ⟨0, 0, 0, 0⟩, kw := ⟨0, 0⟩, nw := ⟨0, 0⟩, gamma := 0, pos := ⟨0, 0⟩, padlen := b, buf := u.buf }) ∧
    (u.v ≠ s.keyedSponge → openFailed 2 s (exec .openBuf s)) ∧
    (u.v = s.keyedSponge → (∀ b, ¬ u.paddedBy b) → openFailed 3 s (exec .openBuf s))) ∧
  ∀ s : State, s.err = 0 →
    (s.len.toNat < 3 → onlyFaults 1 0x51 s (exec .openBuf s)) ∧
    (3 ≤ s.len.toNat → s.config.memWords.toNat < s.len.toNat + 4 → onlyFaults 5 0x51 s (exec .openBuf s))

/-- Round trip (an inference the spec marks as its own, R153's "SEAL's STTAG then OPEN's LDTAG restore V"): SEAL then
OPEN, with the same key, nonce and LEN, on a message with good padding of count `b`, ends
with ERR 0, the message restored and PADLEN `b`; on a message without good padding it ends with PAD, never with AUTH
(`45_duplex.md` R153). -/
def Obligations.OpenOfSealRestoresTheMessage : Prop :=
  ∀ s : State, s.err = 0 → s.messageFits → s.written 0 (8 * s.len.toNat) →
    (∀ b, s.paddedBy b → ∃ t, execAll [.sealBuf, .openBuf] s = .next t ∧ t.err = 0 ∧ t.padlen = b ∧
      ∀ a < 8 * s.len.toNat, t.buf.read a = s.buf.read a) ∧
    ((∀ b, ¬ s.paddedBy b) → ∃ t, execAll [.sealBuf, .openBuf] s = .next t ∧ t.err = 3)

/-- SEAL is a function of the key, the nonce, LEN and the message bytes, and OPEN of these and the tag bytes,
whatever else the two states hold (`45_duplex.md` R154). -/
def Obligations.SealAndOpenAreDeterministic : Prop :=
  ∀ s s' t t' : State, s.err = 0 → s'.err = 0 → s.k = s'.k → s.n = s'.n → s.len = s'.len → s.config = s'.config →
    ((∀ a < 8 * s.len.toNat, s.buf.read a = s'.buf.read a) → s.messageFits →
      exec .sealBuf s = .next t → exec .sealBuf s' = .next t' →
      ∀ a < 8 * (s.len.toNat + 4), t.buf.read a = t'.buf.read a) ∧
    ((∀ a < 8 * (s.len.toNat + 4), s.buf.read a = s'.buf.read a) → s.messageFits →
      exec .openBuf s = .next t → exec .openBuf s' = .next t' →
      t.err = t'.err ∧ (t.err = 0 → t.padlen = t'.padlen) ∧
      ∀ a < 8 * (s.len.toNat + 4), t.buf.read a = t'.buf.read a)

/-! ### The host codec -/

/-- `Norm16` gives 16 bytes: the first 16 of a long string; a short one, zeros, and in place 15 the count of bytes
added (`47_host_codec.md` R170). -/
def Obligations.NormalisedKeysAreSixteenBytes : Prop :=
  ∀ b : List Byte, (norm16 b).length = 16 ∧
    (∀ i < 16, i < b.length → (norm16 b)[i]? = b[i]?) ∧
    (∀ i < 15, b.length ≤ i → (norm16 b)[i]? = some 0) ∧
    (b.length < 16 → (norm16 b)[15]? = some (BitVec.ofNat 8 (16 - b.length)))

/-- `Pad` gives the message, zeros, and in the last place the count; its length is `roundUp8(max(L + 1, 24))`, the
count is 1 to 24, and stripping that count gives the message back (`47_host_codec.md` R172, R173). What `roundUp8`
means is an inference the spec marks as its own (`00_scope.md` R15's "the source uses the name without defining it"). -/
def Obligations.PaddingIsTheFormulas : Prop :=
  ∀ m : List Byte, (padMessage m).length = paddedLength m.length ∧
    paddedLength m.length % 8 = 0 ∧ max (m.length + 1) 24 ≤ paddedLength m.length ∧
    paddedLength m.length < max (m.length + 1) 24 + 8 ∧
    1 ≤ paddedLength m.length - m.length ∧ paddedLength m.length - m.length ≤ 24 ∧
    (∀ i < m.length, (padMessage m)[i]? = m[i]?) ∧
    (∀ i, m.length ≤ i → i < paddedLength m.length - 1 → (padMessage m)[i]? = some 0) ∧
    (padMessage m)[paddedLength m.length - 1]? = some (BitVec.ofNat 8 (paddedLength m.length - m.length)) ∧
    unpad (padMessage m) (paddedLength m.length - m.length) = m

/-- The document's round trip on byte strings (an inference the spec marks as its own, R175's "`Pad(M)` satisfies the
padding hypothesis of R153"): for every key, nonce and message that fits, `SealBytes` answers a
ciphertext of the padded length plus 32, and `OpenBytes` of it, on any engine of the same configuration and with a
buffer that fits, answers the message (`47_host_codec.md` R174, R175, R177). -/
def Obligations.OpenBytesOfSealBytes : Prop :=
  ∀ (key nonce m : List Byte) (s s' : State), paddedLength m.length / 8 + 4 ≤ s.config.memWords.toNat →
    s'.config = s.config → ∃ (c : List Byte) (t t' : State),
      sealBytes key nonce m s = .next (.bytes c, t) ∧ c.length = paddedLength m.length + 32 ∧
      openBytes key nonce c s' = .next (.bytes m, t')

/-- The length guard of `OpenBytes`: a length that is no multiple of 8, or below 56, is MALFORMED before any engine
access (`47_host_codec.md` R176). -/
def Obligations.OpenBytesGuardsTheLength : Prop :=
  ∀ (key nonce c : List Byte) (s : State), c.length % 8 ≠ 0 ∨ c.length < 56 →
    openBytes key nonce c s = .next (.failure 1, s)

/-! ### Completion of the commands that check nothing -/

/-- The commands other than CLR that touch no buffer byte and check nothing complete in every state in which no fault
is recorded, NOP and SCRUB among them (`46_system.md` R160, R162, `60_exceptions.md` R202, R203; R202's table is an
inference the spec marks as its own: "derived: from the Faults line of every rule"), and leave the master key and
nonce, LEN, PADLEN, ERR, ERRINFO, the buffer and the hardware's parameters as they were (`10_state.md` R22, R23, R27,
R31, R38, R42). That `script` and `observed` stay as well is the model's choice (log entries 3 and 5), and that a count
above 255, which no word decodes to, completes too is the model's choice (log entry 13). -/
def Obligations.UncheckedCommandsComplete : Prop :=
  ∀ (s : State) (count : Nat), s.err = 0 →
    ∀ i ∈ [Instr.nop, .scrub, .permr count, .perml count, .sinit, .nabs, .dsep, .init, .fin, .oprep, .unfin, .uninit],
      ∃ t, exec i s = .next t ∧
        t = { s with v := t.v, kw := t.kw, nw := t.nw, gamma := t.gamma, pos := t.pos }
end

