-- ==== Sys2Proof/Laws/Memory.lean ====
section
/-! SUPPORT. The laws of the message buffer: a read after a write, the canonical form, and the multi-byte
accesses. -/

namespace Sys2Proof.Machine

/-! ### One byte -/

@[simp] theorem Memory.read_nil (a : Nat) : Memory.read [] a = none := rfl

theorem Memory.read_write (m : Memory) (a b : Nat) (x : Byte) :
    (m.write a x).read b = if b = a then some x else m.read b := by
  induction m with
  | nil => by_cases h : a = b <;> simp [Memory.write, Memory.read, Memory.unlisted, h, eq_comm]
  | cons c m ih =>
    obtain ⟨c, y⟩ := c
    by_cases h1 : a < c
    · by_cases h : b = a
      · simp [Memory.write, Memory.read, h1, h]
      · simp [Memory.write, Memory.read, h1, h, Ne.symm h]
    · by_cases h2 : a = c
      · subst h2
        by_cases h : b = a
        · simp [Memory.write, Memory.read, h]
        · simp [Memory.write, Memory.read, h, Ne.symm h]
      · by_cases h : c = b
        · subst h
          simp [Memory.write, Memory.read, h1, h2, Ne.symm h2]
        · simp [Memory.write, Memory.read, h1, h2, h, ih]

@[simp] theorem Memory.read_write_same (m : Memory) (a : Nat) (x : Byte) : (m.write a x).read a = some x := by
  simp [Memory.read_write]

theorem Memory.read_write_other (m : Memory) {a b : Nat} (x : Byte) (h : b ≠ a) :
    (m.write a x).read b = m.read b := by
  simp [Memory.read_write, h]

/-- The addresses listed after a write. -/
theorem Memory.mem_write {m : Memory} {a : Nat} {x : Byte} {c : Host.Cell} (h : c ∈ m.write a x) :
    c = (a, x) ∨ c ∈ m := by
  induction m with
  | nil => simpa [Memory.write] using h
  | cons d m ih =>
    obtain ⟨b, y⟩ := d
    simp only [Memory.write] at h
    split at h
    · simpa using h
    · split at h
      · rcases List.mem_cons.1 h with h | h
        · exact .inl h
        · exact .inr (List.mem_cons_of_mem _ h)
      · rcases List.mem_cons.1 h with h | h
        · exact .inr (h ▸ List.mem_cons_self)
        · rcases ih h with h | h
          · exact .inl h
          · exact .inr (List.mem_cons_of_mem _ h)

theorem Memory.wf_nil : Memory.wf [] := List.Pairwise.nil

/-- A write keeps the canonical form. -/
theorem Memory.wf_write {m : Memory} (h : m.wf) (a : Nat) (x : Byte) : (m.write a x).wf := by
  induction m with
  | nil => simp [Memory.write, Memory.wf]
  | cons c m ih =>
    obtain ⟨b, y⟩ := c
    obtain ⟨h1, h2⟩ := List.pairwise_cons.1 h
    simp only [Memory.write]
    split
    · rename_i hab
      refine List.pairwise_cons.2 ⟨fun d hd => ?_, h⟩
      rcases List.mem_cons.1 hd with rfl | hd
      · exact hab
      · exact Nat.lt_trans hab (h1 d hd)
    · rename_i hab
      split
      · rename_i hab'
        exact List.pairwise_cons.2 ⟨fun d hd => hab' ▸ h1 d hd, h2⟩
      · rename_i hne
        refine List.pairwise_cons.2 ⟨fun d hd => ?_, ih h2⟩
        rcases Memory.mem_write hd with rfl | hd
        · exact Nat.lt_of_le_of_ne (Nat.le_of_not_lt hab) (Ne.symm hne)
        · exact h1 d hd

/-- Below every listed address nothing is listed. -/
theorem Memory.read_eq_none {m : Memory} {a : Nat} (h : ∀ c ∈ m, a < c.1) : m.read a = none := by
  induction m with
  | nil => rfl
  | cons c m ih =>
    obtain ⟨b, y⟩ := c
    have hb : a < b := h (b, y) List.mem_cons_self
    simp only [Memory.read, if_neg (Nat.ne_of_gt hb)]
    exact ih fun d hd => h d (List.mem_cons_of_mem _ hd)

/-- In canonical form, memories that read alike are equal. -/
theorem Memory.ext_read {m m' : Memory} (h : m.wf) (h' : m'.wf) (e : ∀ a, m.read a = m'.read a) : m = m' := by
  induction m generalizing m' with
  | nil =>
    cases m' with
    | nil => rfl
    | cons c m' =>
      have := e c.1
      simp [Memory.read, Memory.unlisted] at this
  | cons c m ih =>
    obtain ⟨b, y⟩ := c
    obtain ⟨h1, h2⟩ := List.pairwise_cons.1 h
    cases m' with
    | nil =>
      have := e b
      simp [Memory.read, Memory.unlisted] at this
    | cons c' m' =>
      obtain ⟨b', y'⟩ := c'
      obtain ⟨h1', h2'⟩ := List.pairwise_cons.1 h'
      have hbb : b = b' := by
        rcases Nat.lt_trichotomy b b' with hlt | heq | hgt
        · have hn : Memory.read ((b', y') :: m') b = none :=
            Memory.read_eq_none fun d hd => by
              rcases List.mem_cons.1 hd with rfl | hd
              · exact hlt
              · exact Nat.lt_trans hlt (h1' d hd)
          have := e b
          rw [hn] at this
          simp [Memory.read] at this
        · exact heq
        · have hn : Memory.read ((b, y) :: m) b' = none :=
            Memory.read_eq_none fun d hd => by
              rcases List.mem_cons.1 hd with rfl | hd
              · exact hgt
              · exact Nat.lt_trans hgt (h1 d hd)
          have := e b'
          rw [hn] at this
          simp [Memory.read] at this
      subst hbb
      have hy : y = y' := by
        have := e b
        simpa [Memory.read] using this
      subst hy
      congr 1
      refine ih h2 h2' fun a => ?_
      by_cases hba : b = a
      · subst hba
        rw [Memory.read_eq_none h1, Memory.read_eq_none h1']
      · have := e a
        simpa [Memory.read, hba] using this

/-! ### Several bytes -/

theorem Memory.wf_writeLE {m : Memory} (h : m.wf) (n a : Nat) (v : Word) : (m.writeLE n a v).wf := by
  induction n generalizing m a v with
  | zero => exact h
  | succ n ih => exact ih (Memory.wf_write h a _) (a + 1) (v >>> 8)

theorem Memory.mem_writeLE {m : Memory} {n a : Nat} {v : Word} {c : Host.Cell} (h : c ∈ m.writeLE n a v) :
    (a ≤ c.1 ∧ c.1 < a + n) ∨ c ∈ m := by
  induction n generalizing m a v with
  | zero => exact .inr h
  | succ n ih =>
    rcases ih h with h | h
    · exact .inl ⟨by omega, by omega⟩
    · rcases Memory.mem_write h with rfl | h
      · exact .inl ⟨Nat.le_refl _, by simp⟩
      · exact .inr h

theorem Memory.read_writeLE_other (m : Memory) (n a : Nat) (v : Word) {b : Nat} (h : b < a ∨ a + n ≤ b) :
    (m.writeLE n a v).read b = m.read b := by
  induction n generalizing m a v with
  | zero => rfl
  | succ n ih =>
    rw [Memory.writeLE, ih (m.write a _) (a + 1) (v >>> 8) (by omega),
      Memory.read_write_other _ _ (by omega)]

/-- Byte `k` of a little-endian write (`20_memory.md` R61). -/
theorem Memory.read_writeLE (m : Memory) (n a : Nat) (v : Word) {k : Nat} (h : k < n) :
    (m.writeLE n a v).read (a + k) = some (v.extractLsb' (8 * k) 8) := by
  induction n generalizing m a v k with
  | zero => omega
  | succ n ih =>
    cases k with
    | zero =>
      rw [Memory.writeLE, Memory.read_writeLE_other _ _ _ _ (by omega), Nat.add_zero, Memory.read_write_same]
      rfl
    | succ k =>
      have := ih (m.write a (v.setWidth 8)) (a + 1) (v >>> 8) (k := k) (by omega)
      rw [Memory.writeLE, show a + (k + 1) = a + 1 + k by omega, this]
      congr 1
      ext i hi
      simp [show 8 + (8 * k + i) = 8 * (k + 1) + i by omega]

/-- A read of `n` bytes yields `w` exactly where each byte is the byte of `w` of its place (`20_memory.md` R61). -/
theorem Memory.readLE_eq_some {m : Memory} {n a : Nat} {w : Word} (hn : n ≤ 8) :
    m.readLE n a = some w ↔
      (∀ k < n, m.read (a + k) = some (w.extractLsb' (8 * k) 8)) ∧ w >>> (8 * n) = 0 := by
  induction n generalizing a w with
  | zero =>
    constructor
    · rintro h
      simp only [Memory.readLE, Option.some.injEq] at h
      simp [← h]
    · rintro ⟨-, h⟩
      simpa [Memory.readLE] using h.symm
  | succ n ih =>
    simp only [Memory.readLE, Option.bind_eq_some_iff, Option.map_eq_some_iff]
    constructor
    · rintro ⟨b, hb, r, hr, rfl⟩
      obtain ⟨h1, h2⟩ := (ih (by omega)).1 hr
      constructor
      · intro k hk
        cases k with
        | zero =>
          rw [Nat.add_zero, hb]
          congr 1
          ext i hi
          simp [hi]
          omega
        | succ k =>
          rw [show a + (k + 1) = a + 1 + k by omega, h1 k (by omega)]
          congr 1
          ext i hi
          have hi64 : 8 * (k + 1) + i < 64 := by omega
          have hb : b.getLsbD (8 * (k + 1) + i) = false := BitVec.getLsbD_of_ge _ _ (by omega)
          simp [hb, hi64, show ¬ (8 * (k + 1) + i < 8) by omega,
            show 8 * (k + 1) + i - 8 = 8 * k + i by omega,
            BitVec.getLsbD_eq_getElem (show 8 * k + i < 64 by omega)]
      · ext i hi
        have hz : (r >>> (8 * n)).getLsbD i = false := by simp [h2]
        simp only [BitVec.getLsbD_ushiftRight] at hz
        have hb' : b.getLsbD (8 * (n + 1) + i) = false := BitVec.getLsbD_of_ge _ _ (by omega)
        simp [BitVec.getElem_ushiftRight, hb', show ¬ (8 * (n + 1) + i < 8) by omega,
          show 8 * (n + 1) + i - 8 = 8 * n + i by omega, hz]
    · rintro ⟨h1, h2⟩
      refine ⟨w.extractLsb' 0 8, by simpa using h1 0 (by omega), w >>> 8, (ih (by omega)).2 ⟨fun k hk => ?_, ?_⟩, ?_⟩
      · rw [show a + 1 + k = a + (k + 1) by omega, h1 (k + 1) (by omega)]
        congr 1
        ext i hi
        simp [show 8 + (8 * k + i) = 8 * (k + 1) + i by omega]
      · rw [← BitVec.shiftRight_add, show 8 + 8 * n = 8 * (n + 1) by omega, h2]
      · ext i hi
        by_cases h8 : i < 8
        · simp [h8, BitVec.getLsbD_eq_getElem hi]
        · simp [h8, show 8 + (i - 8) = i by omega, BitVec.getLsbD_eq_getElem hi]

/-- Eight bytes hold a value exactly where each of them does. -/
theorem Memory.readLE_isSome {m : Memory} {n a : Nat} :
    (m.readLE n a).isSome ↔ ∀ i < n, (m.read (a + i)).isSome := by
  induction n generalizing a with
  | zero => simp [Memory.readLE]
  | succ n ih =>
    simp only [Memory.readLE]
    cases h : m.read a with
    | none => simp; exact ⟨0, by omega, by simp [h]⟩
    | some b =>
      simp only [Option.bind_some, Option.isSome_map, ih]
      constructor
      · intro hh i hi
        cases i with
        | zero => simp [h]
        | succ i => rw [show a + (i + 1) = a + 1 + i by omega]; exact hh i (by omega)
      · intro hh i hi
        rw [show a + 1 + i = a + (i + 1) by omega]
        exact hh (i + 1) (by omega)

/-- A read depends on the bytes it reads only. -/
theorem Memory.readLE_congr {m m' : Memory} {n a : Nat} (h : ∀ i < n, m'.read (a + i) = m.read (a + i)) :
    m'.readLE n a = m.readLE n a := by
  induction n generalizing a with
  | zero => rfl
  | succ n ih =>
    rw [Memory.readLE, Memory.readLE, show m'.read a = m.read a from h 0 (by omega),
      ih fun i hi => by rw [show a + 1 + i = a + (i + 1) by omega]; exact h (i + 1) (by omega)]

/-- A word read after it was written. -/
theorem Memory.readLE_writeLE_same (m : Memory) (a : Nat) (v : Word) : (m.writeLE 8 a v).readLE 8 a = some v :=
  (Memory.readLE_eq_some (Nat.le_refl 8)).2
    ⟨fun _ hk => Memory.read_writeLE m 8 a v hk, by ext i hi; simp [BitVec.getLsbD_of_ge]⟩

/-- A word read elsewhere. -/
theorem Memory.readLE_writeLE_other (m : Memory) {a b n : Nat} (v : Word) (h : b + n ≤ a ∨ a + 8 ≤ b) :
    (m.writeLE 8 a v).readLE n b = m.readLE n b :=
  Memory.readLE_congr fun i hi => Memory.read_writeLE_other m 8 a v (by omega)

/-- Writing back the word that was read changes no byte. -/
theorem Memory.read_writeLE_back {m : Memory} {a : Nat} {w : Word} (h : m.readLE 8 a = some w) (b : Nat) :
    (m.writeLE 8 a w).read b = m.read b := by
  by_cases hb : a ≤ b ∧ b < a + 8
  · obtain ⟨k, rfl⟩ := Nat.exists_eq_add_of_le hb.1
    rw [Memory.read_writeLE m 8 a w (by omega), ((Memory.readLE_eq_some (Nat.le_refl 8)).1 h).1 k (by omega)]
  · exact Memory.read_writeLE_other m 8 a w (by omega)

/-! ### Zeroing -/

theorem Memory.wf_zeroise {m : Memory} (h : m.wf) (n : Nat) : (m.zeroise n).wf := by
  induction n with
  | zero => exact h
  | succ n ih => exact Memory.wf_write ih n 0

theorem Memory.mem_zeroise {m : Memory} {n : Nat} {c : Host.Cell} (h : c ∈ m.zeroise n) : c.1 < n ∨ c ∈ m := by
  induction n with
  | zero => exact .inr h
  | succ n ih =>
    rcases Memory.mem_write h with rfl | h
    · exact .inl (by simp)
    · rcases ih h with h | h
      · exact .inl (by omega)
      · exact .inr h

theorem Memory.read_zeroise (m : Memory) (n a : Nat) :
    (m.zeroise n).read a = if a < n then some 0 else m.read a := by
  induction n with
  | zero => rfl
  | succ n ih =>
    rw [Memory.zeroise, Memory.read_write, ih]
    by_cases h1 : a = n
    · simp [h1]
    · by_cases h2 : a < n
      · simp [h1, h2, Nat.lt_succ_of_lt h2]
      · simp [h1, h2, show ¬ a < n + 1 by omega]

end Sys2Proof.Machine
end

