-- ==== Sys2Proof/Laws/Ops.lean ====
section
/-! SUPPORT. What the shared operations can do: one lemma per operation and outcome, cited instead of unfolding
the operation. -/

namespace Sys2Proof.Machine

/-! ### Sequencing -/

@[simp] theorem andThen_next {α β : Type} (x : α) (f : α → Result β) : andThen (.next x) f = f x := rfl
@[simp] theorem andThen_fault {α β : Type} (e : Fault) (f : α → Result β) : andThen (.fault e) f = .fault e := rfl
@[simp] theorem andThen_refused {α β : Type} (e : Refusal) (f : α → Result β) :
    andThen (.refused e) f = .refused e := rfl

theorem andThen_eq_next {α β : Type} {r : Result α} {f : α → Result β} {y : β} :
    andThen r f = .next y ↔ ∃ x, r = .next x ∧ f x = .next y := by
  cases r <;> simp [andThen]

theorem andThen_eq_fault {α β : Type} {r : Result α} {f : α → Result β} {e : Fault} :
    andThen r f = .fault e ↔ r = .fault e ∨ ∃ x, r = .next x ∧ f x = .fault e := by
  cases r <;> simp [andThen]

theorem andThen_eq_refused {α β : Type} {r : Result α} {f : α → Result β} {e : Refusal} :
    andThen r f = .refused e ↔ r = .refused e ∨ ∃ x, r = .next x ∧ f x = .refused e := by
  cases r <;> simp [andThen]

theorem andThen_assoc {α β γ : Type} (r : Result α) (f : α → Result β) (g : β → Result γ) :
    andThen (andThen r f) g = andThen r fun x => andThen (f x) g := by
  cases r <;> rfl

/-! ### The buffer primitives -/

theorem readMem_eq_next {n a : Nat} {s : State} {w : Word} :
    readMem n s a = .next w ↔ s.inBuffer a n = true ∧ s.buf.readLE n a = some w := by
  unfold readMem
  cases s.inBuffer a n <;> cases s.buf.readLE n a <;> simp

theorem readMem_eq_fault {n a : Nat} {s : State} {e : Fault} :
    readMem n s a = .fault e ↔ s.inBuffer a n = false ∧ e = .outsideBuffer := by
  unfold readMem
  cases s.inBuffer a n <;> cases s.buf.readLE n a <;> simp

theorem readMem_eq_refused {n a : Nat} {s : State} {e : Refusal} :
    readMem n s a = .refused e ↔ s.inBuffer a n = true ∧ s.buf.readLE n a = none ∧ e = .unwrittenByte := by
  unfold readMem
  cases s.inBuffer a n <;> cases s.buf.readLE n a <;> simp [eq_comm (a := e)]

theorem writeMem_eq_next {n a : Nat} {s t : State} {v : Word} :
    writeMem n s a v = .next t ↔ s.inBuffer a n = true ∧ t = { s with buf := s.buf.writeLE n a v } := by
  unfold writeMem
  cases s.inBuffer a n <;> simp [eq_comm (a := t)]

theorem writeMem_eq_fault {n a : Nat} {s : State} {v : Word} {e : Fault} :
    writeMem n s a v = .fault e ↔ s.inBuffer a n = false ∧ e = .outsideBuffer := by
  unfold writeMem
  cases s.inBuffer a n <;> simp

theorem writeMem_ne_refused {n a : Nat} {s : State} {v : Word} {e : Refusal} :
    writeMem n s a v ≠ .refused e := by
  unfold writeMem
  split <;> simp

theorem readWord_eq_next {a : Nat} {s : State} {w : Word} :
    readWord s a = .next w ↔ s.inBuffer a 8 = true ∧ s.buf.readLE 8 a = some w := readMem_eq_next

theorem writeWord_eq_next {a : Nat} {s t : State} {v : Word} :
    writeWord s a v = .next t ↔ s.inBuffer a 8 = true ∧ t = { s with buf := s.buf.writeLE 8 a v } :=
  writeMem_eq_next

theorem Memory.readLE_one (m : Memory) (a : Nat) : m.readLE 1 a = (m.read a).map fun b => b.setWidth 64 := by
  simp only [Memory.readLE]
  cases m.read a <;> simp

theorem readByte_eq_next {a : Nat} {s : State} {b : Byte} :
    readByte s a = .next b ↔ s.inBuffer a 1 = true ∧ s.buf.read a = some b := by
  simp only [readByte, andThen_eq_next, readMem_eq_next, Memory.readLE_one]
  cases h : s.buf.read a <;> simp

theorem readByte_eq_fault {a : Nat} {s : State} {e : Fault} :
    readByte s a = .fault e ↔ s.inBuffer a 1 = false ∧ e = .outsideBuffer := by
  simp [readByte, andThen_eq_fault, readMem_eq_fault]

theorem readByte_eq_refused {a : Nat} {s : State} {e : Refusal} :
    readByte s a = .refused e ↔ s.inBuffer a 1 = true ∧ s.buf.read a = none ∧ e = .unwrittenByte := by
  simp [readByte, andThen_eq_refused, readMem_eq_refused, Memory.readLE_one]

theorem readBytes_eq_next {n a : Nat} {s : State} {l : List Byte} :
    readBytes s n a = .next l ↔
      l.length = n ∧ ∀ i (h : i < l.length), s.inBuffer (a + i) 1 = true ∧ s.buf.read (a + i) = some l[i] := by
  induction n generalizing a l with
  | zero =>
    cases l <;> simp [readBytes]
  | succ n ih =>
    cases l with
    | nil => simp [readBytes, andThen_eq_next]
    | cons b l =>
      simp only [readBytes, andThen_eq_next, readByte_eq_next, ih, List.length_cons, Nat.add_right_cancel_iff]
      constructor
      · rintro ⟨x, hx, y, ⟨hy1, hy2⟩, h⟩
        simp only [Host.Outcome.next.injEq, List.cons.injEq] at h
        obtain ⟨rfl, rfl⟩ := h
        refine ⟨hy1, fun i hi => ?_⟩
        cases i with
        | zero => simpa using hx
        | succ i => simpa [show a + (i + 1) = a + 1 + i by omega] using hy2 i (by simpa using hi)
      · rintro ⟨h1, h2⟩
        refine ⟨b, by simpa using h2 0 (by simp), l, ⟨h1, fun i hi => ?_⟩, rfl⟩
        have := h2 (i + 1) (by simpa using hi)
        rwa [show a + (i + 1) = a + 1 + i by omega, List.getElem_cons_succ] at this

theorem zeroBytes_eq_next {n : Nat} {s t : State} :
    zeroBytes s n = .next t ↔ s.inBuffer 0 n = true ∧ t = { s with buf := s.buf.zeroise n } := by
  unfold zeroBytes
  cases s.inBuffer 0 n <;> simp [eq_comm (a := t)]

theorem zeroBytes_eq_fault {n : Nat} {s : State} {e : Fault} :
    zeroBytes s n = .fault e ↔ s.inBuffer 0 n = false ∧ e = .outsideBuffer := by
  unfold zeroBytes
  cases s.inBuffer 0 n <;> simp

theorem zeroBytes_ne_refused {n : Nat} {s : State} {e : Refusal} : zeroBytes s n ≠ .refused e := by
  unfold zeroBytes
  split <;> simp

/-! ### Acceptance and the checks before a command's operation -/

theorem accept_of_err_zero {s : State} (h : s.err = 0) (f : State → Result State) : accept s f = f s := by
  simp [accept, State.faulted, h]

theorem accept_of_err_ne_zero {s : State} (h : s.err ≠ 0) (f : State → Result State) : accept s f = .next s :=
  if_pos (decide_eq_true h)

/-- An accepted or ignored command: either a fault is recorded and nothing changes, or the operation runs. -/
theorem accept_eq {s : State} {f : State → Result State} {o : Result State} :
    accept s f = o ↔ (s.err ≠ 0 ∧ .next s = o) ∨ (s.err = 0 ∧ f s = o) := by
  by_cases h : s.err = 0
  · rw [accept_of_err_zero h]
    tauto
  · rw [accept_of_err_ne_zero h]
    tauto

theorem requireBuf_eq {i : Instr} {s : State} {f : State → Result State} {o : Result State} :
    requireBuf i s f = o ↔ (s.bufOK = true ∧ f s = o) ∨ (s.bufOK = false ∧ raise .bounds i s = o) := by
  unfold requireBuf
  split <;> simp_all

theorem requireStep_eq {i : Instr} {ok : Bool} {s : State} {f : State → Result State} {o : Result State} :
    requireStep i ok s f = o ↔
      ((s.bufOK = true ∧ s.pos.valid s.len = true ∧ ok = true) ∧ f s = o) ∨
      (¬ (s.bufOK = true ∧ s.pos.valid s.len = true ∧ ok = true) ∧ raise .bounds i s = o) := by
  simp only [requireStep, requireBuf]
  cases s.bufOK <;> cases s.pos.valid s.len <;> cases ok <;> simp

theorem requireMessage_eq {i : Instr} {s : State} {f : State → Result State} {o : Result State} :
    requireMessage i s f = o ↔
      (s.len.toNat < 3 ∧ raise .malformed i s = o) ∨
      (¬ s.len.toNat < 3 ∧ s.fits = true ∧ f s = o) ∨
      (¬ s.len.toNat < 3 ∧ s.fits = false ∧ raise .bounds i s = o) := by
  unfold requireMessage
  split
  · simp_all
  · split <;> simp_all

/-! ### The loop -/

theorem loopWhile_of_done {more : State → Bool} {body : State → Result State} {s : State} (h : more s = false)
    (n : Nat) : loopWhile more body n s = .next s := by
  cases n <;> simp [loopWhile, h]

theorem loopWhile_of_more {more : State → Bool} {body : State → Result State} {s : State} (h : more s = true)
    (n : Nat) : loopWhile more body (n + 1) s = andThen (body s) (loopWhile more body n) := by
  simp [loopWhile, h]

/-- What every turn keeps, the loop keeps. -/
theorem loopWhile_keeps {more : State → Bool} {body : State → Result State} {P : State → Prop}
    (hbody : ∀ s t, P s → more s = true → body s = .next t → P t) {n : Nat} {s t : State} (hs : P s)
    (h : loopWhile more body n s = .next t) : P t := by
  induction n generalizing s with
  | zero =>
    cases h
    exact hs
  | succ n ih =>
    cases hm : more s with
    | false =>
      rw [loopWhile_of_done hm] at h
      cases h
      exact hs
    | true =>
      rw [loopWhile_of_more hm, andThen_eq_next] at h
      obtain ⟨u, hu, h⟩ := h
      exact ih (hbody s u hs hm hu) h

/-- A loop whose turns never stop, from states it keeps, never stops. -/
theorem loopWhile_isNext {more : State → Bool} {body : State → Result State} {P : State → Prop}
    (hbody : ∀ s, P s → more s = true → ∃ t, body s = .next t ∧ P t) {n : Nat} {s : State} (hs : P s) :
    ∃ t, loopWhile more body n s = .next t ∧ P t := by
  induction n generalizing s with
  | zero => exact ⟨s, rfl, hs⟩
  | succ n ih =>
    cases hm : more s with
    | false => exact ⟨s, loopWhile_of_done hm _, hs⟩
    | true =>
      obtain ⟨u, hu, hpu⟩ := hbody s hs hm
      obtain ⟨t, ht, hpt⟩ := ih hpu
      exact ⟨t, by rw [loopWhile_of_more hm, hu, andThen_next, ht], hpt⟩

/-- A stop of the loop is the stop of a turn at a state the loop reached. -/
theorem loopWhile_fault {more : State → Bool} {body : State → Result State} {P : State → Prop}
    (hbody : ∀ s t, P s → more s = true → body s = .next t → P t) {n : Nat} {s : State} {e : Fault} (hs : P s)
    (h : loopWhile more body n s = .fault e) : ∃ u, P u ∧ more u = true ∧ body u = .fault e := by
  induction n generalizing s with
  | zero => cases h
  | succ n ih =>
    cases hm : more s with
    | false =>
      rw [loopWhile_of_done hm] at h
      cases h
    | true =>
      rw [loopWhile_of_more hm, andThen_eq_fault] at h
      rcases h with h | ⟨u, hu, h⟩
      · exact ⟨s, hs, hm, h⟩
      · exact ih (hbody s u hs hm hu) h

/-- The same for a refusal. -/
theorem loopWhile_refused {more : State → Bool} {body : State → Result State} {P : State → Prop}
    (hbody : ∀ s t, P s → more s = true → body s = .next t → P t) {n : Nat} {s : State} {e : Refusal} (hs : P s)
    (h : loopWhile more body n s = .refused e) : ∃ u, P u ∧ more u = true ∧ body u = .refused e := by
  induction n generalizing s with
  | zero => cases h
  | succ n ih =>
    cases hm : more s with
    | false =>
      rw [loopWhile_of_done hm] at h
      cases h
    | true =>
      rw [loopWhile_of_more hm, andThen_eq_refused] at h
      rcases h with h | ⟨u, hu, h⟩
      · exact ⟨s, hs, hm, h⟩
      · exact ih (hbody s u hs hm hu) h

end Sys2Proof.Machine
end

