-- ==== Sys2Proof/Laws/Commands.lean ====
section
/-! SUPPORT. What a command does behind the acceptance rule, and what the steps the commands share can do: one
lemma per step and outcome, cited instead of unfolding it. -/

namespace Sys2Proof.Machine

/-! ### Acceptance -/

/-- What an accepted command does: its meaning without the acceptance rule. -/
def operation : Instr → State → Result State
  | .nop => .next
  | .clr => fun s => .next s.cleared
  | .scrub => fun s => .next s.scrubbed
  | .permr count => fun s => .next { s with v := rounds permR count s.v }
  | .perml count => fun s => .next { s with v := rounds permL count s.v }
  | .sinit => fun s => .next (sinitBody s)
  | .nabs => fun s => .next (nabsBody s)
  | .dsep => fun s => .next (dsepBody s)
  | .init => fun s => .next (initBody s)
  | .encw => fun s => requireStep .encw s.unfinished s encStep
  | .encloop => fun s => requireStep .encloop true s encLoop
  | .decw => fun s => requireStep .decw s.started s decStep
  | .decloop => fun s => requireStep .decloop true s decLoop
  | .fin => fun s => .next (finBody s)
  | .sttag => fun s => requireBuf .sttag s storeTag
  | .ldtag => fun s => requireBuf .ldtag s loadTag
  | .oprep => fun s => .next (oprepBody s)
  | .unfin => fun s => .next (unfinBody s)
  | .uninit => fun s => .next (uninitBody s)
  | .authchk => fun s => if s.authentic then .next s else raise .auth .authchk s
  | .padchk => fun s => requireBuf .padchk s fun s =>
      andThen (padTest s) fun r =>
        match r with
        | some padlen => .next { s with padlen := padlen }
        | none => raise .pad .padchk { s with padlen := 0 }
  | .sealBuf => fun s => requireMessage .sealBuf s fun s =>
      andThen (encLoop (initBody s)) fun s => andThen (storeTag (finBody s)) fun s => .next s.scrubbed
  | .openBuf => fun s => requireMessage .openBuf s fun s => andThen (openRecover s) openVerify

/-- Every command but CLR is its operation behind the acceptance rule. -/
theorem exec_eq_accept {i : Instr} (hi : i ≠ .clr) (s : State) : exec i s = accept s (operation i) := by
  cases i with
  | clr => exact absurd rfl hi
  | _ => rfl

/-- With no fault recorded a command is its operation. -/
theorem exec_of_err_zero (i : Instr) {s : State} (h : s.err = 0) : exec i s = operation i s := by
  by_cases hi : i = .clr
  · subst hi
    rfl
  · rw [exec_eq_accept hi, accept_of_err_zero h]

/-- While a fault is recorded every command but CLR is ignored. -/
theorem exec_of_faulted {i : Instr} (hi : i ≠ .clr) {s : State} (h : s.err ≠ 0) : exec i s = .next s := by
  rw [exec_eq_accept hi, accept_of_err_ne_zero h]

/-- The bytes are in the buffer. -/
theorem inBuffer_iff {s : State} {a n : Nat} : s.inBuffer a n = true ↔ a + n ≤ s.bufBytes := decide_eq_true_iff

/-! ### Rounds -/

/-- The rounds are the iterates of the round function. -/
theorem rounds_eq_iterate (f : Sponge → Sponge) (n : Nat) (v : Sponge) : rounds f n v = f^[n] v := by
  induction n generalizing v with
  | zero => rfl
  | succ n ih => exact ih (f v)

/-! ### Word steps -/

/-- Everything a forward word step can do when it completes. -/
theorem encStep_eq_next {s t : State} :
    encStep s = .next t ↔ ∃ p, s.inBuffer s.currentAddr 8 = true ∧ s.buf.readLE 8 s.currentAddr = some p ∧
      t = { s.advance with
        v := forwardSponge s.kw s.nw s.gamma p s.v
        buf := s.buf.writeLE 8 s.currentAddr (p + (forwardSponge s.kw s.nw s.gamma p s.v).v3) } := by
  simp only [encStep, andThen_eq_next, readWord_eq_next, writeWord_eq_next]
  constructor
  · rintro ⟨p, ⟨hin, hp⟩, u, ⟨-, rfl⟩, h⟩
    cases h
    exact ⟨p, hin, hp, rfl⟩
  · rintro ⟨p, hin, hp, rfl⟩
    exact ⟨p, ⟨hin, hp⟩, _, ⟨hin, rfl⟩, rfl⟩

/-- Everything an inverse word step can do when it completes. -/
theorem decStep_eq_next {s t : State} :
    decStep s = .next t ↔ ∃ c, s.inBuffer s.retreat.currentAddr 8 = true ∧
      s.buf.readLE 8 s.retreat.currentAddr = some c ∧
      t = { s.retreat with
        v := inverseSponge s.retreat.kw s.retreat.nw s.retreat.gamma (c - s.v.v3) s.v
        buf := s.buf.writeLE 8 s.retreat.currentAddr (c - s.v.v3) } := by
  simp only [decStep, andThen_eq_next, readWord_eq_next, writeWord_eq_next]
  constructor
  · rintro ⟨c, ⟨hin, hc⟩, u, ⟨-, rfl⟩, h⟩
    cases h
    exact ⟨c, hin, hc, rfl⟩
  · rintro ⟨c, hin, hc, rfl⟩
    exact ⟨c, ⟨hin, hc⟩, _, ⟨hin, rfl⟩, rfl⟩

/-! ### The tag -/

/-- The buffer with the tag words written. -/
@[irreducible] def Memory.writeTag (m : Memory) (len : Nat) (v : Sponge) : Memory :=
  (((m.writeLE 8 (wordAddr (len + 0)) v.v0).writeLE 8 (wordAddr (len + 1)) v.v1).writeLE 8
    (wordAddr (len + 2)) v.v2).writeLE 8 (wordAddr (len + 3)) v.v3

theorem Memory.readLE_writeTag (m : Memory) (len : Nat) (v : Sponge) :
    (m.writeTag len v).readLE 8 (8 * (len + 0)) = some v.v0 ∧
    (m.writeTag len v).readLE 8 (8 * (len + 1)) = some v.v1 ∧
    (m.writeTag len v).readLE 8 (8 * (len + 2)) = some v.v2 ∧
    (m.writeTag len v).readLE 8 (8 * (len + 3)) = some v.v3 := by
  have other : ∀ (m : Memory) (i j : Nat) (w : Word), i < j →
      (m.writeLE 8 (8 * j) w).readLE 8 (8 * i) = m.readLE 8 (8 * i) := fun m i j w hij =>
    Memory.readLE_writeLE_other m w (.inl (by omega))
  unfold Memory.writeTag wordAddr
  refine ⟨?_, ?_, ?_, Memory.readLE_writeLE_same _ _ _⟩
  · rw [other _ _ _ _ (by omega), other _ _ _ _ (by omega), other _ _ _ _ (by omega), Memory.readLE_writeLE_same]
  · rw [other _ _ _ _ (by omega), other _ _ _ _ (by omega), Memory.readLE_writeLE_same]
  · rw [other _ _ _ _ (by omega), Memory.readLE_writeLE_same]

/-- Storing the tag changes no byte outside the tag region. -/
theorem Memory.read_writeTag_other (m : Memory) (len : Nat) (v : Sponge) {a : Nat}
    (h : a < 8 * len ∨ 8 * (len + 4) ≤ a) : (m.writeTag len v).read a = m.read a := by
  unfold Memory.writeTag wordAddr
  rw [Memory.read_writeLE_other _ _ _ _ (by omega), Memory.read_writeLE_other _ _ _ _ (by omega),
    Memory.read_writeLE_other _ _ _ _ (by omega), Memory.read_writeLE_other _ _ _ _ (by omega)]

theorem Memory.wf_writeTag {m : Memory} (h : m.wf) (len : Nat) (v : Sponge) : (m.writeTag len v).wf := by
  unfold Memory.writeTag
  exact Memory.wf_writeLE (Memory.wf_writeLE (Memory.wf_writeLE (Memory.wf_writeLE h _ _ _) _ _ _) _ _ _) _ _ _

theorem tagAddr_setBuf (s : State) (m : Memory) (j : Nat) : ({ s with buf := m } : State).tagAddr j = s.tagAddr j := rfl

/-- Storing the tag completes exactly where all four words fit the buffer. -/
theorem storeTag_eq_next {s t : State} :
    storeTag s = .next t ↔ s.sealedBytes ≤ s.bufBytes ∧ t = { s with buf := s.buf.writeTag s.len.toNat s.v } := by
  unfold storeTag
  by_cases h : s.sealedBytes ≤ s.bufBytes
  · have hin : ∀ j < 4, s.inBuffer (s.tagAddr j) 8 = true := fun j hj =>
      inBuffer_iff.2 (by unfold State.tagAddr wordAddr; unfold State.sealedBytes at h; omega)
    have hw : ∀ (m : Memory) (a : Nat) (v : Word), s.inBuffer a 8 = true →
        writeWord { s with buf := m } a v = .next { s with buf := m.writeLE 8 a v } := fun m a v hb =>
      writeWord_eq_next.2 ⟨hb, rfl⟩
    rw [writeWord_eq_next.2 ⟨hin 0 (by decide), rfl⟩, andThen_next]
    simp only [tagAddr_setBuf]
    rw [hw _ _ _ (hin 1 (by decide)), andThen_next]
    simp only [tagAddr_setBuf]
    rw [hw _ _ _ (hin 2 (by decide)), andThen_next]
    simp only [tagAddr_setBuf]
    rw [hw _ _ _ (hin 3 (by decide))]
    simp only [Host.Outcome.next.injEq, h, true_and, eq_comm (a := t)]
    unfold Memory.writeTag
    rfl
  · refine ⟨fun hs => ?_, fun hs => absurd hs.1 h⟩
    simp only [andThen_eq_next, writeWord_eq_next] at hs
    obtain ⟨_, ⟨-, rfl⟩, _, ⟨-, rfl⟩, _, ⟨-, rfl⟩, h3, -⟩ := hs
    rw [inBuffer_iff] at h3
    unfold State.tagAddr wordAddr State.bufBytes at h3
    unfold State.sealedBytes State.bufBytes at h
    dsimp only at h3
    omega

/-- Everything loading the tag can do when it completes. -/
theorem loadTag_eq_next {s t : State} :
    loadTag s = .next t ↔ s.sealedBytes ≤ s.bufBytes ∧ ∃ v : Sponge, t = { s with v := v } ∧
      s.buf.readLE 8 (8 * (s.len.toNat + 0)) = some v.v0 ∧ s.buf.readLE 8 (8 * (s.len.toNat + 1)) = some v.v1 ∧
      s.buf.readLE 8 (8 * (s.len.toNat + 2)) = some v.v2 ∧ s.buf.readLE 8 (8 * (s.len.toNat + 3)) = some v.v3 := by
  unfold loadTag State.tagAddr wordAddr State.sealedBytes
  simp only [andThen_eq_next, readWord_eq_next, inBuffer_iff]
  constructor
  · rintro ⟨v0, ⟨-, h0⟩, v1, ⟨-, h1⟩, v2, ⟨-, h2⟩, v3, ⟨h, h3⟩, ht⟩
    cases ht
    exact ⟨by omega, ⟨v0, v1, v2, v3⟩, rfl, h0, h1, h2, h3⟩
  · rintro ⟨h, v, rfl, h0, h1, h2, h3⟩
    exact ⟨v.v0, ⟨by omega, h0⟩, v.v1, ⟨by omega, h1⟩, v.v2, ⟨by omega, h2⟩, v.v3, ⟨by omega, h3⟩, rfl⟩

end Sys2Proof.Machine
end

