-- ==== Sys2Proof/Laws/Checks.lean ====
section
/-! SUPPORT. What the padding test can do: the OR of a run of bytes, and the test against `State.paddedBy`. -/

namespace Sys2Proof.Machine

/-- The OR of bytes that hold values and lie in the buffer is 0 exactly where all of them are 0. -/
theorem orBytes_eq_next {n a : Nat} {s : State} {acc : Byte} (h : orBytes s n a = .next acc) :
    (∀ i < n, s.inBuffer (a + i) 1 = true ∧ (s.buf.read (a + i)).isSome) ∧
      (acc = 0 ↔ ∀ i < n, s.buf.read (a + i) = some 0) := by
  induction n generalizing a acc with
  | zero =>
    cases h
    exact ⟨fun i hi => absurd hi (Nat.not_lt_zero i), ⟨fun _ i hi => absurd hi (Nat.not_lt_zero i), fun _ => rfl⟩⟩
  | succ n ih =>
    simp only [orBytes, andThen_eq_next, readByte_eq_next] at h
    obtain ⟨b, ⟨hin, hb⟩, r, hr, h⟩ := h
    cases h
    obtain ⟨h1, h2⟩ := ih hr
    have shift : ∀ i, a + 1 + i = a + (i + 1) := fun i => by omega
    refine ⟨fun i hi => ?_, ?_⟩
    · cases i with
      | zero => exact ⟨hin, by rw [Nat.add_zero, hb]; rfl⟩
      | succ i =>
        rw [← shift]
        exact h1 i (by omega)
    · rw [show (b ||| r = 0 ↔ b = 0 ∧ r = 0) from BitVec.or_eq_zero_iff, h2]
      constructor
      · rintro ⟨rfl, h0⟩ i hi
        cases i with
        | zero => exact hb
        | succ i =>
          rw [← shift]
          exact h0 i (by omega)
      · intro h0
        refine ⟨?_, fun i hi => ?_⟩
        · have := h0 0 (by omega)
          rw [Nat.add_zero, hb] at this
          exact Option.some.inj this
        · rw [shift]
          exact h0 (i + 1) (by omega)

/-- The OR completes over bytes that hold values and lie in the buffer. -/
theorem orBytes_isNext {n a : Nat} {s : State}
    (h : ∀ i < n, s.inBuffer (a + i) 1 = true ∧ (s.buf.read (a + i)).isSome) :
    ∃ acc, orBytes s n a = .next acc := by
  induction n generalizing a with
  | zero => exact ⟨0, rfl⟩
  | succ n ih =>
    obtain ⟨hin, hb⟩ := h 0 (by omega)
    rw [Nat.add_zero] at hin hb
    obtain ⟨b, hb⟩ := Option.isSome_iff_exists.1 hb
    obtain ⟨r, hr⟩ := ih (a := a + 1) fun i hi => by
      have := h (i + 1) (by omega)
      rwa [show a + (i + 1) = a + 1 + i by omega] at this
    exact ⟨b ||| r, by rw [orBytes, readByte_eq_next.2 ⟨hin, hb⟩, andThen_next, hr]; rfl⟩

/-- A passed padding test is good padding. -/
theorem padTest_some {s : State} {b : Byte} (h : padTest s = .next (some b)) : s.paddedBy b := by
  simp only [padTest, andThen_eq_next, readByte_eq_next] at h
  obtain ⟨p, ⟨-, hp⟩, h⟩ := h
  split at h
  · cases h
  · rename_i hr
    rw [andThen_eq_next] at h
    obtain ⟨acc, hacc, h⟩ := h
    split at h <;> cases h
    rename_i h0
    have hz := (orBytes_eq_next hacc).2.1 h0
    have hpos : b.toNat ≠ 0 := fun h => hr (.inl (BitVec.eq_of_toNat_eq (by simpa using h)))
    refine ⟨hp, by omega, by omega, fun a h1 h2 => ?_⟩
    have := hz (a - (s.messageBytes - b.toNat)) (by omega)
    rwa [show s.messageBytes - b.toNat + (a - (s.messageBytes - b.toNat)) = a by omega] at this

/-- Good padding passes the test, where the message lies in the buffer. -/
theorem padTest_of_padded {s : State} {b : Byte} (hin : s.messageBytes ≤ s.bufBytes) (h : s.paddedBy b) :
    padTest s = .next (some b) := by
  obtain ⟨h0, h1, h2, hz⟩ := h
  have hread : readByte s (s.messageBytes - 1) = .next b := readByte_eq_next.2 ⟨inBuffer_iff.2 (by omega), h0⟩
  have hor : ¬ (b = 0 ∨ s.messageBytes < b.toNat) := by
    rintro (rfl | h)
    · simp at h1
    · omega
  have hbytes : ∀ i < b.toNat - 1, s.buf.read (s.messageBytes - b.toNat + i) = some 0 := fun i hi =>
    hz _ (by omega) (by omega)
  obtain ⟨acc, hacc⟩ := orBytes_isNext (s := s) (n := b.toNat - 1) (a := s.messageBytes - b.toNat) fun i hi =>
    ⟨inBuffer_iff.2 (by omega), by rw [hbytes i hi]; rfl⟩
  rw [padTest, hread, andThen_next, if_neg hor, hacc, andThen_next, if_pos ((orBytes_eq_next hacc).2.2 hbytes)]

/-- The test completes over a message whose bytes hold values. -/
theorem padTest_isNext {s : State} (h1 : 1 ≤ s.messageBytes) (hin : s.messageBytes ≤ s.bufBytes)
    (hw : s.written 0 s.messageBytes) : ∃ r, padTest s = .next r := by
  obtain ⟨b, hb⟩ := Option.isSome_iff_exists.1 (hw (s.messageBytes - 1) (by omega))
  rw [Nat.zero_add] at hb
  have hread : readByte s (s.messageBytes - 1) = .next b := readByte_eq_next.2 ⟨inBuffer_iff.2 (by omega), hb⟩
  by_cases hor : b = 0 ∨ s.messageBytes < b.toNat
  · exact ⟨none, by rw [padTest, hread, andThen_next, if_pos hor]⟩
  · obtain ⟨acc, hacc⟩ := orBytes_isNext (s := s) (n := b.toNat - 1) (a := s.messageBytes - b.toNat) fun i hi =>
      ⟨inBuffer_iff.2 (by omega), by simpa using hw (s.messageBytes - b.toNat + i) (by omega)⟩
    exact ⟨_, by rw [padTest, hread, andThen_next, if_neg hor, hacc, andThen_next]⟩

end Sys2Proof.Machine
end

