-- ==== Sys2Proof/Laws/PerInstr.lean ====
section
/-! SUPPORT. Facts that hold of every instruction, one lemma per constructor of `Instr`. -/

namespace Sys2Proof.Laws

/-- The three fields of the word of a command (`30_encoding.md` R80, R81): opcode, count or zero, and zero. -/
def WordLayout.Statement (i : Instr) : Prop :=
  opcodeField (encode i) = opcodeOf i ∧ imm8Field (encode i) = imm8Of i ∧ zeroField (encode i) = 0

/-- The fields of a word put together from an opcode and a count. -/
theorem wordLayout_of_fields (opcode imm8 : BitVec 8) :
    opcodeField ((0 : BitVec 16) ++ imm8 ++ opcode) = opcode ∧ imm8Field ((0 : BitVec 16) ++ imm8 ++ opcode) = imm8 ∧
      zeroField ((0 : BitVec 16) ++ imm8 ++ opcode) = 0 := by
  refine ⟨?_, ?_, ?_⟩ <;> apply BitVec.eq_of_getLsbD_eq <;> intro i hi <;>
    simp only [opcodeField, imm8Field, zeroField, BitVec.getLsbD_extractLsb', BitVec.getLsbD_append]
  · simp [hi]
  · simp [hi, show ¬ 8 + i < 8 by omega]
  · simp [hi, show ¬ 16 + i < 8 by omega, show ¬ 16 + i - 8 < 8 by omega]

theorem WordLayout.nop : WordLayout.Statement .nop := wordLayout_of_fields _ _
theorem WordLayout.clr : WordLayout.Statement .clr := wordLayout_of_fields _ _
theorem WordLayout.scrub : WordLayout.Statement .scrub := wordLayout_of_fields _ _
theorem WordLayout.permr (count : Nat) : WordLayout.Statement (.permr count) := wordLayout_of_fields _ _
theorem WordLayout.perml (count : Nat) : WordLayout.Statement (.perml count) := wordLayout_of_fields _ _
theorem WordLayout.sinit : WordLayout.Statement .sinit := wordLayout_of_fields _ _
theorem WordLayout.nabs : WordLayout.Statement .nabs := wordLayout_of_fields _ _
theorem WordLayout.dsep : WordLayout.Statement .dsep := wordLayout_of_fields _ _
theorem WordLayout.init : WordLayout.Statement .init := wordLayout_of_fields _ _
theorem WordLayout.encw : WordLayout.Statement .encw := wordLayout_of_fields _ _
theorem WordLayout.encloop : WordLayout.Statement .encloop := wordLayout_of_fields _ _
theorem WordLayout.decw : WordLayout.Statement .decw := wordLayout_of_fields _ _
theorem WordLayout.decloop : WordLayout.Statement .decloop := wordLayout_of_fields _ _
theorem WordLayout.fin : WordLayout.Statement .fin := wordLayout_of_fields _ _
theorem WordLayout.sttag : WordLayout.Statement .sttag := wordLayout_of_fields _ _
theorem WordLayout.ldtag : WordLayout.Statement .ldtag := wordLayout_of_fields _ _
theorem WordLayout.oprep : WordLayout.Statement .oprep := wordLayout_of_fields _ _
theorem WordLayout.unfin : WordLayout.Statement .unfin := wordLayout_of_fields _ _
theorem WordLayout.uninit : WordLayout.Statement .uninit := wordLayout_of_fields _ _
theorem WordLayout.authchk : WordLayout.Statement .authchk := wordLayout_of_fields _ _
theorem WordLayout.padchk : WordLayout.Statement .padchk := wordLayout_of_fields _ _
theorem WordLayout.sealBuf : WordLayout.Statement .sealBuf := wordLayout_of_fields _ _
theorem WordLayout.openBuf : WordLayout.Statement .openBuf := wordLayout_of_fields _ _

end Sys2Proof.Laws
end

