-- ==== Sys2Proof/Laws/State.lean ====
section
/-! SUPPORT. One lemma per field per update of the state, so that no later proof unfolds a record update. -/

namespace Sys2Proof.Machine

/-! ### `takeFault` -/

@[simp] theorem takeFault_v (c : ErrCode) (w : CmdWord) (s : State) : (takeFault c w s).v = s.v := rfl
@[simp] theorem takeFault_k (c : ErrCode) (w : CmdWord) (s : State) : (takeFault c w s).k = s.k := rfl
@[simp] theorem takeFault_n (c : ErrCode) (w : CmdWord) (s : State) : (takeFault c w s).n = s.n := rfl
@[simp] theorem takeFault_kw (c : ErrCode) (w : CmdWord) (s : State) : (takeFault c w s).kw = s.kw := rfl
@[simp] theorem takeFault_nw (c : ErrCode) (w : CmdWord) (s : State) : (takeFault c w s).nw = s.nw := rfl
@[simp] theorem takeFault_gamma (c : ErrCode) (w : CmdWord) (s : State) : (takeFault c w s).gamma = s.gamma := rfl
@[simp] theorem takeFault_len (c : ErrCode) (w : CmdWord) (s : State) : (takeFault c w s).len = s.len := rfl
@[simp] theorem takeFault_pos (c : ErrCode) (w : CmdWord) (s : State) : (takeFault c w s).pos = s.pos := rfl
@[simp] theorem takeFault_padlen (c : ErrCode) (w : CmdWord) (s : State) : (takeFault c w s).padlen = s.padlen := rfl
@[simp] theorem takeFault_err (c : ErrCode) (w : CmdWord) (s : State) : (takeFault c w s).err = c.code := rfl
@[simp] theorem takeFault_errinfo (c : ErrCode) (w : CmdWord) (s : State) : (takeFault c w s).errinfo = w := rfl
@[simp] theorem takeFault_buf (c : ErrCode) (w : CmdWord) (s : State) : (takeFault c w s).buf = s.buf := rfl
@[simp] theorem takeFault_config (c : ErrCode) (w : CmdWord) (s : State) : (takeFault c w s).config = s.config := rfl
@[simp] theorem takeFault_script (c : ErrCode) (w : CmdWord) (s : State) : (takeFault c w s).script = s.script := rfl
@[simp] theorem takeFault_observed (c : ErrCode) (w : CmdWord) (s : State) :
    (takeFault c w s).observed = s.observed := rfl

/-! ### `State.scrubbed` -/

@[simp] theorem State.scrubbed_v (s : State) : s.scrubbed.v = ⟨0, 0, 0, 0⟩ := rfl
@[simp] theorem State.scrubbed_k (s : State) : s.scrubbed.k = s.k := rfl
@[simp] theorem State.scrubbed_n (s : State) : s.scrubbed.n = s.n := rfl
@[simp] theorem State.scrubbed_kw (s : State) : s.scrubbed.kw = ⟨0, 0⟩ := rfl
@[simp] theorem State.scrubbed_nw (s : State) : s.scrubbed.nw = ⟨0, 0⟩ := rfl
@[simp] theorem State.scrubbed_gamma (s : State) : s.scrubbed.gamma = 0 := rfl
@[simp] theorem State.scrubbed_len (s : State) : s.scrubbed.len = s.len := rfl
@[simp] theorem State.scrubbed_pos (s : State) : s.scrubbed.pos = ⟨0, 0⟩ := rfl
@[simp] theorem State.scrubbed_padlen (s : State) : s.scrubbed.padlen = s.padlen := rfl
@[simp] theorem State.scrubbed_err (s : State) : s.scrubbed.err = s.err := rfl
@[simp] theorem State.scrubbed_errinfo (s : State) : s.scrubbed.errinfo = s.errinfo := rfl
@[simp] theorem State.scrubbed_buf (s : State) : s.scrubbed.buf = s.buf := rfl
@[simp] theorem State.scrubbed_config (s : State) : s.scrubbed.config = s.config := rfl
@[simp] theorem State.scrubbed_script (s : State) : s.scrubbed.script = s.script := rfl
@[simp] theorem State.scrubbed_observed (s : State) : s.scrubbed.observed = s.observed := rfl

/-! ### `State.cleared` -/

@[simp] theorem State.cleared_v (s : State) : s.cleared.v = ⟨0, 0, 0, 0⟩ := rfl
@[simp] theorem State.cleared_k (s : State) : s.cleared.k = ⟨0, 0⟩ := rfl
@[simp] theorem State.cleared_n (s : State) : s.cleared.n = ⟨0, 0⟩ := rfl
@[simp] theorem State.cleared_kw (s : State) : s.cleared.kw = ⟨0, 0⟩ := rfl
@[simp] theorem State.cleared_nw (s : State) : s.cleared.nw = ⟨0, 0⟩ := rfl
@[simp] theorem State.cleared_gamma (s : State) : s.cleared.gamma = 0 := rfl
@[simp] theorem State.cleared_len (s : State) : s.cleared.len = 0 := rfl
@[simp] theorem State.cleared_pos (s : State) : s.cleared.pos = ⟨0, 0⟩ := rfl
@[simp] theorem State.cleared_padlen (s : State) : s.cleared.padlen = 0 := rfl
@[simp] theorem State.cleared_err (s : State) : s.cleared.err = 0 := rfl
@[simp] theorem State.cleared_errinfo (s : State) : s.cleared.errinfo = 0 := rfl
@[simp] theorem State.cleared_buf (s : State) : s.cleared.buf = s.buf := rfl
@[simp] theorem State.cleared_config (s : State) : s.cleared.config = s.config := rfl
@[simp] theorem State.cleared_script (s : State) : s.cleared.script = s.script := rfl
@[simp] theorem State.cleared_observed (s : State) : s.cleared.observed = s.observed := rfl

/-! ### `State.advance` -/

@[simp] theorem State.advance_v (s : State) : s.advance.v = s.v := rfl
@[simp] theorem State.advance_k (s : State) : s.advance.k = s.k := rfl
@[simp] theorem State.advance_n (s : State) : s.advance.n = s.n := rfl
@[simp] theorem State.advance_kw (s : State) : s.advance.kw = s.kw.swap := rfl
@[simp] theorem State.advance_nw (s : State) : s.advance.nw = s.nw.swap := rfl
@[simp] theorem State.advance_gamma (s : State) : s.advance.gamma = s.gamma + Config.delta := rfl
@[simp] theorem State.advance_len (s : State) : s.advance.len = s.len := rfl
@[simp] theorem State.advance_pos (s : State) : s.advance.pos = s.pos.next s.len := rfl
@[simp] theorem State.advance_padlen (s : State) : s.advance.padlen = s.padlen := rfl
@[simp] theorem State.advance_err (s : State) : s.advance.err = s.err := rfl
@[simp] theorem State.advance_errinfo (s : State) : s.advance.errinfo = s.errinfo := rfl
@[simp] theorem State.advance_buf (s : State) : s.advance.buf = s.buf := rfl
@[simp] theorem State.advance_config (s : State) : s.advance.config = s.config := rfl
@[simp] theorem State.advance_script (s : State) : s.advance.script = s.script := rfl
@[simp] theorem State.advance_observed (s : State) : s.advance.observed = s.observed := rfl

/-! ### `State.retreat` -/

@[simp] theorem State.retreat_v (s : State) : s.retreat.v = s.v := rfl
@[simp] theorem State.retreat_k (s : State) : s.retreat.k = s.k := rfl
@[simp] theorem State.retreat_n (s : State) : s.retreat.n = s.n := rfl
@[simp] theorem State.retreat_kw (s : State) : s.retreat.kw = s.kw.swap := rfl
@[simp] theorem State.retreat_nw (s : State) : s.retreat.nw = s.nw.swap := rfl
@[simp] theorem State.retreat_gamma (s : State) : s.retreat.gamma = s.gamma - Config.delta := rfl
@[simp] theorem State.retreat_len (s : State) : s.retreat.len = s.len := rfl
@[simp] theorem State.retreat_pos (s : State) : s.retreat.pos = s.pos.prev s.len := rfl
@[simp] theorem State.retreat_padlen (s : State) : s.retreat.padlen = s.padlen := rfl
@[simp] theorem State.retreat_err (s : State) : s.retreat.err = s.err := rfl
@[simp] theorem State.retreat_errinfo (s : State) : s.retreat.errinfo = s.errinfo := rfl
@[simp] theorem State.retreat_buf (s : State) : s.retreat.buf = s.buf := rfl
@[simp] theorem State.retreat_config (s : State) : s.retreat.config = s.config := rfl
@[simp] theorem State.retreat_script (s : State) : s.retreat.script = s.script := rfl
@[simp] theorem State.retreat_observed (s : State) : s.retreat.observed = s.observed := rfl

/-! ### `sinitBody` -/

@[simp] theorem sinitBody_v (s : State) : (sinitBody s).v = s.keyedSponge := rfl
@[simp] theorem sinitBody_k (s : State) : (sinitBody s).k = s.k := rfl
@[simp] theorem sinitBody_n (s : State) : (sinitBody s).n = s.n := rfl
@[simp] theorem sinitBody_kw (s : State) : (sinitBody s).kw = s.k := rfl
@[simp] theorem sinitBody_nw (s : State) : (sinitBody s).nw = s.n := rfl
@[simp] theorem sinitBody_gamma (s : State) : (sinitBody s).gamma = 0 := rfl
@[simp] theorem sinitBody_len (s : State) : (sinitBody s).len = s.len := rfl
@[simp] theorem sinitBody_pos (s : State) : (sinitBody s).pos = ⟨0, 0⟩ := rfl
@[simp] theorem sinitBody_padlen (s : State) : (sinitBody s).padlen = s.padlen := rfl
@[simp] theorem sinitBody_err (s : State) : (sinitBody s).err = s.err := rfl
@[simp] theorem sinitBody_errinfo (s : State) : (sinitBody s).errinfo = s.errinfo := rfl
@[simp] theorem sinitBody_buf (s : State) : (sinitBody s).buf = s.buf := rfl
@[simp] theorem sinitBody_config (s : State) : (sinitBody s).config = s.config := rfl
@[simp] theorem sinitBody_script (s : State) : (sinitBody s).script = s.script := rfl
@[simp] theorem sinitBody_observed (s : State) : (sinitBody s).observed = s.observed := rfl

/-! ### `nabsBody` -/

@[simp] theorem nabsBody_v (s : State) : (nabsBody s).v = absorbNonce s.nw s.v := rfl
@[simp] theorem nabsBody_k (s : State) : (nabsBody s).k = s.k := rfl
@[simp] theorem nabsBody_n (s : State) : (nabsBody s).n = s.n := rfl
@[simp] theorem nabsBody_kw (s : State) : (nabsBody s).kw = s.kw := rfl
@[simp] theorem nabsBody_nw (s : State) : (nabsBody s).nw = s.nw := rfl
@[simp] theorem nabsBody_gamma (s : State) : (nabsBody s).gamma = s.gamma := rfl
@[simp] theorem nabsBody_len (s : State) : (nabsBody s).len = s.len := rfl
@[simp] theorem nabsBody_pos (s : State) : (nabsBody s).pos = s.pos := rfl
@[simp] theorem nabsBody_padlen (s : State) : (nabsBody s).padlen = s.padlen := rfl
@[simp] theorem nabsBody_err (s : State) : (nabsBody s).err = s.err := rfl
@[simp] theorem nabsBody_errinfo (s : State) : (nabsBody s).errinfo = s.errinfo := rfl
@[simp] theorem nabsBody_buf (s : State) : (nabsBody s).buf = s.buf := rfl
@[simp] theorem nabsBody_config (s : State) : (nabsBody s).config = s.config := rfl
@[simp] theorem nabsBody_script (s : State) : (nabsBody s).script = s.script := rfl
@[simp] theorem nabsBody_observed (s : State) : (nabsBody s).observed = s.observed := rfl

/-! ### `dsepBody` -/

@[simp] theorem dsepBody_v (s : State) : (dsepBody s).v = separate s.v := rfl
@[simp] theorem dsepBody_k (s : State) : (dsepBody s).k = s.k := rfl
@[simp] theorem dsepBody_n (s : State) : (dsepBody s).n = s.n := rfl
@[simp] theorem dsepBody_kw (s : State) : (dsepBody s).kw = s.kw := rfl
@[simp] theorem dsepBody_nw (s : State) : (dsepBody s).nw = s.nw := rfl
@[simp] theorem dsepBody_gamma (s : State) : (dsepBody s).gamma = s.gamma := rfl
@[simp] theorem dsepBody_len (s : State) : (dsepBody s).len = s.len := rfl
@[simp] theorem dsepBody_pos (s : State) : (dsepBody s).pos = s.pos := rfl
@[simp] theorem dsepBody_padlen (s : State) : (dsepBody s).padlen = s.padlen := rfl
@[simp] theorem dsepBody_err (s : State) : (dsepBody s).err = s.err := rfl
@[simp] theorem dsepBody_errinfo (s : State) : (dsepBody s).errinfo = s.errinfo := rfl
@[simp] theorem dsepBody_buf (s : State) : (dsepBody s).buf = s.buf := rfl
@[simp] theorem dsepBody_config (s : State) : (dsepBody s).config = s.config := rfl
@[simp] theorem dsepBody_script (s : State) : (dsepBody s).script = s.script := rfl
@[simp] theorem dsepBody_observed (s : State) : (dsepBody s).observed = s.observed := rfl

/-! ### `initBody` -/

@[simp] theorem initBody_v (s : State) : (initBody s).v = separate (absorbNonce s.n s.keyedSponge) := rfl
@[simp] theorem initBody_k (s : State) : (initBody s).k = s.k := rfl
@[simp] theorem initBody_n (s : State) : (initBody s).n = s.n := rfl
@[simp] theorem initBody_kw (s : State) : (initBody s).kw = s.k := rfl
@[simp] theorem initBody_nw (s : State) : (initBody s).nw = s.n := rfl
@[simp] theorem initBody_gamma (s : State) : (initBody s).gamma = 0 := rfl
@[simp] theorem initBody_len (s : State) : (initBody s).len = s.len := rfl
@[simp] theorem initBody_pos (s : State) : (initBody s).pos = ⟨0, 0⟩ := rfl
@[simp] theorem initBody_padlen (s : State) : (initBody s).padlen = s.padlen := rfl
@[simp] theorem initBody_err (s : State) : (initBody s).err = s.err := rfl
@[simp] theorem initBody_errinfo (s : State) : (initBody s).errinfo = s.errinfo := rfl
@[simp] theorem initBody_buf (s : State) : (initBody s).buf = s.buf := rfl
@[simp] theorem initBody_config (s : State) : (initBody s).config = s.config := rfl
@[simp] theorem initBody_script (s : State) : (initBody s).script = s.script := rfl
@[simp] theorem initBody_observed (s : State) : (initBody s).observed = s.observed := rfl

/-! ### `finBody` -/

@[simp] theorem finBody_v (s : State) :
    (finBody s).v = whiten s.kw s.nw (rounds permR Config.finRounds (preFinal s.kw s.nw s.gamma s.v)) := rfl
@[simp] theorem finBody_k (s : State) : (finBody s).k = s.k := rfl
@[simp] theorem finBody_n (s : State) : (finBody s).n = s.n := rfl
@[simp] theorem finBody_kw (s : State) : (finBody s).kw = s.kw := rfl
@[simp] theorem finBody_nw (s : State) : (finBody s).nw = s.nw := rfl
@[simp] theorem finBody_gamma (s : State) : (finBody s).gamma = s.gamma := rfl
@[simp] theorem finBody_len (s : State) : (finBody s).len = s.len := rfl
@[simp] theorem finBody_pos (s : State) : (finBody s).pos = s.pos := rfl
@[simp] theorem finBody_padlen (s : State) : (finBody s).padlen = s.padlen := rfl
@[simp] theorem finBody_err (s : State) : (finBody s).err = s.err := rfl
@[simp] theorem finBody_errinfo (s : State) : (finBody s).errinfo = s.errinfo := rfl
@[simp] theorem finBody_buf (s : State) : (finBody s).buf = s.buf := rfl
@[simp] theorem finBody_config (s : State) : (finBody s).config = s.config := rfl
@[simp] theorem finBody_script (s : State) : (finBody s).script = s.script := rfl
@[simp] theorem finBody_observed (s : State) : (finBody s).observed = s.observed := rfl

/-! ### `unfinBody` -/

@[simp] theorem unfinBody_v (s : State) :
    (unfinBody s).v = preFinal s.kw s.nw s.gamma (rounds permL Config.finRounds (whiten s.kw s.nw s.v)) := rfl
@[simp] theorem unfinBody_k (s : State) : (unfinBody s).k = s.k := rfl
@[simp] theorem unfinBody_n (s : State) : (unfinBody s).n = s.n := rfl
@[simp] theorem unfinBody_kw (s : State) : (unfinBody s).kw = s.kw := rfl
@[simp] theorem unfinBody_nw (s : State) : (unfinBody s).nw = s.nw := rfl
@[simp] theorem unfinBody_gamma (s : State) : (unfinBody s).gamma = s.gamma := rfl
@[simp] theorem unfinBody_len (s : State) : (unfinBody s).len = s.len := rfl
@[simp] theorem unfinBody_pos (s : State) : (unfinBody s).pos = s.pos := rfl
@[simp] theorem unfinBody_padlen (s : State) : (unfinBody s).padlen = s.padlen := rfl
@[simp] theorem unfinBody_err (s : State) : (unfinBody s).err = s.err := rfl
@[simp] theorem unfinBody_errinfo (s : State) : (unfinBody s).errinfo = s.errinfo := rfl
@[simp] theorem unfinBody_buf (s : State) : (unfinBody s).buf = s.buf := rfl
@[simp] theorem unfinBody_config (s : State) : (unfinBody s).config = s.config := rfl
@[simp] theorem unfinBody_script (s : State) : (unfinBody s).script = s.script := rfl
@[simp] theorem unfinBody_observed (s : State) : (unfinBody s).observed = s.observed := rfl

/-! ### `oprepBody` -/

@[simp] theorem oprepBody_v (s : State) : (oprepBody s).v = s.v := rfl
@[simp] theorem oprepBody_k (s : State) : (oprepBody s).k = s.k := rfl
@[simp] theorem oprepBody_n (s : State) : (oprepBody s).n = s.n := rfl
@[simp] theorem oprepBody_kw (s : State) : (oprepBody s).kw = if s.totalSteps % 2 = 1 then s.k.swap else s.k := rfl
@[simp] theorem oprepBody_nw (s : State) : (oprepBody s).nw = if s.totalSteps % 2 = 1 then s.n.swap else s.n := rfl
@[simp] theorem oprepBody_gamma (s : State) : (oprepBody s).gamma = Config.delta * BitVec.ofNat 64 s.totalSteps := rfl
@[simp] theorem oprepBody_len (s : State) : (oprepBody s).len = s.len := rfl
@[simp] theorem oprepBody_pos (s : State) : (oprepBody s).pos = Position.finish := rfl
@[simp] theorem oprepBody_padlen (s : State) : (oprepBody s).padlen = s.padlen := rfl
@[simp] theorem oprepBody_err (s : State) : (oprepBody s).err = s.err := rfl
@[simp] theorem oprepBody_errinfo (s : State) : (oprepBody s).errinfo = s.errinfo := rfl
@[simp] theorem oprepBody_buf (s : State) : (oprepBody s).buf = s.buf := rfl
@[simp] theorem oprepBody_config (s : State) : (oprepBody s).config = s.config := rfl
@[simp] theorem oprepBody_script (s : State) : (oprepBody s).script = s.script := rfl
@[simp] theorem oprepBody_observed (s : State) : (oprepBody s).observed = s.observed := rfl

/-! ### `uninitBody` -/

@[simp] theorem uninitBody_k (s : State) : (uninitBody s).k = s.k := rfl
@[simp] theorem uninitBody_n (s : State) : (uninitBody s).n = s.n := rfl
@[simp] theorem uninitBody_kw (s : State) : (uninitBody s).kw = s.kw := rfl
@[simp] theorem uninitBody_nw (s : State) : (uninitBody s).nw = s.nw := rfl
@[simp] theorem uninitBody_gamma (s : State) : (uninitBody s).gamma = s.gamma := rfl
@[simp] theorem uninitBody_len (s : State) : (uninitBody s).len = s.len := rfl
@[simp] theorem uninitBody_pos (s : State) : (uninitBody s).pos = s.pos := rfl
@[simp] theorem uninitBody_padlen (s : State) : (uninitBody s).padlen = s.padlen := rfl
@[simp] theorem uninitBody_err (s : State) : (uninitBody s).err = s.err := rfl
@[simp] theorem uninitBody_errinfo (s : State) : (uninitBody s).errinfo = s.errinfo := rfl
@[simp] theorem uninitBody_buf (s : State) : (uninitBody s).buf = s.buf := rfl
@[simp] theorem uninitBody_config (s : State) : (uninitBody s).config = s.config := rfl
@[simp] theorem uninitBody_script (s : State) : (uninitBody s).script = s.script := rfl
@[simp] theorem uninitBody_observed (s : State) : (uninitBody s).observed = s.observed := rfl

/-! ### `State.observe` -/

@[simp] theorem State.observe_v (s : State) (w : Word) : (s.observe w).v = s.v := rfl
@[simp] theorem State.observe_k (s : State) (w : Word) : (s.observe w).k = s.k := rfl
@[simp] theorem State.observe_n (s : State) (w : Word) : (s.observe w).n = s.n := rfl
@[simp] theorem State.observe_kw (s : State) (w : Word) : (s.observe w).kw = s.kw := rfl
@[simp] theorem State.observe_nw (s : State) (w : Word) : (s.observe w).nw = s.nw := rfl
@[simp] theorem State.observe_gamma (s : State) (w : Word) : (s.observe w).gamma = s.gamma := rfl
@[simp] theorem State.observe_len (s : State) (w : Word) : (s.observe w).len = s.len := rfl
@[simp] theorem State.observe_pos (s : State) (w : Word) : (s.observe w).pos = s.pos := rfl
@[simp] theorem State.observe_padlen (s : State) (w : Word) : (s.observe w).padlen = s.padlen := rfl
@[simp] theorem State.observe_err (s : State) (w : Word) : (s.observe w).err = s.err := rfl
@[simp] theorem State.observe_errinfo (s : State) (w : Word) : (s.observe w).errinfo = s.errinfo := rfl
@[simp] theorem State.observe_buf (s : State) (w : Word) : (s.observe w).buf = s.buf := rfl
@[simp] theorem State.observe_config (s : State) (w : Word) : (s.observe w).config = s.config := rfl
@[simp] theorem State.observe_script (s : State) (w : Word) : (s.observe w).script = s.script := rfl
@[simp] theorem State.observe_observed (s : State) (w : Word) : (s.observe w).observed = s.observed ++ [w] := rfl

/-! ### `resetEvent` -/

@[simp] theorem resetEvent_v (s : State) : (resetEvent s).v = ⟨0, 0, 0, 0⟩ := rfl
@[simp] theorem resetEvent_k (s : State) : (resetEvent s).k = ⟨0, 0⟩ := rfl
@[simp] theorem resetEvent_n (s : State) : (resetEvent s).n = ⟨0, 0⟩ := rfl
@[simp] theorem resetEvent_kw (s : State) : (resetEvent s).kw = ⟨0, 0⟩ := rfl
@[simp] theorem resetEvent_nw (s : State) : (resetEvent s).nw = ⟨0, 0⟩ := rfl
@[simp] theorem resetEvent_gamma (s : State) : (resetEvent s).gamma = 0 := rfl
@[simp] theorem resetEvent_len (s : State) : (resetEvent s).len = 0 := rfl
@[simp] theorem resetEvent_pos (s : State) : (resetEvent s).pos = ⟨0, 0⟩ := rfl
@[simp] theorem resetEvent_padlen (s : State) : (resetEvent s).padlen = 0 := rfl
@[simp] theorem resetEvent_err (s : State) : (resetEvent s).err = 0 := rfl
@[simp] theorem resetEvent_errinfo (s : State) : (resetEvent s).errinfo = 0 := rfl
@[simp] theorem resetEvent_buf (s : State) : (resetEvent s).buf = [] := rfl
@[simp] theorem resetEvent_config (s : State) : (resetEvent s).config = s.config := rfl
@[simp] theorem resetEvent_script (s : State) : (resetEvent s).script = s.script := rfl
@[simp] theorem resetEvent_observed (s : State) : (resetEvent s).observed = s.observed := rfl

end Sys2Proof.Machine
end

