-- ==== Sys2Proof/Tests/Slice0.lean ====
section
/-! SUPPORT. Tests. Expected results come from the tables of `95_test_vectors.md` and the examples of the rules;
words are written out from the opcode map of `30_encoding.md` R83. The theorems `witness_…` show, for the statements
that have hypotheses, concrete states that meet them. -/

namespace Sys2Proof.Tests
open Sys2Proof.Machine

/-! ### Helpers -/

/-- Bytes from address 0. -/
def bytes (l : List Byte) : Memory := (List.range l.length).zip l

/-- The bytes `00 01 02 …`, `n` of them. -/
def counting (n : Nat) : List Byte := (List.range n).map (BitVec.ofNat 8)

/-- `n` zero bytes. -/
def zeros (n : Nat) : List Byte := List.replicate n 0

/-- The outcome is a next state of which `p` holds. -/
def next? (r : Result State) (p : State → Bool) : Bool :=
  match r with
  | .next t => p t
  | _ => false

/-- K = (1, 2), N = (3, 4), LEN = 3, the 56 bytes `00 01 … 37` in the buffer. -/
def loaded : State :=
  { State.reset with k := ⟨1, 2⟩, n := ⟨3, 4⟩, len := 3, buf := bytes (counting 56) }

/-- The vector of section 1.1: the padded `hello`, its key and nonce. -/
def hello : State :=
  { State.reset with
    n := ⟨0, 0x0400000000000000⟩
    len := 3
    buf := bytes ([0x68, 0x65, 0x6c, 0x6c, 0x6f] ++ zeros 18 ++ [0x13]) }

/-- The ciphertext of section 1.1, its first byte `b`. -/
def sealedHello (b : Byte) : State :=
  { hello with
    buf := bytes
      [b, 0x32, 0x79, 0x64, 0xe3, 0xac, 0x40, 0x31, 0x83, 0x6e, 0xc4, 0x57, 0xa8, 0xb6, 0x04, 0xf4,
       0x45, 0x14, 0x86, 0x20, 0x35, 0xdf, 0x72, 0x79, 0x8c, 0x0f, 0x02, 0x3a, 0xbd, 0x09, 0xca, 0xd9,
       0x0f, 0x26, 0xe9, 0xf6, 0x1c, 0x44, 0x52, 0xe6, 0x8e, 0x4b, 0xe3, 0xcf, 0x67, 0xd4, 0x79, 0x3e,
       0xee, 0xd1, 0x57, 0xb7, 0x70, 0x44, 0x6e, 0x35] }

/-- The hand-set state of section 2.3. -/
def handSet : State :=
  { State.reset with
    v := ⟨1, 2, 3, 4⟩
    kw := ⟨0x1111111111111111, 0x2222222222222222⟩
    nw := ⟨0x3333333333333333, 0x4444444444444444⟩
    gamma := 0xfc00000000000000
    len := 1
    buf := bytes [0xef, 0xbe, 0xad, 0xde, 0, 0, 0, 0] }

/-- `handSet` after ENCW, by the table of section 2.3. -/
def handSetAfter : State :=
  { handSet with
    v := ⟨0xb7bc7625e939c44c, 0xfbfffffe184ff886, 0xab7acbb5c8cccccd, 0x0489975b74f19cde⟩
    kw := ⟨0x2222222222222222, 0x1111111111111111⟩
    nw := ⟨0x4444444444444444, 0x3333333333333333⟩
    gamma := 0x9a3779b97f4a7c15
    pos := ⟨1, 0⟩
    buf := bytes [0xcd, 0x5b, 0x9f, 0x53, 0x5c, 0x97, 0x89, 0x04] }

/-- The state of the example of R130. -/
def finStart : State :=
  { State.reset with
    v := ⟨1, 2, 3, 4⟩
    kw := ⟨0xffffffffffffffff, 0x8000000000000001⟩
    nw := ⟨0xffffffffffffff80, 5⟩
    gamma := 0x100 }

/-- A faulted engine. -/
def faultedState : State := { loaded with err := 4, errinfo := 3 }

/-- The state with LEN = 3 and 24 message bytes, of section 2.5. -/
def padded (l : List Byte) : State := { State.reset with len := 3, buf := bytes l }

/-! ### Well-formedness and decoding -/

/-- A count of 256 does not fit the 8-bit field of PERMR. -/
theorem test_wf_permr_refuses_256 : (Instr.permr 256).wf = false := by decide

/-- A count of 256 does not fit the 8-bit field of PERML. -/
theorem test_wf_perml_refuses_256 : (Instr.perml 256).wf = false := by decide

theorem test_wf_accepts_255 : (Instr.permr 255).wf = true ∧ (Instr.perml 255).wf = true := by decide

/-- R83: the system commands and the rounds. -/
theorem test_decode_system_and_rounds :
    decode 0b00000000000000000000000000000000 = .ok .nop ∧
    decode 0b00000000000000000000000000000001 = .ok .clr ∧
    decode 0b00000000000000000000000000000010 = .ok .scrub ∧
    decode 0b00000000000000000000010000010000 = .ok (.permr 4) ∧
    decode 0b00000000000000001111111100010001 = .ok (.perml 255) := by decide

/-- R83: initialisation and the main loop. -/
theorem test_decode_initialisation_and_loop :
    decode 0b00000000000000000000000000100000 = .ok .sinit ∧
    decode 0b00000000000000000000000000100001 = .ok .nabs ∧
    decode 0b00000000000000000000000000100010 = .ok .dsep ∧
    decode 0b00000000000000000000000000100011 = .ok .init ∧
    decode 0b00000000000000000000000000110000 = .ok .encw ∧
    decode 0b00000000000000000000000000110001 = .ok .encloop ∧
    decode 0b00000000000000000000000000110010 = .ok .decw ∧
    decode 0b00000000000000000000000000110011 = .ok .decloop := by decide

/-- R83: finalisation, the checks and the duplex engine. -/
theorem test_decode_finalisation_checks_and_duplex :
    decode 0b00000000000000000000000001000000 = .ok .fin ∧
    decode 0b00000000000000000000000001000001 = .ok .sttag ∧
    decode 0b00000000000000000000000001000010 = .ok .ldtag ∧
    decode 0b00000000000000000000000001000011 = .ok .oprep ∧
    decode 0b00000000000000000000000001000100 = .ok .unfin ∧
    decode 0b00000000000000000000000001000101 = .ok .uninit ∧
    decode 0b00000000000000000000000001001000 = .ok .authchk ∧
    decode 0b00000000000000000000000001001001 = .ok .padchk ∧
    decode 0b00000000000000000000000001010000 = .ok .sealBuf ∧
    decode 0b00000000000000000000000001010001 = .ok .openBuf := by decide

/-- The illegal words of section 2.8's decoding table. -/
theorem test_decode_rejects :
    [0x03, 0x12, 0x24, 0x34, 0x46, 0x47, 0x4a, 0x52, 0xff].map decode = List.replicate 9 (.error .unassignedOpcode) ∧
    [0x100, 0x101, 0x150].map decode = List.replicate 3 (.error .operandBits) ∧
    [0x10000, 0x80000000, 0x10010, 0x10110].map decode = List.replicate 4 (.error .highBits) := by decide

/-- `opcode + 256 * count` (R83). -/
theorem test_encode : encode (.permr 4) = 0x410 ∧ encode (.perml 255) = 0xff11 ∧ encode .sealBuf = 0x50 := by decide

/-- The host's interface to the decoder and to the script. -/
theorem test_table_word :
    decodeTableWord 32 0x50 = some .sealBuf ∧ decodeTableWord 32 0x10050 = none ∧
    next? (step (State.reset.withFetchWord 32 0x43)) (fun t => t.pos == ⟨3, 0⟩) = true := by decide

/-! ### System commands, acceptance and faults (section 2.8) -/

theorem test_nop : next? (exec .nop loaded) (· == loaded) = true := by decide

/-- P4: CLR ends the fault, wipes the registers, keeps the buffer. -/
theorem test_clr : next? (exec .clr { faultedState with padlen := 19 }) (fun t =>
    t.k == ⟨0, 0⟩ && t.n == ⟨0, 0⟩ && t.len == 0 && t.padlen == 0 && t.err == 0 && t.errinfo == 0 &&
    t.buf == loaded.buf) = true := by decide

theorem test_scrub : next? (exec .scrub { loaded with v := ⟨5, 6, 7, 8⟩, gamma := 9, pos := ⟨2, 1⟩, padlen := 19 })
    (fun t => t.v == ⟨0, 0, 0, 0⟩ && t.gamma == 0 && t.pos == ⟨0, 0⟩ && t.k == ⟨1, 2⟩ && t.len == 3 &&
      t.padlen == 19) = true := by decide

/-- An illegal word raises ILLEGAL; a later one, and an inexact CLR, is ignored. -/
theorem test_illegal_and_stickiness :
    next? (submit 0x3 loaded) (· == faultedState) = true ∧ next? (submit 0x101 faultedState) (· == faultedState) = true ∧
    next? (submit 0x50 faultedState) (· == faultedState) = true := by decide

/-! ### Rounds (section 2.1) -/

def roundStart : State :=
  { State.reset with v := ⟨0x0123456789abcdef, 0xfedcba9876543210, 0x0f1e2d3c4b5a6978, 0x8796a5b4c3d2e1f0⟩ }

theorem test_permr_one : next? (exec (.permr 1) roundStart) (fun t =>
    t.v == ⟨0x33001123eeddccfd, 0x1d0b375d48a3fad5, 0x88eb2b8cff61c426, 0x177dca9a711bacff⟩) = true := by decide

theorem test_permr_four : next? (exec (.permr 4) roundStart) (fun t =>
    t.v == ⟨0x3799064ed772237e, 0x3c0873e23faf5f51, 0x0c8dcd4526fa8e7c, 0x1c2cc4a21a27c2b8⟩) = true := by decide

theorem test_perml_one : next? (exec (.perml 1) roundStart) (fun t =>
    t.v == ⟨0x2dfe8a00ecc7579e, 0xaca6a99b4afaf193, 0xd0ff1c0fb2ace66c, 0x6ac4f2a4f2810a2b⟩) = true := by decide

/-- Borrow in `sub64`: the second row of the table of PermL. -/
theorem test_perml_borrow : next? (exec (.perml 1) { State.reset with v := ⟨1, 0, 0, 0⟩ }) (fun t =>
    t.v == ⟨0x40000001ffeff801, 0xc0000000000fffff, 0xfffffffff8000000, 0x0000000008000000⟩) = true := by decide

/-! ### Initialisation (section 2.2) -/

theorem test_sinit : next? (exec .sinit loaded) (fun t =>
    t.v == ⟨0x75657370656d6f72, 0x6d6f646e61726f66, 0x6172656e6567796d, 0x7365747962646576⟩ && t.kw == ⟨1, 2⟩ &&
    t.nw == ⟨3, 4⟩ && t.gamma == 0 && t.pos == ⟨0, 0⟩) = true := by decide

theorem test_sinit_complements : next? (exec .sinit { loaded with k := ⟨0xffffffffffffffff, 0x8000000000000000⟩ })
    (fun t => t.v == ⟨0x8a9a8c8f9a92908c, 0xed6f646e61726f64, 0x9e8d9a919a988693, 0xf365747962646574⟩) = true := by
  decide

theorem test_nabs : next? (exec .nabs
    { loaded with v := ⟨0x75657370656d6f72, 0x6d6f646e61726f66, 0x6172656e6567796d, 0x7365747962646576⟩, nw := ⟨3, 4⟩ })
    (fun t => t.v == ⟨0xa118fed0c48f0f8e, 0x0a21b890e0ad5571, 0x7d0d555e6b117079, 0xf1c9fb02ea1be19f⟩) = true := by
  decide

theorem test_dsep : next? (exec .dsep { State.reset with v := ⟨0x24f3e974c5461390, 1, 2, 3⟩ })
    (fun t => t.v == ⟨0x24f3e974c546136d, 1, 2, 3⟩) = true := by decide

theorem test_init : next? (exec .init loaded) (fun t =>
    t.v == ⟨0xa118fed0c48f0f73, 0x0a21b890e0ad5571, 0x7d0d555e6b117079, 0xf1c9fb02ea1be19f⟩ && t.kw == ⟨1, 2⟩ &&
    t.nw == ⟨3, 4⟩) = true := by decide

/-! ### The main loop (section 2.3) -/

theorem test_encw : next? (exec .encw handSet) (· == handSetAfter) = true := by decide

theorem test_decw : next? (exec .decw handSetAfter) (· == handSet) = true := by decide

/-- The BOUNDS rows of section 2.3. -/
theorem test_word_step_bounds :
    next? (exec .encw { loaded with len := 0 }) (·.err == 5) = true ∧
    next? (exec .encw { loaded with pos := ⟨3, 0⟩ }) (·.err == 5) = true ∧
    next? (exec .decw loaded) (·.err == 5) = true ∧
    next? (exec .decw { loaded with pos := ⟨3, 1⟩ }) (·.err == 5) = true ∧
    next? (exec .encw { loaded with len := 4, config := ⟨7, Config.sipcInitConst⟩ }) (·.err == 5) = true := by decide

/-- The state after INIT from `loaded`, by the table of section 2.2. -/
def afterInit : State :=
  { loaded with
    v := ⟨0xa118fed0c48f0f73, 0x0a21b890e0ad5571, 0x7d0d555e6b117079, 0xf1c9fb02ea1be19f⟩
    kw := ⟨1, 2⟩
    nw := ⟨3, 4⟩ }

theorem test_encloop : next? (exec .encloop afterInit) (fun t =>
    t.pos == ⟨3, 0⟩ && t.gamma == 0x8ff34785799e5cbd && t.kw == ⟨2, 1⟩ && t.nw == ⟨4, 3⟩ &&
    t.buf.readLE 8 0 == some 0xa8725768eb4c1001 && t.buf.readLE 8 8 == some 0xd0ff3a801d993bd0 &&
    t.buf.readLE 8 16 == some 0x596b889436f84375) = true := by decide +kernel

/-- At the end of the loop ENCLOOP makes no step, and at its start DECLOOP makes none. -/
theorem test_loops_with_no_step_left :
    next? (exec .encloop { loaded with pos := ⟨3, 0⟩ }) (· == { loaded with pos := ⟨3, 0⟩ }) = true ∧
    next? (exec .decloop loaded) (· == loaded) = true := by decide

/-- P3 step 4: DECLOOP recovers the padded message and the state after DSEP. -/
theorem test_decloop : next? (exec .decloop
    { sealedHello 0xe6 with
      v := ⟨0x76abb72a1f6714dc, 0xd2e2279c4487e4aa, 0xacb8a462988fa60e, 0xe03a87c112d792a7⟩
      nw := ⟨0x0400000000000000, 0⟩
      gamma := 0x8ff34785799e5cbd
      pos := ⟨3, 0⟩ }) (fun t =>
    t.v == ⟨0x24f3e974c546136d, 0x2627982169363572, 0x3494355d6711a0a4, 0x81c2f5c66b937916⟩ && t.gamma == 0 &&
    t.nw == ⟨0, 0x0400000000000000⟩ && t.pos == ⟨0, 0⟩ && t.buf.readLE 8 0 == some 0x0000006f6c6c6568 &&
    t.buf.readLE 8 16 == some 0x1300000000000000) = true := by decide +kernel

/-! ### Finalisation (section 2.4) -/

theorem test_fin : next? (exec .fin finStart) (fun t =>
    t.v == ⟨0x61e860ccb4f3418d, 0x0a849302f4e9a0d5, 0x6a55d53737d5ba48, 0x010ff2c8e400ad7e⟩) = true := by decide

theorem test_unfin : next? (exec .unfin
    { finStart with v := ⟨0x61e860ccb4f3418d, 0x0a849302f4e9a0d5, 0x6a55d53737d5ba48, 0x010ff2c8e400ad7e⟩ })
    (· == finStart) = true := by decide

/-- The bytes of the STTAG row, at the boundary `LEN + 4 = MEMWORDS`. -/
theorem test_sttag : next? (exec .sttag
    { State.reset with
      len := 4
      v := ⟨0x0102030405060708, 0x1112131415161718, 0x2122232425262728, 0x3132333435363738⟩ }) (fun t =>
    t.err == 0 && t.buf.length == 32 && t.buf.read 31 == none && t.buf.read 32 == some 0x08 &&
    t.buf.read 40 == some 0x18 && t.buf.read 63 == some 0x31) = true := by decide

theorem test_ldtag : next? (exec .ldtag (sealedHello 0xe6)) (fun t =>
    t.v == ⟨0xd9ca09bd3a020f8c, 0xe652441cf6e9260f, 0x3e79d467cfe34b8e, 0x356e4470b757d1ee⟩) = true := by decide

theorem test_ldtag_bounds : next? (exec .ldtag { loaded with len := 5 }) (·.err == 5) = true := by decide

/-- The OPREP rows: an odd and an even `3 * LEN`. -/
theorem test_oprep :
    next? (exec .oprep loaded) (fun t =>
      t.gamma == 0x8ff34785799e5cbd && t.kw == ⟨2, 1⟩ && t.nw == ⟨4, 3⟩ && t.pos == ⟨3, 0⟩) = true ∧
    next? (exec .oprep { loaded with len := 4 }) (fun t =>
      t.gamma == 0x6a99b4b1f77dd0fc && t.kw == ⟨1, 2⟩ && t.nw == ⟨3, 4⟩) = true := by decide

/-- The largest LEN: `3 * LEN` does not wrap. -/
theorem test_oprep_largest : next? (exec .oprep { loaded with len := 0xffffffff }) (fun t =>
    t.gamma == 0xa339071282208bc1 && t.kw == ⟨2, 1⟩) = true := by decide

/-- The row writes N and V and runs no SINIT, so the working pair UNINIT reads is still 0. -/
theorem test_uninit : next? (exec .uninit { State.reset with v := ⟨1, 2, 3, 4⟩, n := ⟨3, 4⟩ }) (fun t =>
    t.v == ⟨0xe8575ec45d844ccf, 0x07c07fae0c7d5025, 0x9dda8a1dbbf40bfe, 0xa23ed5e70404b800⟩) = true := by decide

/-- The example of R135, with a working pair that is not 0. -/
theorem test_uninit_working_pair : next? (exec .uninit
    { State.reset with
      nw := ⟨0, 0x0400000000000000⟩
      v := ⟨0x24f3e974c546136d, 0x2627982169363572, 0x3494355d6711a0a4, 0x81c2f5c66b937916⟩ }) (fun t =>
    t.v == ⟨0x75657370656d6f73, 0x6d6f646e61726f64, 0x6172656e6567796c, 0x7365747962646574⟩) = true := by decide

/-! ### The two checks (section 2.5) -/

/-- AUTHCHK straight after reset fails. -/
theorem test_authchk_fails : next? (exec .authchk State.reset) (fun t => t.err == 2 && t.errinfo == 0x48) = true := by
  decide

/-- The master pair is used, not the working one. -/
theorem test_authchk_uses_master :
    next? (exec .authchk { State.reset with
      k := ⟨5, 6⟩, v := ⟨0x75657370656d6f73 ^^^ 5, 0x6d6f646e61726f64 ^^^ 6, 0x6172656e6567796c ^^^ 5, 0x7365747962646574 ^^^ 6⟩ })
      (·.err == 0) = true ∧
    next? (exec .authchk { State.reset with
      k := ⟨5, 6⟩, kw := ⟨6, 5⟩, v := ⟨0x75657370656d6f73 ^^^ 6, 0x6d6f646e61726f64 ^^^ 5, 0x6172656e6567796c ^^^ 6, 0x7365747962646574 ^^^ 5⟩ })
      (·.err == 2) = true := by decide

/-- The passing rows: counts 1 and 24, and a non-zero byte just before the padding. -/
theorem test_padchk_passes :
    next? (exec .padchk (padded (zeros 23 ++ [1]))) (fun t => t.err == 0 && t.padlen == 1) = true ∧
    next? (exec .padchk (padded (zeros 23 ++ [24]))) (fun t => t.err == 0 && t.padlen == 24) = true ∧
    next? (exec .padchk (padded (zeros 15 ++ [0xff] ++ zeros 7 ++ [8]))) (fun t => t.err == 0 && t.padlen == 8) = true := by
  decide

/-- The failing rows: counts 0, 25 and 255, and the first and last inspected byte. -/
theorem test_padchk_fails : ∀ l ∈
    [zeros 24, zeros 23 ++ [25], zeros 23 ++ [255], zeros 16 ++ [1] ++ zeros 6 ++ [8], zeros 22 ++ [0x80, 8]],
    next? (exec .padchk { padded l with padlen := 7 }) (fun t =>
      t.err == 3 && t.padlen == 0 && t.errinfo == 0x49 && t.buf == bytes l) = true := by decide

/-! ### The duplex engine (sections 1.1 and 2.7) -/

theorem test_seal : next? (exec .sealBuf hello) (· == sealedHello 0xe6) = true := by decide +kernel

theorem test_open : next? (exec .openBuf (sealedHello 0xe6)) (fun t =>
    t.err == 0 && t.padlen == 19 && t.v == ⟨0, 0, 0, 0⟩ && t.pos == ⟨0, 0⟩ && t.buf.take 24 == hello.buf &&
    t.buf.drop 24 == (sealedHello 0xe6).buf.drop 24) = true := by decide +kernel

/-- P4: one flipped bit. -/
theorem test_open_tampered : next? (exec .openBuf (sealedHello 0xe7)) (fun t =>
    t.err == 2 && t.errinfo == 0x51 && t.buf == bytes (zeros 56) && t.v == ⟨0, 0, 0, 0⟩ && t.len == 3) = true := by
  decide +kernel

/-- MALFORMED before BOUNDS. -/
theorem test_duplex_malformed :
    next? (exec .sealBuf { loaded with len := 2 }) (· == { loaded with len := 2, err := 1, errinfo := 0x50 }) = true ∧
    next? (exec .openBuf { loaded with len := 5 }) (· == { loaded with len := 5, err := 5, errinfo := 0x51 }) = true := by
  decide

/-! ### The host's accesses (section 2.8) and the codec (section 2.9) -/

theorem test_register_access :
    regRead loaded 0x07 = 0 ∧ regRead loaded 0x00 = 0 ∧ regRead loaded 0x18 = 8 ∧ regRead faultedState 0x01 = 4 ∧
    next? (regWrite 0x07 5 loaded) (· == loaded) = true ∧ next? (regWrite 0x06 5 loaded) (· == loaded) = true ∧
    next? (regWrite 0x03 0x1ffffffff loaded) (·.len == 0xffffffff) = true ∧
    next? (regWrite 0x05 7 loaded) (·.pos == ⟨3, 0⟩) = true := by decide

/-- R61: little-endian words; R65: the accesses that are not offered; R69: an unwritten byte. -/
theorem test_buffer_access :
    next? (bufWrite 8 8 0x0102030405060708 State.reset) (fun t => t.buf == [(8, 8), (9, 7), (10, 6), (11, 5), (12, 4), (13, 3), (14, 2), (15, 1)]) = true ∧
    bufRead 8 8 loaded = .next 0x0f0e0d0c0b0a0908 ∧ bufRead 4 8 loaded = .refused .misalignedAccess ∧
    bufRead 0 2 loaded = .refused .accessWidth ∧ bufRead 64 1 loaded = .refused .accessOutsideBuffer ∧
    bufRead 56 1 loaded = .refused .unwrittenByte := by
  refine ⟨by decide, rfl, rfl, rfl, rfl, rfl⟩

/-- The rows of the key table: empty, one byte, twelve zeros, fifteen bytes. -/
theorem test_key_words :
    keyWords [] = ⟨0, 0x1000000000000000⟩ ∧ keyWords [0x6b] = ⟨0x6b, 0x0f00000000000000⟩ ∧
    keyWords (zeros 12) = ⟨0, 0x0400000000000000⟩ ∧
    keyWords ((counting 16).drop 1) = ⟨0x0807060504030201, 0x010f0e0d0c0b0a09⟩ := by decide

/-- The rows of the length table. -/
theorem test_padded_lengths : [0, 1, 5, 7, 8, 15, 16, 17, 23, 24, 25, 31, 32, 1000].map paddedLength =
    [24, 24, 24, 24, 24, 24, 24, 24, 24, 32, 32, 32, 40, 1008] := by decide

/-- The expansions of R89. -/
theorem test_pseudo_statements :
    Statement.actions .permrOnce = [.regWrite 0x00 0x110] ∧
    Statement.actions (.ldkey 1 2) = [.regWrite 0x08 1, .regWrite 0x09 2] ∧
    Statement.actions .initSeq = [.regWrite 0x00 0x20, .regWrite 0x00 0x21, .regWrite 0x00 0x22] := by decide

/-! ### Witnesses: for each statement with hypotheses, a state that meets them

Clauses over a range are met at the ends of the range. -/

/-- What `next?` says. -/
theorem next_of {r : Result State} {p : State → Bool} (h : next? r p = true) : ∃ t, r = .next t ∧ p t = true := by
  cases r with
  | next t => exact ⟨t, rfl, h⟩
  | fault f => cases h
  | refused e => cases h

/-- `s` with the host statement `a` next. -/
def about (s : State) (a : HostAction) : State := { s with script := [a] }

/-- LEN 4, the largest that fits in eight words, and every byte of the buffer written. -/
def full : State := { loaded with len := 4, buf := bytes (counting 64) }

/-- LEN 3 and an eight-word buffer of which nothing is written. -/
def blank : State := { State.reset with len := 3 }

theorem witness_DecodeOfEncodeIsTheCommand : (Instr.permr 255).wf = true ∧ (Instr.openBuf).wf = true := by decide

theorem witness_DecodedWordIsTheEncoding : decode 0xff10 = .ok (.permr 255) := by decide

theorem witness_IllegalWordsRaiseIllegalOnly :
    loaded.err = 0 ∧
    illegalWord 0x03 ∧ illegalWord 0x52 ∧ illegalWord 0xff ∧ illegalWord 0x10000 ∧ illegalWord 0x80000010 ∧
    illegalWord 0x100 ∧ ¬ illegalWord 0xff10 := by
  refine ⟨by decide, ?_, ?_, ?_, ?_, ?_, ?_, ?_⟩ <;> unfold illegalWord unassigned <;> decide

theorem witness_StepRunsTheDecodedCommand :
    (about loaded (.regWrite 0x00 0x43)).script = [.regWrite 0x00 0x43] ∧ decode 0x43 = .ok .oprep := by decide

theorem witness_FaultedEngineIgnoresAllButClr :
    (about faultedState (.regWrite 0x00 0x101)).script = [.regWrite 0x00 0x101] ∧ faultedState.err ≠ 0 ∧
    (BitVec.setWidth 32 (0x101 : Word)) ≠ (1 : CmdWord) ∧ (BitVec.setWidth 32 (0x100000001 : Word)) = (1 : CmdWord) := by
  decide

theorem witness_OnlyClrOrResetReturnsFromFault :
    (∃ t, step (about faultedState (.regWrite 0x00 1)) = .next t ∧ (t.err == 0) = true) ∧
    (∃ t, step (about faultedState .reset) = .next t ∧ (t.err == 0) = true) ∧ faultedState.err ≠ 0 :=
  ⟨next_of (by decide), next_of (by decide), by decide⟩

theorem witness_CommandsRaiseOnlyTheirFaults :
    ∃ t, exec .authchk State.reset = .next t ∧ (t.err == 2) = true := next_of (by decide)

theorem witness_InterfaceFaultsChangeNothingElse :
    (let s : State := { loaded with len := 2 }; s.err = 0 ∧ s.len.toNat < 3) ∧
    (let s : State := { loaded with len := 5 }; s.err = 0 ∧ 3 ≤ s.len.toNat ∧ s.config.memWords.toNat < s.len.toNat + 4) ∧
    (let s : State := { loaded with len := 3, config := ⟨6, Config.sipcInitConst⟩ };
      s.err = 0 ∧ 3 ≤ s.len.toNat ∧ s.config.memWords.toNat < s.len.toNat + 4) ∧
    State.reset.len.toNat = 0 := by decide

theorem witness_SystemCommandsHaveTheirEffect : loaded.err = 0 ∧ faultedState.err ≠ 0 := by decide

theorem witness_ResetZeroesRegistersAndForgetsTheBuffer : (about faultedState .reset).script = [.reset] := by decide

theorem witness_FirstCommandAfterReset : Config.sipc.initConst ≠ ⟨0, 0, 0, 0⟩ := by decide

theorem witness_RegisterReadReturnsTheValue :
    (about loaded (.regRead 0x15)).script = [.regRead 0x15] ∧ (0x15 ≤ (0x17 : BitVec 5).toNat) ∧
    0x19 ≤ (0x1f : BitVec 5).toNat := by decide

theorem witness_RegisterWriteStoresTheLowBits :
    (about faultedState (.regWrite 0x03 0x100000007)).script = [.regWrite 0x03 0x100000007] ∧
    Reg.len.number = 0x03 ∧ Reg.len.writeWidth = some 32 ∧ Reg.padlen.writeWidth = none := by decide

theorem witness_HostBufferAccesses :
    (about loaded (.bufWrite 56 8 1)).script = [.bufWrite 56 8 1] ∧ 56 % 8 = 0 ∧ 56 + 8 ≤ 8 * loaded.config.memWords.toNat ∧
    63 + 1 ≤ 8 * loaded.config.memWords.toNat ∧ loaded.written 48 8 ∧ loaded.written 55 1 ∧ ¬ loaded.written 56 1 ∧
    ¬ loaded.written 56 8 ∧ 8 * loaded.config.memWords.toNat < 64 + 1 := by
  unfold State.written
  decide

theorem witness_BufferIsLittleEndian : loaded.buf.readLE 8 48 = some 0x3736353433323130 ∧ loaded.buf.readLE 1 55 = some 0x37 := by
  decide

theorem witness_OnlyUnwrittenBytesRefuseACommand : exec .encw blank = .refused .unwrittenByte := rfl

theorem witness_NoCommandTouchesBytesPastTheTag :
    (∀ a < loaded.sealedBytes, (Memory.write loaded.buf 56 7).read a = loaded.buf.read a) ∧
    (∃ t, exec .encw loaded = .next t ∧ (t.err == 0) = true) ∧
    (∀ a < blank.sealedBytes, Memory.read [(56, 7)] a = blank.buf.read a) ∧ exec .encw blank = .refused .unwrittenByte :=
  ⟨by decide, next_of (by decide), by decide, rfl⟩

theorem witness_StepKeepsTheInvariant :
    loaded.Inv ∧ ∃ t, step (about loaded (.regWrite 0x00 0x30)) = .next t ∧ (t.pos == ⟨0, 1⟩) = true := by
  refine ⟨?_, next_of (by decide)⟩
  unfold State.Inv
  decide

theorem witness_NoStepChangesTheParameters : ∃ t, step (about faultedState .reset) = .next t ∧ (t.err == 0) = true :=
  next_of (by decide)

theorem witness_OnlyClrWritesKeyNonceAndLength :
    Instr.scrub ≠ .clr ∧ ∃ t, exec .scrub loaded = .next t ∧ (t.k == ⟨1, 2⟩) = true := ⟨by decide, next_of (by decide)⟩

theorem witness_CommandsWriteOnlyTheirRegisters :
    (∃ t, exec .sttag loaded = .next t ∧ (t.err == 0) = true) ∧ (∃ t, exec .oprep loaded = .next t ∧ (t.err == 0) = true) ∧
    ∃ t, exec .fin loaded = .next t ∧ (t.err == 0) = true :=
  ⟨next_of (by decide), next_of (by decide), next_of (by decide)⟩

theorem witness_ArithmeticIsThatOfTheSpec : 0 ≤ 63 ∧ 63 ≤ 63 := by decide

theorem witness_PermCommandsApplyTheirRounds : 255 < 256 ∧ roundStart.err = 0 := by decide

theorem witness_SinitBuildsTheKeyedState : loaded.err = 0 := by decide

theorem witness_NabsAbsorbsBothNonceWords :
    let s : State := { loaded with nw := ⟨3, 4⟩ }
    s.err = 0 ∧ ∃ x y : Sponge, x = permR ⟨s.v.v0, s.v.v1, s.v.v2, s.v.v3 ^^^ s.nw.w1⟩ ∧
      y = permR ⟨x.v0, x.v1, x.v2, x.v3 ^^^ s.nw.w2⟩ := ⟨by decide, _, _, rfl, rfl⟩

theorem witness_DsepSeparatesTheMode : loaded.err = 0 := by decide

theorem witness_InitIsItsThreeSteps :
    let s' : State := { loaded with v := ⟨1, 2, 3, 4⟩, gamma := 9 }
    loaded.err = 0 ∧ s'.err = 0 ∧ loaded.k = s'.k ∧ loaded.n = s'.n ∧ loaded.config = s'.config ∧
    (∃ t, exec .init loaded = .next t ∧ (t.err == 0) = true) ∧ ∃ t, exec .init s' = .next t ∧ (t.err == 0) = true :=
  ⟨by decide, by decide, by decide, by decide, by decide, next_of (by decide), next_of (by decide)⟩

/-- The last word of the last pass, the end, and the position after the start. -/
theorem witness_NextAndPrevAreInverse :
    ((⟨2, 2⟩ : Position).pass.toNat < 3 ∧ (⟨2, 2⟩ : Position).idx.toNat < (3 : BitVec 32).toNat) ∧
    ((⟨3, 0⟩ : Position).valid 3 = true ∧ (⟨3, 0⟩ : Position) ≠ ⟨0, 0⟩) ∧
    ((⟨0, 1⟩ : Position).valid 3 = true ∧ (⟨0, 1⟩ : Position) ≠ ⟨0, 0⟩) := by decide

/-- The first and the last word; LEN 0, the end and a position that is not valid. -/
theorem witness_EncwStepsOneWord :
    (∀ s ∈ [loaded, { loaded with pos := ⟨2, 2⟩ }, full, { full with pos := ⟨2, 3⟩ }],
      s.err = 0 ∧ s.bufOK = true ∧ s.pos.pass.toNat < 3 ∧ s.pos.idx.toNat < s.len.toNat ∧
      s.written (8 * s.pos.idx.toNat) 8) ∧
    State.reset.bufOK = false ∧ (⟨0, 3⟩ : Position).valid 3 = false ∧ (⟨3, 0⟩ : Position).pass = 3 := by
  simp only [List.forall_mem_cons, State.written]
  decide

theorem witness_DecwStepsOneWordBack :
    (∀ x ∈ [(({ loaded with pos := ⟨3, 0⟩ } : State), (⟨2, 2⟩ : Position)), ({ loaded with pos := ⟨0, 1⟩ }, ⟨0, 0⟩),
        ({ full with pos := ⟨1, 0⟩ }, ⟨0, 3⟩)],
      x.1.err = 0 ∧ x.1.bufOK = true ∧ x.1.pos.valid x.1.len = true ∧ x.1.pos ≠ ⟨0, 0⟩ ∧
      x.2 = (if 0 < x.1.pos.idx.toNat then ⟨x.1.pos.pass, x.1.pos.idx - 1⟩ else ⟨x.1.pos.pass - 1, x.1.len - 1⟩) ∧
      x.1.written (8 * x.2.idx.toNat) 8) ∧
    State.reset.bufOK = false ∧ (⟨3, 1⟩ : Position).valid 3 = false ∧ loaded.pos = ⟨0, 0⟩ := by
  simp only [List.forall_mem_cons, State.written]
  decide

theorem witness_WordStepsAreInverse :
    handSet.err = 0 ∧ handSet.buf.wf ∧ handSetAfter.err = 0 ∧
    (∃ t, exec .encw handSet = .next t ∧ (t == handSetAfter) = true) ∧
    ∃ t, exec .decw handSetAfter = .next t ∧ (t == handSet) = true :=
  ⟨by decide, by decide, by decide, next_of (by decide), next_of (by decide)⟩

/-- From the start, nine steps are left; from the end, none. -/
theorem witness_EncloopRunsTheRemainingSteps :
    (loaded.err = 0 ∧ loaded.stepReady ∧ loaded.pos.ordinal loaded.len + 9 = 3 * loaded.len.toNat ∧
      loaded.written 0 (8 * loaded.len.toNat)) ∧
    (let s : State := { loaded with pos := ⟨3, 0⟩ }; s.stepReady ∧ s.pos.ordinal s.len + 0 = 3 * s.len.toNat) ∧
    State.reset.bufOK = false ∧ (⟨3, 1⟩ : Position).valid 3 = false := by
  unfold State.stepReady State.written
  decide

theorem witness_DecloopRunsBackToTheStart :
    (let s : State := { loaded with pos := ⟨3, 0⟩ };
      s.err = 0 ∧ s.stepReady ∧ 9 = s.pos.ordinal s.len ∧ s.written 0 (8 * s.len.toNat)) ∧
    (loaded.stepReady ∧ 0 = loaded.pos.ordinal loaded.len) ∧
    (loaded.bufOK = true ∧ ∃ t, execAll [.oprep, .decloop] loaded = .next t ∧ (t.gamma == 0) = true) ∧
    State.reset.bufOK = false := by
  unfold State.stepReady State.written
  exact ⟨by decide, by decide, ⟨by decide, next_of (by decide +kernel)⟩, by decide⟩

theorem witness_LoopsAreInverse :
    loaded.err = 0 ∧ loaded.buf.wf ∧ loaded.bufOK = true ∧ loaded.written 0 (8 * loaded.len.toNat) ∧
    loaded.pos = ⟨0, 0⟩ ∧ ({ loaded with pos := ⟨3, 0⟩ } : State).pos = ⟨3, 0⟩ := by
  unfold State.written
  decide

theorem witness_WordStepBookkeeping :
    loaded.err = 0 ∧ loaded.bufOK = true ∧ loaded.written 0 (8 * loaded.len.toNat) ∧ 0 ≤ 3 * loaded.len.toNat ∧
    9 ≤ 3 * loaded.len.toNat := by
  unfold State.written
  decide

theorem witness_FinMakesTheTag :
    finStart.err = 0 ∧ ∃ r : Sponge, r = permR (permR (permR (permR ⟨finStart.v.v0 ^^^ (finStart.nw.w2 + 0xfe), finStart.v.v1 ^^^ finStart.kw.w1, finStart.v.v2 ^^^ (finStart.nw.w1 + finStart.gamma), finStart.v.v3 ^^^ finStart.kw.w2⟩))) :=
  ⟨by decide, _, rfl⟩

theorem witness_UnfinUndoesTheTag :
    finStart.err = 0 ∧ ∃ r : Sponge, r = permL (permL (permL (permL ⟨finStart.v.v0 ^^^ finStart.nw.w2, finStart.v.v1 ^^^ (finStart.kw.w1 + finStart.kw.w2), finStart.v.v2 ^^^ finStart.nw.w1, finStart.v.v3 ^^^ (finStart.kw.w2 + 2 * finStart.kw.w1)⟩))) :=
  ⟨by decide, _, rfl⟩

theorem witness_UninitUndoesInitialisation :
    finStart.err = 0 ∧ ∃ x y : Sponge, x = permL ⟨finStart.v.v0 ^^^ 0xfd, finStart.v.v1, finStart.v.v2, finStart.v.v3⟩ ∧
      y = permL ⟨x.v0, x.v1, x.v2, x.v3 ^^^ finStart.nw.w2⟩ := ⟨by decide, _, _, rfl, rfl⟩

theorem witness_OprepSetsEndOfLoopValues : loaded.err = 0 ∧ State.reset.err = 0 := by decide

/-- The largest LEN that fits, and the next. -/
theorem witness_SttagStoresTheTag :
    full.err = 0 ∧ full.bufOK = true ∧ ({ full with len := 5 } : State).bufOK = false := by decide

theorem witness_LdtagLoadsTheTag :
    full.err = 0 ∧ full.bufOK = true ∧ full.written (8 * full.len.toNat) 32 ∧
    ({ full with len := 5 } : State).bufOK = false := by
  unfold State.written
  decide

theorem witness_FinalisationIsInvertible :
    full.err = 0 ∧ full.bufOK = true ∧ full.written (8 * full.len.toNat) 32 := by
  unfold State.written
  decide

theorem witness_AuthchkComparesAllFourWords :
    (let s : State := { State.reset with v := ⟨0x75657370656d6f73, 0x6d6f646e61726f64, 0x6172656e6567796c, 0x7365747962646574⟩ };
      s.err = 0 ∧ s.v.v0 = s.config.initConst.c0 ^^^ s.k.w1 ∧ s.v.v1 = s.config.initConst.c1 ^^^ s.k.w2 ∧
      s.v.v2 = s.config.initConst.c2 ^^^ s.k.w1 ∧ s.v.v3 = s.config.initConst.c3 ^^^ s.k.w2) ∧
    ¬ State.reset.v.v0 = State.reset.config.initConst.c0 ^^^ State.reset.k.w1 := by decide

theorem witness_BothAuthenticationChecksAgree :
    let s : State := { loaded with nw := loaded.n }
    s.err = 0 ∧ s.nw = s.n ∧ (∃ t, exec .uninit s = .next t ∧ (t.err == 0) = true) ∧
      ∃ u, exec .init s = .next u ∧ (u.err == 0) = true :=
  ⟨by decide, by decide, next_of (by decide), next_of (by decide)⟩

/-- Counts 1, `8 * LEN`, 0 and `8 * LEN + 1`, and a bad byte among the padding. -/
theorem witness_PadchkChecksThePadding :
    (∀ x ∈ [(padded (zeros 23 ++ [1]), (1 : Byte)), (padded (zeros 23 ++ [24]), 24)],
      x.1.err = 0 ∧ x.1.bufOK = true ∧ x.1.buf.read (8 * x.1.len.toNat - 1) = some x.2 ∧ 1 ≤ x.2.toNat ∧
      x.2.toNat ≤ 8 * x.1.len.toNat ∧
      ∀ a, 8 * x.1.len.toNat - x.2.toNat ≤ a → a < 8 * x.1.len.toNat - 1 → x.1.buf.read a = some 0) ∧
    (padded (zeros 24)).buf.read 23 = some 0 ∧ 24 < (25 : Byte).toNat ∧
    (let s := padded (zeros 22 ++ [0x80, 2]);
      s.written 22 2 ∧ 22 ≤ 22 ∧ 22 < 8 * s.len.toNat - 1 ∧ s.buf.read 22 ≠ some 0) ∧
    State.reset.bufOK = false := by
  unfold State.written
  simp only [List.forall_mem_cons]
  decide

/-- LEN 3 and 4, the least and the greatest that fit; LEN 2 and 5, which do not. -/
theorem witness_SealIsItsPipeline :
    hello.err = 0 ∧ hello.messageFits ∧ hello.written 0 (8 * hello.len.toNat) ∧ full.messageFits ∧
    ({ full with len := 2 } : State).len.toNat < 3 ∧
    (let s : State := { full with len := 5 }; 3 ≤ s.len.toNat ∧ s.config.memWords.toNat < s.len.toNat + 4) := by
  unfold State.messageFits State.written
  decide

/-- The state the inverse pipeline recovers from the ciphertext of section 1.1. -/
def openedHello : State :=
  { sealedHello 0xe6 with
    v := ⟨0x75657370656d6f73, 0x6d6f646e61726f64, 0x6172656e6567796c, 0x7365747962646574⟩
    nw := ⟨0, 0x0400000000000000⟩
    buf := hello.buf ++ (sealedHello 0xe6).buf.drop 24 }

/-- A ciphertext of good padding, and a tampered one. -/
theorem witness_OpenVerifiesBeforeItReturns :
    (sealedHello 0xe6).err = 0 ∧ (sealedHello 0xe6).messageFits ∧ (sealedHello 0xe6).written 0 56 ∧
    (∃ u, execAll [.ldtag, .oprep, .unfin, .decloop, .uninit] (sealedHello 0xe6) = .next u ∧ (u == openedHello) = true) ∧
    openedHello.v = (sealedHello 0xe6).keyedSponge ∧ openedHello.paddedBy 19 ∧
    (∃ u, execAll [.ldtag, .oprep, .unfin, .decloop, .uninit] (sealedHello 0xe7) = .next u ∧
      (u.v != (sealedHello 0xe7).keyedSponge) = true) ∧
    ({ full with len := 2 } : State).len.toNat < 3 ∧
    (let s : State := { full with len := 5 }; 3 ≤ s.len.toNat ∧ s.config.memWords.toNat < s.len.toNat + 4) := by
  unfold State.messageFits State.written State.paddedBy
  exact ⟨by decide, by decide, by decide, next_of (by decide +kernel), by decide, by decide, next_of (by decide +kernel),
    by decide, by decide⟩

/-- Twenty-four zero bytes, sealed and run back: the state is authentic and its padding is not good. -/
theorem witness_OpenVerifiesBeforeItReturns_pad :
    next? (exec .sealBuf (padded (zeros 24))) (fun t =>
      next? (execAll [.ldtag, .oprep, .unfin, .decloop, .uninit] t) (fun u =>
        u.v == t.keyedSponge && u.buf.read 23 == some 0)) = true := by decide +kernel

theorem witness_OpenOfSealRestoresTheMessage :
    hello.err = 0 ∧ hello.messageFits ∧ hello.written 0 (8 * hello.len.toNat) ∧ hello.paddedBy 19 ∧
    ∀ b, ¬ (padded (zeros 24)).paddedBy b := by
  refine ⟨by decide, by unfold State.messageFits; decide, by unfold State.written; decide,
    by unfold State.paddedBy; decide, fun b h => ?_⟩
  have h0 : (padded (zeros 24)).buf.read ((padded (zeros 24)).messageBytes - 1) = some 0 := by decide
  have hb : (0 : Byte) = b := Option.some.inj (h0.symm.trans h.1)
  have h1 := h.2.1
  rw [← hb] at h1
  exact absurd h1 (by decide)

theorem witness_SealAndOpenAreDeterministic :
    let s' : State := { hello with padlen := 7, v := ⟨1, 2, 3, 4⟩, buf := hello.buf ++ [(60, 9)] }
    hello.err = 0 ∧ s'.err = 0 ∧ hello.k = s'.k ∧ hello.n = s'.n ∧ hello.len = s'.len ∧ hello.config = s'.config ∧
    (∀ a < 8 * hello.len.toNat, hello.buf.read a = s'.buf.read a) ∧ hello.messageFits ∧
    (∃ t, exec .sealBuf hello = .next t ∧ (t.err == 0) = true) ∧ (∃ t, exec .sealBuf s' = .next t ∧ (t.err == 0) = true) ∧
    (∀ a < 8 * (hello.len.toNat + 4),
      (sealedHello 0xe6).buf.read a = ({ sealedHello 0xe6 with padlen := 7 } : State).buf.read a) ∧
    (∃ t, exec .openBuf (sealedHello 0xe6) = .next t ∧ (t.err == 0) = true) ∧
    ∃ t, exec .openBuf { sealedHello 0xe6 with padlen := 7 } = .next t ∧ (t.err == 0) = true := by
  unfold State.messageFits
  exact ⟨by decide, by decide, by decide, by decide, by decide, by decide, by decide, by decide,
    next_of (by decide +kernel), next_of (by decide +kernel), fun _ _ => rfl, next_of (by decide +kernel),
    next_of (by decide +kernel)⟩

theorem witness_NormalisedKeysAreSixteenBytes : 15 < 16 ∧ (zeros 16).length = 16 ∧ (zeros 15).length < 16 := by decide

theorem witness_PaddingIsTheFormulas : (counting 5).length < paddedLength 5 - 1 := by decide

/-- The empty message, and the longest that fits in eight words. -/
theorem witness_OpenBytesOfSealBytes :
    paddedLength ([] : List Byte).length / 8 + 4 ≤ State.reset.config.memWords.toNat ∧
    paddedLength (zeros 31).length / 8 + 4 ≤ State.reset.config.memWords.toNat ∧
    loaded.config = State.reset.config := by decide

theorem witness_OpenBytesGuardsTheLength : (zeros 57).length % 8 ≠ 0 ∧ (zeros 48).length < 56 := by decide

theorem witness_UncheckedCommandsComplete : loaded.err = 0 := by decide

end Sys2Proof.Tests
end

section
/-! PROOFS. The arithmetic primitives of `00_scope.md` R13: the words' values as naturals, and the rotations. -/

namespace Sys2Proof.Machine

theorem shr64_toNat (a : Word) (n : Nat) : (shr64 a n).toNat = a.toNat / 2 ^ n := by
  rw [shr64, BitVec.toNat_ushiftRight, Nat.shiftRight_eq_div_pow]

/-- The top six bits of GAMMA are a legal rotation count (R13). -/
theorem shr64_58_toNat_le (a : Word) : (shr64 a 58).toNat ≤ 63 := by
  rw [shr64_toNat]
  have ha : a.toNat < 2 ^ 64 := a.isLt
  omega

/-- The difference of R13 as an integer, where `BitVec.toNat_sub` adds the modulus to stay in the naturals. -/
theorem word_toNat_sub (a b : Word) : ((a - b).toNat : Int) = ((a.toNat : Int) - (b.toNat : Int)) % 2 ^ 64 := by
  rw [BitVec.toNat_sub]
  have hb : b.toNat < 2 ^ 64 := b.isLt
  omega

/-- One formula for all legal counts: at 0 the second summand is 0. The rotation joins its two parts with a bitwise
or; they add up because the low `n` bits of the first are zero and the second is below `2 ^ n`. -/
theorem rotl64_toNat (a : Word) {n : Nat} (hn : n ≤ 63) :
    (rotl64 a n).toNat = a.toNat * 2 ^ n % 2 ^ 64 + a.toNat / 2 ^ (64 - n) := by
  have hpow : 2 ^ (64 - n) * 2 ^ n = 2 ^ 64 := by rw [← Nat.pow_add, Nat.sub_add_cancel (by omega)]
  have hhigh : a.toNat * 2 ^ n % 2 ^ 64 = 2 ^ n * (a.toNat % 2 ^ (64 - n)) := by
    rw [← hpow, Nat.mul_mod_mul_right, Nat.mul_comm]
  have hlow : a.toNat / 2 ^ (64 - n) < 2 ^ n := Nat.div_lt_of_lt_mul (hpow.symm ▸ a.isLt)
  calc (rotl64 a n).toNat
      = a.toNat * 2 ^ n % 2 ^ 64 ||| a.toNat / 2 ^ (64 - n) := by
        rw [rotl64, BitVec.toNat_rotateLeft, Nat.mod_eq_of_lt (show n < 64 by omega), Nat.shiftLeft_eq,
          Nat.shiftRight_eq_div_pow]
    _ = a.toNat * 2 ^ n % 2 ^ 64 + a.toNat / 2 ^ (64 - n) := by
        rw [hhigh, Nat.two_pow_add_eq_or_of_lt hlow]

/-- A rotation count of 0 is the identity (R13). -/
@[simp] theorem rotl64_zero (a : Word) : rotl64 a 0 = a := by
  apply BitVec.eq_of_toNat_eq
  rw [rotl64_toNat a (by omega)]
  have ha : a.toNat < 2 ^ 64 := a.isLt
  omega

/-- Each bit of a rotated word comes from `n` places below it, or wraps round to the top. -/
theorem getLsbD_rotl64 (a : Word) {n i : Nat} (hn : n ≤ 63) (hi : i < 64) :
    (rotl64 a n).getLsbD i = if i < n then a.getLsbD (64 - n + i) else a.getLsbD (i - n) := by
  rw [rotl64, BitVec.getLsbD_rotateLeft_of_le (by omega), Bool.cond_decide, decide_eq_true hi, Bool.true_and]

/-- Two rotations by counts that add up to a whole turn cancel. -/
theorem rotl64_rotl64_of_add_eq (a : Word) {n k : Nat} (hn : n ≤ 63) (hk : k ≤ 63) (hsum : n + k = 64) :
    rotl64 (rotl64 a n) k = a := by
  apply BitVec.eq_of_getLsbD_eq
  intro i hi
  rw [getLsbD_rotl64 _ hk hi]
  split
  · rw [getLsbD_rotl64 a hn (by omega), if_neg (by omega), show 64 - k + i - n = i by omega]
  · rw [getLsbD_rotl64 a hn (by omega), if_pos (by omega), show 64 - n + (i - k) = i by omega]

@[simp] theorem rotr64_zero (a : Word) : rotr64 a 0 = a := rotl64_zero a

/-- For a count that is not 0, the right rotation is the left rotation by the rest of the turn. -/
theorem rotr64_of_pos (a : Word) {n : Nat} (hpos : 0 < n) : rotr64 a n = rotl64 a (64 - n) := by
  rw [rotr64, Nat.mod_eq_of_lt (by omega)]

theorem rotr64_rotl64 (a : Word) {n : Nat} (hn : n ≤ 63) : rotr64 (rotl64 a n) n = a := by
  obtain rfl | hpos := Nat.eq_zero_or_pos n
  · simp
  · rw [rotr64_of_pos _ hpos, rotl64_rotl64_of_add_eq a hn (by omega) (by omega)]

theorem rotl64_rotr64 (a : Word) {n : Nat} (hn : n ≤ 63) : rotl64 (rotr64 a n) n = a := by
  obtain rfl | hpos := Nat.eq_zero_or_pos n
  · simp
  · rw [rotr64_of_pos _ hpos, rotl64_rotl64_of_add_eq a (by omega) hn (by omega)]

/-- Settles O25: the rotation's value formula and its two inverses are the work, and the rest is what `BitVec` says of
its operations. -/
theorem arithmeticIsThatOfTheSpec : Obligations.ArithmeticIsThatOfTheSpec := by
  intro a b n hn
  have hrot : (rotl64 a n).toNat =
      if n = 0 then a.toNat else a.toNat * 2 ^ n % 2 ^ 64 + a.toNat / 2 ^ (64 - n) := by
    split
    · next hzero => rw [hzero, rotl64_zero]
    · exact rotl64_toNat a hn
  exact ⟨BitVec.toNat_add a b, word_toNat_sub a b, BitVec.toNat_mul a b, fun _ _ => BitVec.getLsbD_xor,
    fun _ _ => BitVec.getLsbD_or, shr64_toNat a n, hrot, rfl, rotr64_rotl64 a hn, rotl64_rotr64 a hn,
    shr64_58_toNat_le a⟩

end Sys2Proof.Machine
end

section
/-! PROOFS. The padding of the host codec (`47_host_codec.md` R172, R173): its length, its bytes, and its undoing. -/

namespace Sys2Proof.Machine

/-! ### Lengths -/

theorem roundUp8_mod (x : Nat) : roundUp8 x % 8 = 0 := Nat.mul_mod_left _ _

theorem le_roundUp8 (x : Nat) : x ≤ roundUp8 x := by
  unfold roundUp8
  omega

theorem roundUp8_lt (x : Nat) : roundUp8 x < x + 8 := by
  unfold roundUp8
  omega

theorem lt_paddedLength (l : Nat) : l < paddedLength l :=
  calc l < max (l + 1) 24 := by omega
    _ ≤ paddedLength l := le_roundUp8 _

/-- A short message is padded to 24 bytes, which is at most 24 more; a longer one gains at most 8. -/
theorem paddedLength_le (l : Nat) : paddedLength l ≤ l + 24 := by
  obtain hshort | hlong := Nat.lt_or_ge l 24
  · have h24 : paddedLength l = 24 := by rw [paddedLength, Nat.max_eq_right (by omega), roundUp8]
    omega
  · have hlt : paddedLength l < l + 1 + 8 := by
      rw [paddedLength, Nat.max_eq_left (by omega)]
      exact roundUp8_lt (l + 1)
    omega

/-! ### The padded message -/

@[simp] theorem padMessage_length (m : List Byte) : (padMessage m).length = paddedLength m.length := by
  have hlt := lt_paddedLength m.length
  simp only [padMessage, List.length_append, List.length_replicate, List.length_singleton]
  omega

theorem padMessage_getElem?_message (m : List Byte) {i : Nat} (hi : i < m.length) : (padMessage m)[i]? = m[i]? := by
  rw [padMessage, List.append_assoc, List.getElem?_append_left hi]

theorem padMessage_getElem?_zeros (m : List Byte) {i : Nat} (hm : m.length ≤ i) (hi : i < paddedLength m.length - 1) :
    (padMessage m)[i]? = some 0 := by
  rw [padMessage, List.append_assoc, List.getElem?_append_right hm,
    List.getElem?_append_left (by rw [List.length_replicate]; omega), List.getElem?_replicate_of_lt (by omega)]

theorem padMessage_getElem?_last (m : List Byte) : (padMessage m)[paddedLength m.length - 1]? =
    some (BitVec.ofNat 8 (paddedLength m.length - m.length)) := by
  have hlt := lt_paddedLength m.length
  have hlast : paddedLength m.length - 1 =
      (m ++ List.replicate (paddedLength m.length - m.length - 1) (0 : Byte)).length := by
    rw [List.length_append, List.length_replicate]
    omega
  rw [padMessage, hlast, List.getElem?_concat_length]

/-- Stripping the count `padMessage` wrote gives the message back (R173). -/
theorem unpad_padMessage (m : List Byte) : unpad (padMessage m) (paddedLength m.length - m.length) = m := by
  have hlt := lt_paddedLength m.length
  rw [unpad, padMessage_length, Nat.sub_sub_self hlt.le, padMessage, List.append_assoc, List.take_left]

/-- Settles O57: the bounds of the formula, then the padded message place by place. -/
theorem paddingIsTheFormulas : Obligations.PaddingIsTheFormulas := by
  intro m
  have hlt := lt_paddedLength m.length
  have hle := paddedLength_le m.length
  exact ⟨padMessage_length m, roundUp8_mod _, le_roundUp8 _, roundUp8_lt _, by omega, by omega,
    fun _ hi => padMessage_getElem?_message m hi, fun _ hm hi => padMessage_getElem?_zeros m hm hi,
    padMessage_getElem?_last m, unpad_padMessage m⟩

end Sys2Proof.Machine
end

section
/-! PROOFS. The step at each host action, and the register map (`10_state.md` R36 to R41): which number is which
register, what a read returns, what a write stores and leaves alone. -/

namespace Sys2Proof.Machine

/-! ### The step -/

/-- The step performs the first action of the script on the state whose script has moved past it. -/
theorem step_of_script {s : State} {a : HostAction} {rest : List HostAction} (h : s.script = a :: rest) :
    step s = perform a { s with script := rest } := by
  rw [step, hostStep, h]

theorem step_of_script_nil {s : State} (h : s.script = []) : step s = .next s := by
  rw [step, hostStep, h]

theorem perform_regWrite (r : BitVec 5) (v : Word) (s : State) : perform (.regWrite r v) s = regWrite r v s := rfl

/-! ### Register numbers -/

@[simp] theorem regOf_number (reg : Reg) : regOf reg.number = some reg := by
  cases reg <;> rfl

/-- `regOf` inverts the numbering: a number stands for at most the one register that has it. -/
theorem number_of_regOf {r : BitVec 5} {reg : Reg} (h : regOf r = some reg) : reg.number = r := by
  have hmap : ∀ r : BitVec 5, ∀ reg ∈ regOf r, reg.number = r := by decide
  exact hmap r reg h

/-- The reserved numbers of R38. -/
theorem regOf_reserved {r : BitVec 5}
    (h : r.toNat = 0x07 ∨ (0x15 ≤ r.toNat ∧ r.toNat ≤ 0x17) ∨ 0x19 ≤ r.toNat) : regOf r = none := by
  have hmap : ∀ r : BitVec 5, (r.toNat = 0x07 ∨ (0x15 ≤ r.toNat ∧ r.toNat ≤ 0x17) ∨ 0x19 ≤ r.toNat) →
      regOf r = none := by decide
  exact hmap r h

/-! ### Reads -/

theorem regRead_number (s : State) (reg : Reg) : regRead s reg.number = s.regValue reg := by
  rw [regRead, regOf_number]

theorem regRead_of_regOf_none {r : BitVec 5} (h : regOf r = none) (s : State) : regRead s r = 0 := by
  rw [regRead, h]

/-- STATUS is widened twice, to its register's 32 bits and to the 64 bits of a read. -/
theorem regValue_status (s : State) : s.regValue .status = s.err.setWidth 64 :=
  BitVec.setWidth_setWidth (by decide)

/-! ### Commands -/

theorem submit_of_decode_ok {w : CmdWord} {i : Instr} (h : decode w = .ok i) (s : State) : submit w s = exec i s := by
  rw [submit, h]

theorem submit_of_decode_error {w : CmdWord} {e : Reject} (h : decode w = .error e) (s : State) :
    submit w s = accept s fun s => .next (takeFault .illegal w s) := by
  rw [submit, h]

theorem regWrite_cmd (v : Word) (s : State) : regWrite 0x00 v s = submit (v.setWidth 32) s := rfl

/-- A command word survives its way through a 64-bit register write. -/
theorem cmdWord_setWidth (w : CmdWord) : ((BitVec.ofNat 32 (w.toNat % 2 ^ 32)).setWidth 64).setWidth 32 = w := by
  rw [Nat.mod_eq_of_lt w.isLt, BitVec.ofNat_toNat, BitVec.setWidth_eq, BitVec.setWidth_setWidth_of_le w (by decide),
    BitVec.setWidth_eq]

/-! ### Writes -/

/-- The script is no register. -/
theorem regValue_setScript (s : State) (script : List HostAction) (reg : Reg) :
    ({ s with script := script } : State).regValue reg = s.regValue reg := by
  cases reg <;> rfl

theorem regWrite_of_regOf_some {r : BitVec 5} {reg : Reg} (h : regOf r = some reg) (v : Word) (s : State) :
    regWrite r v s = setReg reg v s := by
  rw [regWrite, h]

theorem regWrite_of_regOf_none {r : BitVec 5} (h : regOf r = none) (v : Word) (s : State) :
    regWrite r v s = .next s := by
  rw [regWrite, h]

section
variable {reg : Reg} {v : Word} {s t : State}

/-- A write to a register other than CMD completes, whatever STATUS.ERR holds (R41). -/
theorem setReg_isNext (hcmd : reg ≠ .cmd) (v : Word) (s : State) : ∃ t, setReg reg v s = .next t := by
  cases reg with
  | cmd => exact absurd rfl hcmd
  | _ => exact ⟨_, rfl⟩

/-- What of the state has no register number stays. -/
theorem setReg_frame (hcmd : reg ≠ .cmd) (h : setReg reg v s = .next t) :
    t.buf = s.buf ∧ t.config = s.config ∧ t.script = s.script ∧ t.observed = s.observed := by
  cases reg with
  | cmd => exact absurd rfl hcmd
  | _ =>
    cases h
    exact ⟨rfl, rfl, rfl, rfl⟩

/-- Only the register written can read differently afterwards. -/
theorem regValue_setReg_other (hcmd : reg ≠ .cmd) (h : setReg reg v s = .next t) {other : Reg} (hne : other ≠ reg) :
    t.regValue other = s.regValue other := by
  have htable : t.regValue other = if other = reg then t.regValue reg else s.regValue other := by
    cases reg with
    | cmd => exact absurd rfl hcmd
    | _ => cases h; cases other <;> rfl
  rw [htable, if_neg hne]

/-- The register written reads the low bits it has, or as before where it is read-only (R41). -/
theorem regValue_setReg_same (hcmd : reg ≠ .cmd) (h : setReg reg v s = .next t) :
    t.regValue reg = match reg.writeWidth with
      | some width => BitVec.ofNat 64 (v.toNat % 2 ^ width)
      | none => s.regValue reg := by
  have narrow : ∀ width, (v.setWidth width).setWidth 64 = BitVec.ofNat 64 (v.toNat % 2 ^ width) := fun width =>
    BitVec.eq_of_toNat_eq (by simp only [BitVec.toNat_setWidth, BitVec.toNat_ofNat])
  have whole : v = BitVec.ofNat 64 (v.toNat % 2 ^ 64) := by
    rw [Nat.mod_eq_of_lt v.isLt, BitVec.ofNat_toNat, BitVec.setWidth_eq]
  cases reg with
  | cmd => exact absurd rfl hcmd
  | status | errinfo | padlen | cap =>
    cases h
    rfl
  | len | idx | pass =>
    cases h
    exact narrow _
  | _ =>
    cases h
    exact whole

end

/-! ### The obligations -/

/-- Settles O5: the script's first action is the write to CMD, and the word decodes as it was written. -/
theorem stepRunsTheDecodedCommand : Obligations.StepRunsTheDecodedCommand := by
  have hrun : ∀ (s : State) (v : Word) (rest : List HostAction) (i : Instr), s.script = .regWrite 0x00 v :: rest →
      decode (v.setWidth 32) = .ok i → step s = exec i { s with script := rest } := by
    intro s v rest i hs hi
    rw [step_of_script hs, perform_regWrite, regWrite_cmd, submit_of_decode_ok hi]
  refine ⟨hrun, fun s w i hi => ?_⟩
  exact hrun (s.withFetchWord 32 w.toNat) _ s.script i rfl (by rw [cmdWord_setWidth, hi])

/-- Settles O13: the value read is the register map's, number by number. -/
theorem registerReadReturnsTheValue : Obligations.RegisterReadReturnsTheValue := by
  intro s r rest hs
  have hreg : ∀ reg : Reg, r = reg.number → regRead s r = s.regValue reg := fun reg h => h ▸ regRead_number s reg
  have hreserved : (r.toNat = 0x07 ∨ (0x15 ≤ r.toNat ∧ r.toNat ≤ 0x17) ∨ 0x19 ≤ r.toNat) → regRead s r = 0 :=
    fun h => regRead_of_regOf_none (regOf_reserved h) s
  refine ⟨regRead s r, step_of_script hs, ?_⟩
  exact ⟨hreg .cmd, fun h => (hreg .status h).trans (regValue_status s), hreg .errinfo, hreg .len, hreg .idx,
    hreg .pass, hreg .padlen, fun h => hreserved (.inl (congrArg BitVec.toNat h)), hreg .k1, hreg .k2, hreg .n1,
    hreg .n2, hreg .kw1, hreg .kw2, hreg .nw1, hreg .nw2, hreg .v0, hreg .v1, hreg .v2, hreg .v3, hreg .gamma,
    fun h => hreserved (.inr (.inl h)), hreg .cap, fun h => hreserved (.inr (.inr h))⟩

/-- Settles O14: a reserved number changes nothing, and any other but CMD's is a write to its one register. -/
theorem registerWriteStoresTheLowBits : Obligations.RegisterWriteStoresTheLowBits := by
  intro s r v rest hs
  rw [step_of_script hs, perform_regWrite]
  refine ⟨fun h => h ▸ regWrite_cmd v _, fun hr => ?_⟩
  cases hof : regOf r with
  | none =>
    have hno : ∀ reg : Reg, reg.number ≠ r := fun reg h => by
      rw [← h, regOf_number] at hof
      cases hof
    exact ⟨_, regWrite_of_regOf_none hof _ _, rfl, rfl, rfl, rfl, fun reg => (if_neg (hno reg)).symm⟩
  | some target =>
    have hnum : target.number = r := number_of_regOf hof
    have hcmd : target ≠ .cmd := fun h => hr (by rw [← hnum, h]; rfl)
    obtain ⟨t, ht⟩ := setReg_isNext hcmd v { s with script := rest }
    obtain ⟨hbuf, hconfig, hscript, hobserved⟩ := setReg_frame hcmd ht
    refine ⟨t, (regWrite_of_regOf_some hof _ _).trans ht, hbuf, hconfig, hscript, hobserved, fun reg => ?_⟩
    split
    · next h =>
      have hreg : reg = target := Option.some.inj (by rw [← hof, ← h, regOf_number])
      subst hreg
      rw [← regValue_setScript s rest reg]
      exact regValue_setReg_same hcmd ht
    · next h =>
      rw [← regValue_setScript s rest reg]
      exact regValue_setReg_other hcmd ht fun heq => h (heq ▸ hnum)

end Sys2Proof.Machine
end

section
/-! PROOFS. What each command writes: the last column of the register map (`10_state.md` R38, R42), and the frames of
the commands that follow from it. -/

namespace Sys2Proof.Machine

/-! ### Parts of the state -/

/-- `s` with V as in `t`. -/
def State.takeSponge (s t : State) : State := { s with v := t.v }

/-- `s` with KW, NW, GAMMA, PASS and IDX as in `t`. -/
def State.takeWorking (s t : State) : State := { s with kw := t.kw, nw := t.nw, gamma := t.gamma, pos := t.pos }

/-- `s` with the buffer as in `t`. -/
def State.takeBuf (s t : State) : State := { s with buf := t.buf }

/-- `s` with PADLEN as in `t`. -/
def State.takePadlen (s t : State) : State := { s with padlen := t.padlen }

/-- `s` with K, N and LEN as in `t`. -/
def State.takeMaster (s t : State) : State := { s with k := t.k, n := t.n, len := t.len }

/-- `s` with ERR and ERRINFO as in `t`. -/
def State.takeStatus (s t : State) : State := { s with err := t.err, errinfo := t.errinfo }

/-- `s` with all that a word step writes as in `t`. -/
def State.takeLoop (s t : State) : State := ((s.takeSponge t).takeWorking t).takeBuf t

/-- `s` with all that the command writes as in `t`: the register map's last column, read by command. A command that
can raise a fault writes STATUS.ERR and ERRINFO. -/
def takeWritten : Instr → State → State → State
  | .nop, s, _ => s
  | .clr, s, t => ((((s.takeSponge t).takeWorking t).takePadlen t).takeMaster t).takeStatus t
  | .permr _, s, t | .perml _, s, t | .nabs, s, t | .dsep, s, t | .fin, s, t | .unfin, s, t | .uninit, s, t =>
    s.takeSponge t
  | .scrub, s, t | .sinit, s, t | .init, s, t => (s.takeSponge t).takeWorking t
  | .oprep, s, t => s.takeWorking t
  | .encw, s, t | .encloop, s, t | .decw, s, t | .decloop, s, t | .sealBuf, s, t => (s.takeLoop t).takeStatus t
  | .openBuf, s, t => ((s.takeLoop t).takePadlen t).takeStatus t
  | .sttag, s, t => (s.takeBuf t).takeStatus t
  | .ldtag, s, t => (s.takeSponge t).takeStatus t
  | .authchk, s, t => s.takeStatus t
  | .padchk, s, t => (s.takePadlen t).takeStatus t

theorem takeWritten_self (i : Instr) (s : State) : takeWritten i s s = s := by
  cases i <;> rfl

/-! ### The loop -/

/-- From `s` to `t` nothing changed but what a word step writes. -/
def LoopWrites (s t : State) : Prop := t = s.takeLoop t

theorem LoopWrites.refl (s : State) : LoopWrites s s := rfl

theorem LoopWrites.trans {s t u : State} (hst : LoopWrites s t) (htu : LoopWrites t u) : LoopWrites s u :=
  calc u = t.takeLoop u := htu
    _ = (s.takeLoop t).takeLoop u := congrArg (State.takeLoop · u) hst
    _ = s.takeLoop u := rfl

theorem encStep_writes {s t : State} (h : encStep s = .next t) : LoopWrites s t := by
  obtain ⟨p, -, -, rfl⟩ := encStep_eq_next.1 h
  rfl

theorem decStep_writes {s t : State} (h : decStep s = .next t) : LoopWrites s t := by
  obtain ⟨c, -, -, rfl⟩ := decStep_eq_next.1 h
  rfl

/-- A loop writes what its turns write. -/
theorem loopWhile_writes {more : State → Bool} {body : State → Result State}
    (hbody : ∀ s t, body s = .next t → LoopWrites s t) {n : Nat} {s t : State}
    (h : loopWhile more body n s = .next t) : LoopWrites s t :=
  loopWhile_keeps (P := LoopWrites s) (fun u w hu _ hw => hu.trans (hbody u w hw)) (.refl s) h

theorem encLoop_writes {s t : State} (h : encLoop s = .next t) : LoopWrites s t :=
  loopWhile_writes (fun _ _ => encStep_writes) h

theorem decLoop_writes {s t : State} (h : decLoop s = .next t) : LoopWrites s t :=
  loopWhile_writes (fun _ _ => decStep_writes) h

/-- A raised fault, its word left open. -/
theorem takeFault_of_raise {c : ErrCode} {i : Instr} {s t : State} (h : raise c i s = .next t) :
    ∃ w, t = takeFault c w s :=
  ⟨encode i, (Host.Outcome.next.inj h).symm⟩

/-- What a word-step command writes: what its body does, or the fault it raises. -/
theorem requireStep_writes {i : Instr} {ok : Bool} {f : State → Result State} {s t : State}
    (hf : f s = .next t → LoopWrites s t) (h : requireStep i ok s f = .next t) : t = (s.takeLoop t).takeStatus t := by
  obtain ⟨-, h⟩ | ⟨-, h⟩ := requireStep_eq.1 h
  · exact congrArg (State.takeStatus · t) (hf h)
  · obtain ⟨w, rfl⟩ := takeFault_of_raise h
    rfl

/-! ### SEAL and OPEN -/

/-- The pipeline of SEAL after its checks. -/
theorem seal_writes {s t : State}
    (h : (andThen (encLoop (initBody s)) fun s => andThen (storeTag (finBody s)) fun s => .next s.scrubbed) = .next t) :
    LoopWrites s t := by
  simp only [andThen_eq_next, storeTag_eq_next] at h
  obtain ⟨u, hu, _, ⟨-, rfl⟩, h⟩ := h
  cases h
  have hinit : LoopWrites s (initBody s) := rfl
  exact (hinit.trans (encLoop_writes hu)).trans rfl

theorem openRecover_writes {s t : State} (h : openRecover s = .next t) : LoopWrites s t := by
  simp only [openRecover, andThen_eq_next, loadTag_eq_next] at h
  obtain ⟨_, ⟨-, v, rfl, -⟩, u, hu, h⟩ := h
  cases h
  have hprep : LoopWrites s (unfinBody (oprepBody { s with v := v })) := rfl
  exact (hprep.trans (decLoop_writes hu)).trans rfl

theorem openFails_writes {c : ErrCode} {s t : State} (h : openFails c s = .next t) :
    t = ((s.takeLoop t).takePadlen t).takeStatus t := by
  simp only [openFails, failClean, andThen_eq_next, zeroBytes_eq_next] at h
  obtain ⟨_, ⟨_, ⟨-, rfl⟩, hclean⟩, h⟩ := h
  generalize s.buf.zeroise s.sealedBytes = m at hclean
  cases hclean
  obtain ⟨w, rfl⟩ := takeFault_of_raise h
  rfl

theorem openVerify_writes {s t : State} (h : openVerify s = .next t) :
    t = ((s.takeLoop t).takePadlen t).takeStatus t := by
  unfold openVerify at h
  split at h
  · obtain ⟨r, -, h⟩ := andThen_eq_next.1 h
    cases r with
    | some padlen =>
      cases h
      rfl
    | none => exact openFails_writes h
  · exact openFails_writes h

/-- What SEAL and OPEN write: what their pipelines do, or the fault they raise for LEN. -/
theorem requireMessage_writes {i : Instr} {f : State → Result State} {s t : State} {taken : State → State → State}
    (hfault : ∀ c w, takeFault c w s = taken s (takeFault c w s))
    (hf : f s = .next t → t = taken s t) (h : requireMessage i s f = .next t) : t = taken s t := by
  obtain ⟨-, h⟩ | ⟨-, -, h⟩ | ⟨-, -, h⟩ := requireMessage_eq.1 h
  · obtain ⟨w, rfl⟩ := takeFault_of_raise h
    exact hfault _ w
  · exact hf h
  · obtain ⟨w, rfl⟩ := takeFault_of_raise h
    exact hfault _ w

/-! ### Every command -/

/-- With no fault recorded, a command changes what it writes and nothing else. -/
theorem operation_writes {i : Instr} {s t : State} (h : operation i s = .next t) : t = takeWritten i s t := by
  cases i with
  | encw => exact requireStep_writes encStep_writes h
  | encloop => exact requireStep_writes encLoop_writes h
  | decw => exact requireStep_writes decStep_writes h
  | decloop => exact requireStep_writes decLoop_writes h
  | sttag =>
    obtain ⟨-, h⟩ | ⟨-, h⟩ := requireBuf_eq.1 h
    · obtain ⟨-, rfl⟩ := storeTag_eq_next.1 h
      rfl
    · obtain ⟨w, rfl⟩ := takeFault_of_raise h
      rfl
  | ldtag =>
    obtain ⟨-, h⟩ | ⟨-, h⟩ := requireBuf_eq.1 h
    · obtain ⟨-, v, rfl, -⟩ := loadTag_eq_next.1 h
      rfl
    · obtain ⟨w, rfl⟩ := takeFault_of_raise h
      rfl
  | authchk =>
    simp only [operation] at h
    split at h
    · cases h
      rfl
    · obtain ⟨w, rfl⟩ := takeFault_of_raise h
      rfl
  | padchk =>
    simp only [operation] at h
    obtain ⟨-, h⟩ | ⟨-, h⟩ := requireBuf_eq.1 h
    · obtain ⟨r, -, h⟩ := andThen_eq_next.1 h
      cases r with
      | some padlen =>
        cases h
        rfl
      | none =>
        obtain ⟨w, rfl⟩ := takeFault_of_raise h
        rfl
    · obtain ⟨w, rfl⟩ := takeFault_of_raise h
      rfl
  | sealBuf =>
    simp only [operation] at h
    refine requireMessage_writes (taken := takeWritten .sealBuf) (fun _ _ => rfl) (fun h => ?_) h
    exact congrArg (State.takeStatus · t) (seal_writes h)
  | openBuf =>
    simp only [operation] at h
    refine requireMessage_writes (taken := takeWritten .openBuf) (fun _ _ => rfl) (fun h => ?_) h
    obtain ⟨u, hu, h⟩ := andThen_eq_next.1 h
    calc t = ((u.takeLoop t).takePadlen t).takeStatus t := openVerify_writes h
      _ = (((s.takeLoop u).takeLoop t).takePadlen t).takeStatus t :=
        congrArg (fun u => ((State.takeLoop u t).takePadlen t).takeStatus t) (openRecover_writes hu)
      _ = takeWritten .openBuf s t := rfl
  | _ =>
    cases h
    rfl

/-- Whatever STATUS.ERR holds, a command changes what it writes and nothing else. -/
theorem exec_writes {i : Instr} {s t : State} (h : exec i s = .next t) : t = takeWritten i s t := by
  by_cases hi : i = .clr
  · subst hi
    cases h
    rfl
  · rw [exec_eq_accept hi] at h
    obtain ⟨-, h⟩ | ⟨-, h⟩ := accept_eq.1 h
    · cases h
      exact (takeWritten_self i s).symm
    · exact operation_writes h

/-! ### What no command of a group writes -/

@[simp] theorem takeWritten_config (i : Instr) (s t : State) : (takeWritten i s t).config = s.config := by
  cases i <;> rfl

/-- R22, R23, R31. -/
theorem takeWritten_master {i : Instr} (hi : i ≠ .clr) (s t : State) :
    (takeWritten i s t).k = s.k ∧ (takeWritten i s t).n = s.n ∧ (takeWritten i s t).len = s.len := by
  cases i with
  | clr => exact absurd rfl hi
  | _ => exact ⟨rfl, rfl, rfl⟩

theorem takeWritten_working {i : Instr}
    (hi : i ∉ [Instr.sinit, .init, .encw, .encloop, .decw, .decloop, .oprep, .sealBuf, .openBuf, .scrub, .clr])
    (s t : State) :
    (takeWritten i s t).kw = s.kw ∧ (takeWritten i s t).nw = s.nw ∧ (takeWritten i s t).gamma = s.gamma ∧
      (takeWritten i s t).pos = s.pos := by
  cases i with
  | sinit | init | encw | encloop | decw | decloop | oprep | sealBuf | openBuf | scrub | clr =>
    exact absurd (by decide) hi
  | _ => exact ⟨rfl, rfl, rfl, rfl⟩

theorem takeWritten_padlen {i : Instr} (hi : i ∉ [Instr.padchk, .openBuf, .clr]) (s t : State) :
    (takeWritten i s t).padlen = s.padlen := by
  cases i with
  | padchk | openBuf | clr => exact absurd (by decide) hi
  | _ => rfl

theorem takeWritten_v {i : Instr} (hi : i ∈ [Instr.nop, .oprep, .sttag, .authchk, .padchk]) (s t : State) :
    (takeWritten i s t).v = s.v := by
  cases i with
  | nop | oprep | sttag | authchk | padchk => rfl
  | _ => simp at hi

theorem takeWritten_buf {i : Instr} (hi : i ∉ [Instr.encw, .encloop, .decw, .decloop, .sttag, .sealBuf, .openBuf])
    (s t : State) : (takeWritten i s t).buf = s.buf := by
  cases i with
  | encw | encloop | decw | decloop | sttag | sealBuf | openBuf => exact absurd (by decide) hi
  | _ => rfl

/-- Settles O23. -/
theorem onlyClrWritesKeyNonceAndLength : Obligations.OnlyClrWritesKeyNonceAndLength := by
  intro i s t hi h
  rw [exec_writes h]
  exact takeWritten_master hi s t

/-- Settles O24: one column of the register map after the other. -/
theorem commandsWriteOnlyTheirRegisters : Obligations.CommandsWriteOnlyTheirRegisters := by
  intro i s t h
  rw [exec_writes h]
  exact ⟨fun hi => takeWritten_working hi s t, fun hi => takeWritten_padlen hi s t, fun hi => takeWritten_v hi s t,
    fun hi => takeWritten_buf hi s t⟩

end Sys2Proof.Machine
end

section
/-! PROOFS. The parameters of the hardware through every host action (`10_state.md` R27), and the state after reset. -/

namespace Sys2Proof.Machine

theorem exec_config {i : Instr} {s t : State} (h : exec i s = .next t) : t.config = s.config := by
  rw [exec_writes h, takeWritten_config]

theorem submit_config {w : CmdWord} {s t : State} (h : submit w s = .next t) : t.config = s.config := by
  cases hw : decode w with
  | ok i =>
    rw [submit_of_decode_ok hw] at h
    exact exec_config h
  | error e =>
    rw [submit_of_decode_error hw] at h
    obtain ⟨-, h⟩ | ⟨-, h⟩ := accept_eq.1 h <;> cases h <;> rfl

theorem regWrite_config {r : BitVec 5} {v : Word} {s t : State} (h : regWrite r v s = .next t) :
    t.config = s.config := by
  cases hof : regOf r with
  | none =>
    rw [regWrite_of_regOf_none hof] at h
    cases h
    rfl
  | some reg =>
    rw [regWrite_of_regOf_some hof] at h
    by_cases hcmd : reg = .cmd
    · subst hcmd
      exact submit_config h
    · obtain ⟨-, hconfig, -, -⟩ := setReg_frame hcmd h
      exact hconfig

/-- An access completes exactly where the interface offers it and the buffer primitive completes (`20_memory.md`
R65, R68). -/
theorem offered_eq_next {α : Type} {s : State} {a n : Nat} {f : Result α} {x : α} :
    offered s a n f = .next x ↔ (n = 1 ∨ n = 8 ∧ a % 8 = 0) ∧ s.inBuffer a n = true ∧ f = .next x := by
  unfold offered
  split
  · next hwidth =>
    simp only [reduceCtorEq, false_iff]
    omega
  · split
    · next halign =>
      simp only [reduceCtorEq, false_iff]
      omega
    · have hoffered : n = 1 ∨ n = 8 ∧ a % 8 = 0 := by omega
      split <;> simp_all

theorem bufWrite_config {a n : Nat} {v : Word} {s t : State} (h : bufWrite a n v s = .next t) :
    t.config = s.config := by
  obtain ⟨-, -, hwrite⟩ := offered_eq_next.1 h
  obtain ⟨-, rfl⟩ := writeMem_eq_next.1 hwrite
  rfl

theorem perform_config {a : HostAction} {s t : State} (h : perform a s = .next t) : t.config = s.config := by
  cases a with
  | regRead r =>
    cases h
    rfl
  | regWrite r v => exact regWrite_config h
  | bufRead a n =>
    obtain ⟨w, -, h⟩ := andThen_eq_next.1 h
    cases h
    rfl
  | bufWrite a n v => exact bufWrite_config h
  | reset =>
    cases h
    rfl

/-- Settles O22: host action by host action. -/
theorem noStepChangesTheParameters : Obligations.NoStepChangesTheParameters := by
  intro s t h
  cases hs : s.script with
  | nil =>
    rw [step_of_script_nil hs] at h
    cases h
    rfl
  | cons a rest =>
    rw [step_of_script hs] at h
    have hconfig := perform_config h
    exact hconfig

/-- Settles O21: reset leaves an empty buffer and no fault recorded. -/
theorem resetHasTheInvariant : Obligations.ResetHasTheInvariant := fun _ =>
  ⟨Memory.wf_nil, fun _ hx => absurd hx List.not_mem_nil, Nat.zero_le 5, fun _ => rfl⟩

end Sys2Proof.Machine
end

section
/-! PROOFS. The order of positions (`10_state.md` R33): what PASS and IDX are as naturals after `Next` and `Prev`. -/

namespace Sys2Proof.Machine

/-- Positions with the same PASS and IDX are equal. -/
theorem Position.eq_of_toNat {p q : Position} (hpass : p.pass.toNat = q.pass.toNat)
    (hidx : p.idx.toNat = q.idx.toNat) : p = q := by
  cases p
  cases q
  exact congrArg₂ Position.mk (BitVec.eq_of_toNat_eq hpass) (BitVec.eq_of_toNat_eq hidx)

/-- `PosValid` on naturals. -/
theorem Position.valid_iff {p : Position} {len : BitVec 32} :
    p.valid len = true ↔
      (p.pass.toNat < 3 ∧ p.idx.toNat < len.toNat) ∨ (p.pass.toNat = 3 ∧ p.idx.toNat = 0) := by
  have hfinish : p = Position.finish ↔ p.pass.toNat = 3 ∧ p.idx.toNat = 0 :=
    ⟨fun h => h ▸ ⟨rfl, rfl⟩, fun ⟨hpass, hidx⟩ => Position.eq_of_toNat hpass hidx⟩
  rw [Position.valid, Bool.or_eq_true, Bool.and_eq_true, decide_eq_true_iff, decide_eq_true_iff, beq_iff_eq, hfinish,
    Config.passes]

/-- `Next` stays in its pass, or leads from the last word of a pass to the first of the next. -/
theorem Position.next_cases {p : Position} {len : BitVec 32} (hpass : p.pass.toNat < 3)
    (hidx : p.idx.toNat < len.toNat) :
    (p.idx.toNat + 1 < len.toNat ∧ (p.next len).pass.toNat = p.pass.toNat ∧
      (p.next len).idx.toNat = p.idx.toNat + 1) ∨
    (p.idx.toNat + 1 = len.toNat ∧ (p.next len).pass.toNat = p.pass.toNat + 1 ∧ (p.next len).idx.toNat = 0) := by
  have hlen : len.toNat < 2 ^ 32 := len.isLt
  unfold Position.next
  split
  · next h => exact .inl ⟨h, rfl, BitVec.toNat_add_of_lt (by change _ + 1 < _; omega)⟩
  · exact .inr ⟨by omega, BitVec.toNat_add_of_lt (by change _ + 1 < _; omega), rfl⟩

/-- `Prev` stays in its pass, or leads from the first word of a pass to the last of the one before. -/
theorem Position.prev_cases {p : Position} {len : BitVec 32} (hlen : 1 ≤ len.toNat) (hstart : p ≠ ⟨0, 0⟩) :
    (0 < p.idx.toNat ∧ (p.prev len).pass.toNat = p.pass.toNat ∧ (p.prev len).idx.toNat + 1 = p.idx.toNat) ∨
    (p.idx.toNat = 0 ∧ (p.prev len).pass.toNat + 1 = p.pass.toNat ∧ (p.prev len).idx.toNat + 1 = len.toNat) := by
  have hpred : ∀ {w : Nat} (x : BitVec w), 0 < w → 1 ≤ x.toNat → (x - 1).toNat + 1 = x.toNat := by
    intro w x hw hx
    have hone : (1 : BitVec w).toNat = 1 := BitVec.toNat_one hw
    rw [BitVec.toNat_sub_of_le (by rw [BitVec.le_def, hone]; exact hx), hone, Nat.sub_add_cancel hx]
  unfold Position.prev
  split
  · next h => exact .inl ⟨h, rfl, hpred _ (by decide) h⟩
  · next h =>
    have hzero : p.idx.toNat = 0 := by omega
    have hpass : 1 ≤ p.pass.toNat := by
      by_contra hnot
      exact hstart (Position.eq_of_toNat (show p.pass.toNat = 0 by omega) hzero)
    exact .inr ⟨hzero, hpred _ (by decide) hpass, hpred _ (by decide) hlen⟩

section
variable {p : Position} {len : BitVec 32}

theorem Position.next_valid (hpass : p.pass.toNat < 3) (hidx : p.idx.toNat < len.toNat) :
    (p.next len).valid len = true := by
  have hnext := Position.next_cases hpass hidx
  rw [Position.valid_iff]
  omega

theorem Position.next_ne_start (hpass : p.pass.toNat < 3) (hidx : p.idx.toNat < len.toNat) :
    p.next len ≠ ⟨0, 0⟩ := by
  intro heq
  have hnext := Position.next_cases hpass hidx
  have hzero : (p.next len).pass.toNat = 0 ∧ (p.next len).idx.toNat = 0 := heq ▸ ⟨rfl, rfl⟩
  omega

theorem Position.prev_next (hpass : p.pass.toNat < 3) (hidx : p.idx.toNat < len.toNat) :
    (p.next len).prev len = p := by
  have hnext := Position.next_cases hpass hidx
  have hprev := Position.prev_cases (len := len) (by omega) (Position.next_ne_start hpass hidx)
  exact Position.eq_of_toNat (by omega) (by omega)

theorem Position.ordinal_next (hpass : p.pass.toNat < 3) (hidx : p.idx.toNat < len.toNat) :
    (p.next len).ordinal len = p.ordinal len + 1 := by
  unfold Position.ordinal
  obtain ⟨-, hp, hi⟩ | ⟨hlast, hp, hi⟩ := Position.next_cases hpass hidx
  · rw [hp, hi, Nat.add_assoc]
  · rw [hp, hi, Nat.succ_mul]
    omega

/-- The position before a valid one is valid and not (3, 0). -/
theorem Position.prev_bounds (hvalid : p.valid len = true) (hlen : 1 ≤ len.toNat) (hstart : p ≠ ⟨0, 0⟩) :
    (p.prev len).pass.toNat < 3 ∧ (p.prev len).idx.toNat < len.toNat := by
  have hprev := Position.prev_cases hlen hstart
  rw [Position.valid_iff] at hvalid
  omega

theorem Position.next_prev (hvalid : p.valid len = true) (hlen : 1 ≤ len.toNat) (hstart : p ≠ ⟨0, 0⟩) :
    (p.prev len).next len = p := by
  obtain ⟨hpass, hidx⟩ := Position.prev_bounds hvalid hlen hstart
  have hprev := Position.prev_cases hlen hstart
  have hnext := Position.next_cases hpass hidx
  rw [Position.valid_iff] at hvalid
  exact Position.eq_of_toNat (by omega) (by omega)

theorem Position.ordinal_le (hvalid : p.valid len = true) : p.ordinal len ≤ 3 * len.toNat := by
  unfold Position.ordinal
  obtain ⟨hpass, hidx⟩ | ⟨hpass, hidx⟩ := Position.valid_iff.1 hvalid
  · calc p.pass.toNat * len.toNat + p.idx.toNat
        ≤ 2 * len.toNat + len.toNat := Nat.add_le_add (Nat.mul_le_mul_right _ (by omega)) hidx.le
      _ = 3 * len.toNat := by omega
  · rw [hpass, hidx, Nat.add_zero]

end

/-- Settles O34: what holds of `Prev` follows from what holds of `Next` at the position before. -/
theorem nextAndPrevAreInverse : Obligations.NextAndPrevAreInverse := by
  intro p len
  refine ⟨fun ⟨hpass, hidx⟩ => ?_, fun hvalid hlen hstart => ?_, Position.ordinal_le⟩
  · exact ⟨Position.next_valid hpass hidx, Position.prev_next hpass hidx, Position.next_ne_start hpass hidx,
      Position.ordinal_next hpass hidx⟩
  · obtain ⟨hpass, hidx⟩ := Position.prev_bounds hvalid hlen hstart
    have hback := Position.next_prev hvalid hlen hstart
    have hordinal := Position.ordinal_next hpass hidx
    rw [hback] at hordinal
    exact ⟨Position.valid_iff.2 (.inl ⟨hpass, hidx⟩), hback, hpass, hordinal.symm⟩

end Sys2Proof.Machine
end

section
/-! PROOFS. The byte order of the buffer, and the host's accesses to it (`20_memory.md` R61, R65, R68, R69). -/

namespace Sys2Proof.Machine

/-! ### Byte order -/

/-- A word has no bits past its eighth byte, so its bytes are all there is to say of it. -/
theorem Memory.readLE_eight_eq_some {m : Memory} {a : Nat} {w : Word} :
    m.readLE 8 a = some w ↔ ∀ k < 8, m.read (a + k) = some (w.extractLsb' (8 * k) 8) := by
  have hpast : w >>> (8 * 8) = 0 := BitVec.ushiftRight_eq_zero (Nat.le_refl 64)
  rw [Memory.readLE_eq_some (Nat.le_refl 8), and_iff_left hpast]

/-- Settles O16. -/
theorem bufferIsLittleEndian : Obligations.BufferIsLittleEndian := by
  intro m a w
  refine ⟨Memory.readLE_eight_eq_some, ?_, fun _ hk => Memory.read_writeLE m 8 a w hk,
    Memory.read_writeLE m 1 a w Nat.zero_lt_one, fun _ hb => Memory.read_writeLE_other m 8 a w hb,
    fun _ hb => Memory.read_writeLE_other m 1 a w (by omega)⟩
  rw [Memory.readLE_one, Option.map_eq_some_iff]
  exact exists_congr fun _ => and_congr_right fun _ => eq_comm

/-! ### The host's accesses -/

section
variable {α : Type} {s : State} {a n : Nat} {f : Result α}

/-- An offered access within the buffer is the access itself. -/
theorem offered_of_inBuffer (hoffered : n = 1 ∨ n = 8 ∧ a % 8 = 0) (hin : s.inBuffer a n = true) :
    offered s a n f = f := by
  rw [offered, if_neg (by omega), if_neg (by omega), if_pos hin]

/-- R65, R68: the width, the alignment and the range each refuse. -/
theorem offered_isRefused (h : (n ≠ 1 ∧ n ≠ 8) ∨ (n = 8 ∧ a % 8 ≠ 0) ∨ s.bufBytes < a + n) :
    ∃ e, offered s a n f = .refused e := by
  unfold offered
  split
  · exact ⟨_, rfl⟩
  · split
    · exact ⟨_, rfl⟩
    · have hout : ¬ s.inBuffer a n = true := by
        rw [inBuffer_iff]
        omega
      exact ⟨_, if_neg hout⟩

end

/-- Bytes that all hold values read as a value below `2 ^ (8 * n)`, made of those bytes. -/
theorem State.written_iff_readLE {s : State} {a n : Nat} (hn : n ≤ 8) :
    s.written a n ↔ ∃ w, s.buf.readLE n a = some w ∧
      (∀ k < n, s.buf.read (a + k) = some (w.extractLsb' (8 * k) 8)) ∧ w.toNat < 2 ^ (8 * n) := by
  have hbelow : ∀ w : Word, w >>> (8 * n) = 0 → w.toNat < 2 ^ (8 * n) := fun w hw => by
    have hdiv := congrArg BitVec.toNat hw
    rw [BitVec.toNat_ushiftRight, Nat.shiftRight_eq_div_pow] at hdiv
    exact (Nat.div_eq_zero_iff_lt (Nat.two_pow_pos _)).1 hdiv
  rw [State.written, ← Memory.readLE_isSome, Option.isSome_iff_exists]
  refine exists_congr fun w => ⟨fun hw => ?_, fun hw => hw.1⟩
  obtain ⟨hbytes, hpast⟩ := (Memory.readLE_eq_some hn).1 hw
  exact ⟨hw, hbytes, hbelow w hpast⟩

/-- Settles O15: an offered access in range is the buffer primitive; every other access is refused by `offered`. -/
theorem hostBufferAccesses : Obligations.HostBufferAccesses := by
  have hwidth : ∀ {a n : Nat}, (n = 1 ∨ n = 8 ∧ a % 8 = 0) → n ≤ 8 := by omega
  refine ⟨fun s a n v rest hs hoffered hin => ?_, fun s a n rest hs hoffered hin hwritten => ?_,
    fun s a n rest hs hoffered hin hwritten => ?_, fun s a n v rest hs hbad => ?_⟩
  · refine ⟨{ s with script := rest, buf := s.buf.writeLE n a v }, ?_,
      fun _ hk => Memory.read_writeLE s.buf n a v hk, fun _ hb => Memory.read_writeLE_other s.buf n a v hb, rfl⟩
    rw [step_of_script hs]
    exact offered_eq_next.2 ⟨hoffered, inBuffer_iff.2 hin, writeMem_eq_next.2 ⟨inBuffer_iff.2 hin, rfl⟩⟩
  · obtain ⟨w, hw, hbytes, hlt⟩ := (State.written_iff_readLE (hwidth hoffered)).1 hwritten
    refine ⟨w, hbytes, hlt, ?_⟩
    rw [step_of_script hs]
    have hread : bufRead a n { s with script := rest } = .next w :=
      offered_eq_next.2 ⟨hoffered, inBuffer_iff.2 hin, readMem_eq_next.2 ⟨inBuffer_iff.2 hin, hw⟩⟩
    exact andThen_eq_next.2 ⟨w, hread, rfl⟩
  · rw [step_of_script hs]
    have hnone : s.buf.readLE n a = none := by
      rw [State.written, ← Memory.readLE_isSome] at hwritten
      exact Option.not_isSome_iff_eq_none.1 hwritten
    have hread : bufRead a n { s with script := rest } = .refused .unwrittenByte :=
      (offered_of_inBuffer hoffered (inBuffer_iff.2 hin)).trans
        (readMem_eq_refused.2 ⟨inBuffer_iff.2 hin, hnone, rfl⟩)
    exact andThen_eq_refused.2 (.inl hread)
  · obtain hs | hs := hs <;> rw [step_of_script hs]
    · exact offered_isRefused hbad
    · obtain ⟨e, he⟩ : ∃ e, bufRead a n { s with script := rest } = .refused e := offered_isRefused hbad
      exact ⟨e, andThen_eq_refused.2 (.inl he)⟩

end Sys2Proof.Machine
end

section
/-! PROOFS. Two runs of one command from states whose buffers agree below the end of the tag region
(`20_memory.md` R63): both make the same byte writes, all below that end, and end in the same way. -/

namespace Sys2Proof.Machine

/-! ### Writes to two buffers -/

/-- `m` and `n` come from `m₀` and `n₀`, which agree below `lim`, by the same byte writes, all below `lim`. -/
inductive SameWrites (lim : Nat) (m₀ n₀ : Memory) : Memory → Memory → Prop
  | start (h : ∀ a < lim, n₀.read a = m₀.read a) : SameWrites lim m₀ n₀ m₀ n₀
  | write {m n : Memory} (h : SameWrites lim m₀ n₀ m n) {a : Nat} (ha : a < lim) (x : Byte) :
    SameWrites lim m₀ n₀ (m.write a x) (n.write a x)

namespace SameWrites
variable {lim : Nat} {m₀ n₀ m n : Memory}

theorem symm (h : SameWrites lim m₀ n₀ m n) : SameWrites lim n₀ m₀ n m := by
  induction h with
  | start h => exact .start fun a ha => (h a ha).symm
  | write _ ha x ih => exact ih.write ha x

/-- Below the bound the two buffers still agree. -/
theorem read_below (h : SameWrites lim m₀ n₀ m n) {b : Nat} (hb : b < lim) : n.read b = m.read b := by
  induction h with
  | start h => exact h b hb
  | write _ ha x ih => rw [Memory.read_write, Memory.read_write, ih]

/-- From the bound on nothing was written. -/
theorem read_past (h : SameWrites lim m₀ n₀ m n) {b : Nat} (hb : lim ≤ b) : m.read b = m₀.read b := by
  induction h with
  | start h => rfl
  | write _ ha x ih => rw [Memory.read_write_other _ x (by omega), ih]

/-- A byte without a value now had none before. -/
theorem read_eq_none (h : SameWrites lim m₀ n₀ m n) {b : Nat} (hb : m.read b = none) : m₀.read b = none := by
  induction h with
  | start h => exact hb
  | write _ ha x ih =>
    rw [Memory.read_write] at hb
    split at hb
    · cases hb
    · exact ih hb

theorem wf (h : SameWrites lim m₀ n₀ m n) (hm : m₀.wf) : m.wf := by
  induction h with
  | start h => exact hm
  | write _ ha x ih => exact Memory.wf_write ih _ x

theorem mem (h : SameWrites lim m₀ n₀ m n) {c : Host.Cell} (hc : c ∈ m) : c.1 < lim ∨ c ∈ m₀ := by
  induction h with
  | start h => exact .inr hc
  | write _ ha x ih =>
    obtain rfl | hc := Memory.mem_write hc
    · exact .inl ha
    · exact ih hc

theorem writeLE (h : SameWrites lim m₀ n₀ m n) {k a : Nat} (ha : a + k ≤ lim) (v : Word) :
    SameWrites lim m₀ n₀ (m.writeLE k a v) (n.writeLE k a v) := by
  induction k generalizing m n a v with
  | zero => exact h
  | succ k ih => exact ih (h.write (by omega) _) (by omega) _

theorem writeTag (h : SameWrites lim m₀ n₀ m n) {len : Nat} (hlen : 8 * (len + 4) ≤ lim) (v : Sponge) :
    SameWrites lim m₀ n₀ (m.writeTag len v) (n.writeTag len v) := by
  have hword : ∀ j < 4, wordAddr (len + j) + 8 ≤ lim := fun j hj => by
    unfold wordAddr
    omega
  unfold Memory.writeTag
  exact (((h.writeLE (hword 0 (by omega)) _).writeLE (hword 1 (by omega)) _).writeLE (hword 2 (by omega)) _).writeLE
    (hword 3 (by omega)) _

theorem zeroise (h : SameWrites lim m₀ n₀ m n) {k : Nat} (hk : k ≤ lim) :
    SameWrites lim m₀ n₀ (m.zeroise k) (n.zeroise k) := by
  induction k with
  | zero => exact h
  | succ k ih => exact (ih (by omega)).write hk 0

end SameWrites

/-! ### Runs that end alike -/

/-- Two runs from the state `o` and its twin end alike: both complete, with results that `R` relates, or both meet a
byte below the end of the tag region that held no value in `o`. A fault is no such end. -/
inductive SameEnd {α : Type} (o : State) (R : α → α → Prop) : Result α → Result α → Prop
  | next {x y : α} (h : R x y) : SameEnd o R (.next x) (.next y)
  | unwritten {a : Nat} (ha : a < o.sealedBytes) (h : o.buf.read a = none) :
    SameEnd o R (.refused .unwrittenByte) (.refused .unwrittenByte)

namespace SameEnd
variable {α β : Type} {o : State} {R : α → α → Prop} {r r' : Result α}

theorem mono {S : α → α → Prop} (h : SameEnd o R r r') (hRS : ∀ x y, R x y → S x y) : SameEnd o S r r' := by
  cases h with
  | next h => exact .next (hRS _ _ h)
  | unwritten ha h => exact .unwritten ha h

theorem andThen {S : β → β → Prop} {f f' : α → Result β} (h : SameEnd o R r r')
    (hf : ∀ x y, R x y → SameEnd o S (f x) (f' y)) : SameEnd o S (andThen r f) (andThen r' f') := by
  cases h with
  | next h => exact hf _ _ h
  | unwritten ha h => exact .unwritten ha h

/-- After equal results the two runs go on with the same value. -/
theorem andThen_eq {S : β → β → Prop} {f f' : α → Result β} (h : SameEnd o Eq r r')
    (hf : ∀ x, SameEnd o S (f x) (f' x)) : SameEnd o S (Machine.andThen r f) (Machine.andThen r' f') :=
  h.andThen fun x _ hxy => hxy ▸ hf x

theorem ne_fault (h : SameEnd o R r r') {e : Fault} : r ≠ .fault e := by
  intro hr
  subst hr
  cases h

theorem exists_of_next {x : α} (h : SameEnd o R r r') (hr : r = .next x) : ∃ y, r' = .next y ∧ R x y := by
  subst hr
  cases h with
  | next h => exact ⟨_, rfl, h⟩

theorem of_refused {e : Refusal} (h : SameEnd o R r r') (hr : r = .refused e) :
    r' = .refused e ∧ e = .unwrittenByte ∧ ∃ a < o.sealedBytes, o.buf.read a = none := by
  subst hr
  cases h with
  | unwritten ha h => exact ⟨rfl, rfl, _, ha, h⟩

end SameEnd

/-! ### The course of a command -/

/-- The status half of the invariant: ERR is a code the engine produces, and ERRINFO is 0 where none is recorded. -/
def State.statusLegal (s : State) : Prop := s.err.toNat ≤ 5 ∧ (s.err = 0 → s.errinfo = 0)

theorem statusLegal_takeFault (c : ErrCode) (w : CmdWord) (s : State) : (takeFault c w s).statusLegal := by
  have hcode : c.code.toNat ≤ 5 ∧ c.code ≠ 0 := by cases c <;> decide
  obtain ⟨hle, hne⟩ := hcode
  exact ⟨hle, fun h => absurd h hne⟩

/-- What holds where a command that started from `o`, and from `o` with the buffer `n₀`, has come to `t`, and to `t`
with the buffer `n`. -/
structure Course (o : State) (n₀ : Memory) (t : State) (n : Memory) : Prop where
  writes : SameWrites o.sealedBytes o.buf n₀ t.buf n
  cells : ∀ c ∈ t.buf, c.1 < o.bufBytes ∨ c ∈ o.buf
  status : o.statusLegal → t.statusLegal

/-- The same inside a command that has passed BufOK and still works on the region it checked. -/
structure Underway (o : State) (n₀ : Memory) (t : State) (n : Memory) : Prop extends Course o n₀ t n where
  bufOK : o.bufOK = true
  len : t.len = o.len
  config : t.config = o.config

/-- `t'` is `t` but for its buffer, and `C` holds of `t` and that buffer. -/
def Twins (C : State → Memory → Prop) (t t' : State) : Prop := ∃ n, t' = { t with buf := n } ∧ C t n

theorem bufOK_iff {s : State} : s.bufOK = true ↔ 1 ≤ s.len.toNat ∧ s.sealedBytes ≤ s.bufBytes := by
  rw [State.bufOK, State.fits, Bool.and_eq_true, decide_eq_true_iff, decide_eq_true_iff, State.sealedBytes,
    State.bufBytes]
  omega

section
variable {o t : State} {n₀ n : Memory}

theorem Course.start (hlow : ∀ a < o.sealedBytes, n₀.read a = o.buf.read a) : Course o n₀ o n₀ :=
  ⟨.start hlow, fun _ => .inr, id⟩

/-- The course goes on through a change of the registers that are not the status. -/
theorem Course.registers (h : Course o n₀ t n) {u : State} (hbuf : u.buf = t.buf := by rfl)
    (herr : u.err = t.err := by rfl) (hinfo : u.errinfo = t.errinfo := by rfl) : Course o n₀ u n := by
  refine ⟨hbuf ▸ h.writes, hbuf ▸ h.cells, fun ho => ?_⟩
  rw [State.statusLegal, herr, hinfo]
  exact h.status ho

theorem Course.raise (h : Course o n₀ t n) (c : ErrCode) (i : Instr) :
    SameEnd o (Twins (Course o n₀)) (raise c i t) (raise c i { t with buf := n }) :=
  .next ⟨n, rfl, h.writes, h.cells, fun _ => statusLegal_takeFault c _ t⟩

end

end Sys2Proof.Machine
end

section
/-! PROOFS. The rules of two runs, from the buffer primitives up to every command (`20_memory.md` R63, R64, R69). -/

namespace Sys2Proof.Machine

section
variable {o t : State} {n₀ n : Memory}

/-! ### Inside a command that has passed BufOK -/

/-- The same inside a command: LEN and the parameters stay too. -/
theorem Underway.registers (h : Underway o n₀ t n) {u : State} (hbuf : u.buf = t.buf := by rfl)
    (herr : u.err = t.err := by rfl) (hinfo : u.errinfo = t.errinfo := by rfl) (hlen : u.len = t.len := by rfl)
    (hconfig : u.config = t.config := by rfl) : Underway o n₀ u n :=
  ⟨h.toCourse.registers hbuf herr hinfo, h.bufOK, hlen.trans h.len, hconfig.trans h.config⟩

theorem Underway.sealedBytes_eq (h : Underway o n₀ t n) : t.sealedBytes = o.sealedBytes := by
  rw [State.sealedBytes, State.sealedBytes, h.len]

theorem Underway.one_le_len (h : Underway o n₀ t n) : 1 ≤ t.len.toNat :=
  h.len ▸ (bufOK_iff.1 h.bufOK).1

/-- R64: BufOK puts the message and tag regions inside the buffer. -/
theorem Underway.fits (h : Underway o n₀ t n) : t.sealedBytes ≤ t.bufBytes := by
  rw [h.sealedBytes_eq, State.bufBytes, h.config]
  exact (bufOK_iff.1 h.bufOK).2

theorem Underway.inBuffer (h : Underway o n₀ t n) {a k : Nat} (ha : a + k ≤ o.sealedBytes) :
    t.inBuffer a k = true :=
  inBuffer_iff.2 ((ha.trans h.sealedBytes_eq.ge).trans h.fits)

/-- The command goes on through further writes. -/
theorem Underway.setBuf (h : Underway o n₀ t n) {m m' : Memory} (hw : SameWrites o.sealedBytes o.buf n₀ m m') :
    Underway o n₀ { t with buf := m } m' := by
  have hcells : ∀ c ∈ m, c.1 < o.bufBytes ∨ c ∈ o.buf := fun c hc =>
    (hw.mem hc).imp_left fun hlt => hlt.trans_le (bufOK_iff.1 h.bufOK).2
  exact ⟨⟨hw, hcells, h.status⟩, h.bufOK, h.len, h.config⟩

/-! ### Reads -/

theorem readMem_sameEnd (h : Underway o n₀ t n) {k a : Nat} (ha : a + k ≤ o.sealedBytes) :
    SameEnd o Eq (readMem k t a) (readMem k { t with buf := n } a) := by
  have hin := h.inBuffer ha
  have hin' : ({ t with buf := n } : State).inBuffer a k = true := hin
  have heq : n.readLE k a = t.buf.readLE k a := Memory.readLE_congr fun i hi => h.writes.read_below (by omega)
  cases hr : t.buf.readLE k a with
  | some w =>
    rw [readMem_eq_next.2 ⟨hin, hr⟩, readMem_eq_next.2 ⟨hin', heq.trans hr⟩]
    exact .next rfl
  | none =>
    rw [readMem_eq_refused.2 ⟨hin, hr, rfl⟩, readMem_eq_refused.2 ⟨hin', heq.trans hr, rfl⟩]
    obtain ⟨i, hi, hnone⟩ : ∃ i < k, t.buf.read (a + i) = none := by
      have hnot : ¬ (t.buf.readLE k a).isSome := by simp [hr]
      rw [Memory.readLE_isSome] at hnot
      simpa using hnot
    exact .unwritten (show a + i < _ by omega) (h.writes.read_eq_none hnone)

theorem readByte_sameEnd (h : Underway o n₀ t n) {a : Nat} (ha : a < o.sealedBytes) :
    SameEnd o Eq (readByte t a) (readByte { t with buf := n } a) :=
  (readMem_sameEnd h ha).andThen_eq fun _ => .next rfl

theorem orBytes_sameEnd (h : Underway o n₀ t n) {k a : Nat} (ha : a + k ≤ o.sealedBytes) :
    SameEnd o Eq (orBytes t k a) (orBytes { t with buf := n } k a) := by
  induction k generalizing a with
  | zero => exact .next rfl
  | succ k ih =>
    exact (readByte_sameEnd h (by omega)).andThen_eq fun _ => (ih (by omega)).andThen_eq fun _ => .next rfl

/-- The padding test stays in the message region: its first byte lies at `8 * LEN - 1`, the others end there. -/
theorem padTest_sameEnd (h : Underway o n₀ t n) : SameEnd o Eq (padTest t) (padTest { t with buf := n }) := by
  have hmessage : 1 ≤ t.messageBytes ∧ t.messageBytes ≤ o.sealedBytes := by
    have hlen := h.one_le_len
    rw [← h.sealedBytes_eq, State.messageBytes, State.sealedBytes]
    omega
  refine (readByte_sameEnd h (by omega)).andThen_eq fun padlen => ?_
  change SameEnd o Eq _ (if padlen = 0 ∨ t.messageBytes < padlen.toNat then _ else _)
  split
  · exact .next rfl
  · exact (orBytes_sameEnd h (by omega)).andThen_eq fun _ => .next rfl

theorem loadTag_sameEnd (h : Underway o n₀ t n) :
    SameEnd o (Twins (Underway o n₀)) (loadTag t) (loadTag { t with buf := n }) := by
  have hword : ∀ j < 4, SameEnd o Eq (readWord t (t.tagAddr j)) (readWord { t with buf := n } (t.tagAddr j)) :=
    fun j hj => readMem_sameEnd h (by rw [← h.sealedBytes_eq, State.tagAddr, wordAddr, State.sealedBytes]; omega)
  refine (hword 0 (by omega)).andThen_eq fun v0 => (hword 1 (by omega)).andThen_eq fun v1 =>
    (hword 2 (by omega)).andThen_eq fun v2 => (hword 3 (by omega)).andThen_eq fun v3 => ?_
  exact .next ⟨n, rfl, h.registers⟩

/-! ### Writes -/

theorem storeTag_of_fits {s : State} (h : s.sealedBytes ≤ s.bufBytes) :
    storeTag s = .next { s with buf := s.buf.writeTag s.len.toNat s.v } :=
  storeTag_eq_next.2 ⟨h, rfl⟩

theorem storeTag_sameEnd (h : Underway o n₀ t n) :
    SameEnd o (Twins (Underway o n₀)) (storeTag t) (storeTag { t with buf := n }) := by
  rw [storeTag_of_fits h.fits, storeTag_of_fits (s := { t with buf := n }) h.fits]
  exact .next ⟨_, rfl, h.setBuf (h.writes.writeTag h.sealedBytes_eq.le _)⟩

theorem zeroBytes_sameEnd (h : Underway o n₀ t n) {k : Nat} (hk : k ≤ o.sealedBytes) :
    SameEnd o (Twins (Underway o n₀)) (zeroBytes t k) (zeroBytes { t with buf := n } k) := by
  have hin : t.inBuffer 0 k = true := h.inBuffer (by omega)
  have hzero : zeroBytes t k = .next { t with buf := t.buf.zeroise k } := zeroBytes_eq_next.2 ⟨hin, rfl⟩
  have hzero' : zeroBytes { t with buf := n } k = .next { t with buf := n.zeroise k } :=
    zeroBytes_eq_next.2 ⟨hin, rfl⟩
  rw [hzero, hzero']
  exact .next ⟨_, rfl, h.setBuf (h.writes.zeroise hk)⟩

theorem failClean_sameEnd (h : Underway o n₀ t n) :
    SameEnd o (Twins (Underway o n₀)) (failClean t) (failClean { t with buf := n }) := by
  refine (zeroBytes_sameEnd h h.sealedBytes_eq.le).andThen ?_
  rintro u _ ⟨m, rfl, hu⟩
  exact .next ⟨m, rfl, hu.registers⟩

/-! ### Word steps -/

/-- The position is valid: what the loops keep beside `Underway`. -/
def AtStep (o : State) (n₀ : Memory) (t : State) (n : Memory) : Prop :=
  Underway o n₀ t n ∧ t.pos.valid t.len = true

/-- The word at a position below LEN lies in the message region. -/
theorem currentAddr_add_le {s : State} (h : s.pos.idx.toNat < s.len.toNat) : s.currentAddr + 8 ≤ s.sealedBytes := by
  rw [State.currentAddr, wordAddr, State.sealedBytes]
  omega

/-- A forward word step is its read and one next state, where the word lies in the buffer. -/
theorem encStep_of_inBuffer {s : State} (hin : s.inBuffer s.currentAddr 8 = true) :
    encStep s = andThen (readWord s s.currentAddr) fun p => .next { s.advance with
      v := forwardSponge s.kw s.nw s.gamma p s.v
      buf := s.buf.writeLE 8 s.currentAddr (p + (forwardSponge s.kw s.nw s.gamma p s.v).v3) } := by
  refine congrArg (andThen (readWord s s.currentAddr)) (funext fun p => ?_)
  exact andThen_eq_next.2 ⟨_, writeWord_eq_next.2 ⟨hin, rfl⟩, rfl⟩

theorem decStep_of_inBuffer {s : State} (hin : s.inBuffer s.retreat.currentAddr 8 = true) :
    decStep s = andThen (readWord s.retreat s.retreat.currentAddr) fun c => .next { s.retreat with
      v := inverseSponge s.retreat.kw s.retreat.nw s.retreat.gamma (c - s.v.v3) s.v
      buf := s.buf.writeLE 8 s.retreat.currentAddr (c - s.v.v3) } := by
  refine congrArg (andThen (readWord s.retreat s.retreat.currentAddr)) (funext fun c => ?_)
  exact andThen_eq_next.2 ⟨_, writeWord_eq_next.2 ⟨hin, rfl⟩, rfl⟩

theorem encStep_sameEnd (h : AtStep o n₀ t n) (hmore : t.unfinished = true) :
    SameEnd o (Twins (AtStep o n₀)) (encStep t) (encStep { t with buf := n }) := by
  obtain ⟨hu, hvalid⟩ := h
  have hpass : t.pos.pass.toNat < 3 := of_decide_eq_true hmore
  have hidx : t.pos.idx.toNat < t.len.toNat := by
    rw [Position.valid_iff] at hvalid
    omega
  have haddr : t.currentAddr + 8 ≤ o.sealedBytes := hu.sealedBytes_eq ▸ currentAddr_add_le hidx
  rw [encStep_of_inBuffer (hu.inBuffer haddr), encStep_of_inBuffer (s := { t with buf := n }) (hu.inBuffer haddr)]
  refine (readMem_sameEnd hu haddr).andThen_eq fun p => ?_
  exact .next ⟨_, rfl, (hu.setBuf (hu.writes.writeLE haddr _)).registers,
    Position.next_valid hpass hidx⟩

theorem decStep_sameEnd (h : AtStep o n₀ t n) (hmore : t.started = true) :
    SameEnd o (Twins (AtStep o n₀)) (decStep t) (decStep { t with buf := n }) := by
  obtain ⟨hu, hvalid⟩ := h
  have hprev : (t.pos.prev t.len).pass.toNat < 3 ∧ (t.pos.prev t.len).idx.toNat < t.len.toNat :=
    Position.prev_bounds hvalid hu.one_le_len (bne_iff_ne.1 hmore)
  have hback : Underway o n₀ t.retreat n := hu.registers
  have haddr : t.retreat.currentAddr + 8 ≤ o.sealedBytes := hback.sealedBytes_eq ▸ currentAddr_add_le hprev.2
  rw [decStep_of_inBuffer (hu.inBuffer haddr), decStep_of_inBuffer (s := { t with buf := n }) (hu.inBuffer haddr)]
  refine (readMem_sameEnd hback haddr).andThen_eq fun c => ?_
  exact .next ⟨_, rfl, (hback.setBuf (hu.writes.writeLE haddr _)).registers,
    Position.valid_iff.2 (.inl hprev)⟩

/-- A loop ends alike where its turns do and its test does not read the buffer. -/
theorem loopWhile_sameEnd {more : State → Bool} {body : State → Result State} {C : State → Memory → Prop}
    (hmore : ∀ (t : State) (n : Memory), more { t with buf := n } = more t)
    (hbody : ∀ t n, C t n → more t = true → SameEnd o (Twins C) (body t) (body { t with buf := n })) {k : Nat}
    (h : C t n) : SameEnd o (Twins C) (loopWhile more body k t) (loopWhile more body k { t with buf := n }) := by
  induction k generalizing t n with
  | zero => exact .next ⟨n, rfl, h⟩
  | succ k ih =>
    cases hm : more t with
    | false =>
      rw [loopWhile_of_done hm, loopWhile_of_done ((hmore t n).trans hm)]
      exact .next ⟨n, rfl, h⟩
    | true =>
      rw [loopWhile_of_more hm, loopWhile_of_more ((hmore t n).trans hm)]
      refine (hbody t n h hm).andThen ?_
      rintro u _ ⟨n', rfl, hu⟩
      exact ih hu

theorem encLoop_sameEnd (h : AtStep o n₀ t n) :
    SameEnd o (Twins (AtStep o n₀)) (encLoop t) (encLoop { t with buf := n }) :=
  loopWhile_sameEnd (fun _ _ => rfl) (fun _ _ => encStep_sameEnd) h

theorem decLoop_sameEnd (h : AtStep o n₀ t n) :
    SameEnd o (Twins (AtStep o n₀)) (decLoop t) (decLoop { t with buf := n }) :=
  loopWhile_sameEnd (fun _ _ => rfl) (fun _ _ => decStep_sameEnd) h

/-! ### SEAL and OPEN -/

theorem seal_sameEnd (h : Underway o n₀ t n) : SameEnd o (Twins (Underway o n₀))
    (andThen (encLoop (initBody t)) fun s => andThen (storeTag (finBody s)) fun s => .next s.scrubbed)
    (andThen (encLoop (initBody { t with buf := n })) fun s =>
      andThen (storeTag (finBody s)) fun s => .next s.scrubbed) := by
  have hstart : AtStep o n₀ (initBody t) n :=
    ⟨h.registers, Position.valid_iff.2 (.inl ⟨Nat.zero_lt_succ 2, h.one_le_len⟩)⟩
  refine (encLoop_sameEnd hstart).andThen ?_
  rintro u _ ⟨m, rfl, hu, -⟩
  have hfin : Underway o n₀ (finBody u) m := hu.registers
  refine (storeTag_sameEnd hfin).andThen ?_
  rintro w _ ⟨m', rfl, hw⟩
  exact .next ⟨m', rfl, hw.registers⟩

theorem openRecover_sameEnd (h : Underway o n₀ t n) :
    SameEnd o (Twins (Underway o n₀)) (openRecover t) (openRecover { t with buf := n }) := by
  refine (loadTag_sameEnd h).andThen ?_
  rintro u _ ⟨m, rfl, hu⟩
  have hfinish : AtStep o n₀ (unfinBody (oprepBody u)) m :=
    ⟨hu.registers, Position.valid_iff.2 (.inr ⟨rfl, rfl⟩)⟩
  refine (decLoop_sameEnd hfinish).andThen ?_
  rintro w _ ⟨m', rfl, hw, -⟩
  exact .next ⟨m', rfl, hw.registers⟩

theorem openFails_sameEnd (c : ErrCode) (h : Underway o n₀ t n) :
    SameEnd o (Twins (Course o n₀)) (openFails c t) (openFails c { t with buf := n }) := by
  refine (failClean_sameEnd h).andThen ?_
  rintro u _ ⟨m, rfl, hu⟩
  exact hu.toCourse.raise c .openBuf

theorem openVerify_sameEnd (h : Underway o n₀ t n) :
    SameEnd o (Twins (Course o n₀)) (openVerify t) (openVerify { t with buf := n }) := by
  unfold openVerify
  change SameEnd o _ _ (if t.authentic then _ else _)
  split
  · refine (padTest_sameEnd h).andThen_eq fun r => ?_
    cases r with
    | some padlen => exact .next ⟨n, rfl, h.toCourse.registers⟩
    | none => exact openFails_sameEnd .pad h
  · exact openFails_sameEnd .auth h

end

/-! ### Every command -/

section
variable {s : State} {m : Memory}

/-- A command that BufOK lets work ends alike where its body does, and otherwise raises BOUNDS in both runs. -/
theorem requireBuf_sameEnd {i : Instr} {f : State → Result State} (h : Course s m s m)
    (hf : Underway s m s m → SameEnd s (Twins (Course s m)) (f s) (f { s with buf := m })) :
    SameEnd s (Twins (Course s m)) (requireBuf i s f) (requireBuf i { s with buf := m } f) := by
  unfold requireBuf
  change SameEnd s _ _ (if s.bufOK then _ else _)
  split
  · next hok => exact hf ⟨h, hok, rfl, rfl⟩
  · exact h.raise .bounds i

theorem requireStep_sameEnd {i : Instr} {ok : Bool} {f : State → Result State} (h : Course s m s m)
    (hf : AtStep s m s m → ok = true → SameEnd s (Twins (AtStep s m)) (f s) (f { s with buf := m })) :
    SameEnd s (Twins (Course s m)) (requireStep i ok s f) (requireStep i ok { s with buf := m } f) := by
  refine requireBuf_sameEnd h fun hu => ?_
  change SameEnd s _ _ (if s.pos.valid s.len && ok then _ else _)
  split
  · next hand =>
    obtain ⟨hvalid, hok⟩ := Bool.and_eq_true_iff.1 hand
    refine (hf ⟨hu, hvalid⟩ hok).mono ?_
    rintro t _ ⟨n, rfl, ht, -⟩
    exact ⟨n, rfl, ht.toCourse⟩
  · exact h.raise .bounds i

theorem requireMessage_sameEnd {i : Instr} {f : State → Result State} (h : Course s m s m)
    (hf : Underway s m s m → SameEnd s (Twins (Course s m)) (f s) (f { s with buf := m })) :
    SameEnd s (Twins (Course s m)) (requireMessage i s f) (requireMessage i { s with buf := m } f) := by
  unfold requireMessage
  change SameEnd s _ _ (if s.len.toNat < 3 then _ else if s.fits then _ else _)
  split
  · exact h.raise .malformed i
  · next hlen =>
    split
    · next hfits =>
      have hok : s.bufOK = true := Bool.and_eq_true_iff.2 ⟨decide_eq_true (by omega), hfits⟩
      exact hf ⟨h, hok, rfl, rfl⟩
    · exact h.raise .bounds i

/-- With no fault recorded, every command but CLR ends alike in both runs. -/
theorem operation_sameEnd {i : Instr} (hi : i ≠ .clr) (h : Course s m s m) :
    SameEnd s (Twins (Course s m)) (operation i s) (operation i { s with buf := m }) := by
  have under : ∀ {r r' : Result State}, SameEnd s (Twins (Underway s m)) r r' → SameEnd s (Twins (Course s m)) r r' :=
    fun h => h.mono fun _ _ ⟨n, heq, ht⟩ => ⟨n, heq, ht.toCourse⟩
  cases i with
  | clr => exact absurd rfl hi
  | encw => exact requireStep_sameEnd h encStep_sameEnd
  | encloop => exact requireStep_sameEnd h fun hat _ => encLoop_sameEnd hat
  | decw => exact requireStep_sameEnd h decStep_sameEnd
  | decloop => exact requireStep_sameEnd h fun hat _ => decLoop_sameEnd hat
  | sttag => exact requireBuf_sameEnd h fun hu => under (storeTag_sameEnd hu)
  | ldtag => exact requireBuf_sameEnd h fun hu => under (loadTag_sameEnd hu)
  | authchk =>
    change SameEnd s _ (if s.authentic then _ else _) (if s.authentic then _ else _)
    split
    · exact .next ⟨m, rfl, h⟩
    · exact h.raise .auth .authchk
  | padchk =>
    unfold operation
    refine requireBuf_sameEnd h ?_
    refine fun hu => (padTest_sameEnd hu).andThen_eq fun r => ?_
    cases r with
    | some padlen => exact .next ⟨m, rfl, h.registers⟩
    | none => exact Course.raise (t := { s with padlen := 0 }) h.registers .pad .padchk
  | sealBuf =>
    unfold operation
    refine requireMessage_sameEnd h ?_
    exact fun hu => under (seal_sameEnd hu)
  | openBuf =>
    unfold operation
    refine requireMessage_sameEnd h ?_
    refine fun hu => (openRecover_sameEnd hu).andThen ?_
    rintro t _ ⟨n, rfl, ht⟩
    exact openVerify_sameEnd ht
  | _ => exact .next ⟨m, rfl, h.registers⟩

/-- A command run on `s` and on `s` with a buffer that agrees below the end of the tag region ends alike. -/
theorem exec_sameEnd (i : Instr) (hlow : ∀ a < s.sealedBytes, m.read a = s.buf.read a) :
    SameEnd s (Twins (Course s m)) (exec i s) (exec i { s with buf := m }) := by
  have h : Course s m s m := .start hlow
  by_cases hi : i = .clr
  · subst hi
    exact .next ⟨m, rfl, h.writes, h.cells, fun _ => ⟨Nat.zero_le 5, fun _ => rfl⟩⟩
  · by_cases herr : s.err = 0
    · rw [exec_of_err_zero i herr, exec_of_err_zero i (s := { s with buf := m }) herr]
      exact operation_sameEnd hi h
    · rw [exec_of_faulted hi herr, exec_of_faulted hi (s := { s with buf := m }) herr]
      exact .next ⟨m, rfl, h⟩

end

end Sys2Proof.Machine
end

section
/-! PROOFS. What the course of two runs says of one command, and the invariant through every host action
(`20_memory.md` R60, R63, R64, R69). -/

namespace Sys2Proof.Machine

/-! ### Commands -/

/-- One run of a command, as its own twin. -/
theorem exec_sameEnd_self (i : Instr) (s : State) : SameEnd s (Twins (Course s s.buf)) (exec i s) (exec i s) :=
  exec_sameEnd i fun _ _ => rfl

/-- Settles O19: the two runs make the same writes, all below the end of the tag region. -/
theorem noCommandTouchesBytesPastTheTag : Obligations.NoCommandTouchesBytesPastTheTag := by
  intro i s m hlow
  have hend := exec_sameEnd i hlow
  refine ⟨fun t ht => ?_, fun e he => (hend.of_refused he).1⟩
  obtain ⟨_, ht', n, rfl, hcourse⟩ := hend.exists_of_next ht
  exact ⟨fun _ => hcourse.writes.read_past, _, ht', rfl, fun _ => hcourse.writes.read_below,
    fun _ => hcourse.writes.symm.read_past⟩

/-- Settles O18: no command ends in another refusal than that of an unwritten byte. -/
theorem onlyUnwrittenBytesRefuseACommand : Obligations.OnlyUnwrittenBytesRefuseACommand := fun i s _ he =>
  ((exec_sameEnd_self i s).of_refused he).2

/-- What a command lists anew lies in the buffer, and what it records is legal. -/
theorem exec_inv {i : Instr} {s t : State} (hs : s.Inv) (h : exec i s = .next t) : t.Inv := by
  obtain ⟨hwf, hcells, hstatus⟩ := hs
  obtain ⟨_, -, n, -, hcourse⟩ := (exec_sameEnd_self i s).exists_of_next h
  refine ⟨hcourse.writes.wf hwf, fun c hc => ?_, hcourse.status hstatus⟩
  rw [State.bufBytes, exec_config h]
  exact (hcourse.cells c hc).elim id (hcells c)

/-! ### Every host action -/

/-- An end without a fault, in a state that has the invariant where `s` has it. -/
inductive SoundEnd (s : State) : Result State → Prop
  | next {t : State} (h : s.Inv → t.Inv) : SoundEnd s (.next t)
  | refused (e : Refusal) : SoundEnd s (.refused e)

theorem SoundEnd.ne_fault {s : State} {r : Result State} (h : SoundEnd s r) (e : Fault) : r ≠ .fault e := by
  intro hr
  subst hr
  cases h

theorem SoundEnd.inv {s t : State} {r : Result State} (h : SoundEnd s r) (hr : r = .next t) (hs : s.Inv) : t.Inv := by
  subst hr
  cases h with
  | next h => exact h hs

theorem SoundEnd.mono {s s' : State} {r : Result State} (h : SoundEnd s r) (hs : s'.Inv → s.Inv) : SoundEnd s' r := by
  cases h with
  | next h => exact .next (h ∘ hs)
  | refused e => exact .refused e

theorem exec_sound (i : Instr) (s : State) : SoundEnd s (exec i s) := by
  cases h : exec i s with
  | next t => exact .next fun hs => exec_inv hs h
  | fault e => exact absurd h (exec_sameEnd_self i s).ne_fault
  | refused e => exact .refused e

/-- An illegal word records ILLEGAL, or is ignored. -/
theorem submit_sound (w : CmdWord) (s : State) : SoundEnd s (submit w s) := by
  cases hw : decode w with
  | ok i =>
    rw [submit_of_decode_ok hw]
    exact exec_sound i s
  | error _ =>
    rw [submit_of_decode_error hw]
    by_cases herr : s.err = 0
    · rw [accept_of_err_zero herr]
      exact .next fun ⟨hwf, hcells, _⟩ => ⟨hwf, hcells, statusLegal_takeFault .illegal w s⟩
    · rw [accept_of_err_ne_zero herr]
      exact .next id

/-- No register write reaches the buffer, ERR or ERRINFO but through a command. -/
theorem setReg_sound (reg : Reg) (v : Word) (s : State) : SoundEnd s (setReg reg v s) := by
  cases reg with
  | cmd => exact submit_sound _ s
  | _ => exact .next id

theorem regWrite_sound (r : BitVec 5) (v : Word) (s : State) : SoundEnd s (regWrite r v s) := by
  cases hof : regOf r with
  | none =>
    rw [regWrite_of_regOf_none hof]
    exact .next id
  | some reg =>
    rw [regWrite_of_regOf_some hof]
    exact setReg_sound reg v s

/-- An access that is not refused is made within the buffer. -/
theorem offered_cases {α : Type} (s : State) (a n : Nat) (f : Result α) :
    (s.inBuffer a n = true ∧ offered s a n f = f) ∨ ∃ e, offered s a n f = .refused e := by
  by_cases hbad : (n ≠ 1 ∧ n ≠ 8) ∨ (n = 8 ∧ a % 8 ≠ 0) ∨ s.bufBytes < a + n
  · exact .inr (offered_isRefused hbad)
  · have hin : s.inBuffer a n = true := inBuffer_iff.2 (by omega)
    exact .inl ⟨hin, offered_of_inBuffer (by omega) hin⟩

theorem bufWrite_sound (a n : Nat) (v : Word) (s : State) : SoundEnd s (bufWrite a n v s) := by
  unfold bufWrite
  obtain ⟨hin, hf⟩ | ⟨e, he⟩ := offered_cases s a n (writeMem n s a v)
  · rw [hf, writeMem_eq_next.2 ⟨hin, rfl⟩]
    refine .next fun ⟨hwf, hcells, hstatus⟩ => ⟨Memory.wf_writeLE hwf n a v, fun c hc => ?_, hstatus⟩
    obtain ⟨-, hlt⟩ | hc := Memory.mem_writeLE hc
    · exact hlt.trans_le (inBuffer_iff.1 hin)
    · exact hcells c hc
  · rw [he]
    exact .refused e

theorem bufRead_ne_fault (a n : Nat) (s : State) (e : Fault) : bufRead a n s ≠ .fault e := by
  unfold bufRead
  obtain ⟨hin, hf⟩ | ⟨e', he⟩ := offered_cases s a n (readMem n s a)
  · simp [hf, readMem_eq_fault, hin]
  · simp [he]

theorem perform_sound (a : HostAction) (s : State) : SoundEnd s (perform a s) := by
  cases a with
  | regRead r => exact .next id
  | regWrite r v => exact regWrite_sound r v s
  | bufRead a n =>
    change SoundEnd s (andThen (bufRead a n s) fun w => .next (s.observe w))
    cases h : bufRead a n s with
    | next w => exact .next id
    | fault e => exact absurd h (bufRead_ne_fault a n s e)
    | refused e => exact .refused e
  | bufWrite a n v => exact bufWrite_sound a n v s
  | reset => exact .next fun _ => resetHasTheInvariant s.config

/-- The script is no part of the invariant. -/
theorem step_sound (s : State) : SoundEnd s (step s) := by
  cases hs : s.script with
  | nil =>
    rw [step_of_script_nil hs]
    exact .next id
  | cons a rest =>
    rw [step_of_script hs]
    exact (perform_sound a { s with script := rest }).mono id

/-- Settles O17. -/
theorem noStepLeavesTheBuffer : Obligations.NoStepLeavesTheBuffer := fun s e => (step_sound s).ne_fault e

/-- Settles O20. -/
theorem stepKeepsTheInvariant : Obligations.StepKeepsTheInvariant := fun s _ hs h => (step_sound s).inv h hs

end Sys2Proof.Machine
end

section
/-! PROOFS. The decoder and the encoder of command words (`30_encoding.md` R80 to R86): how the decode procedure can
end, which words are encodings, and that these are the words that are not illegal. -/

namespace Sys2Proof.Machine

/-! ### The fields of a word -/

theorem opcodeField_toNat (w : CmdWord) : (opcodeField w).toNat = w.toNat % 256 := by
  rw [opcodeField, BitVec.extractLsb'_toNat, Nat.shiftRight_zero]

theorem imm8Field_toNat (w : CmdWord) : (imm8Field w).toNat = w.toNat / 256 % 256 := by
  rw [imm8Field, BitVec.extractLsb'_toNat, Nat.shiftRight_eq_div_pow]

theorem zeroField_toNat (w : CmdWord) : (zeroField w).toNat = w.toNat / 65536 := by
  have hw : w.toNat < 2 ^ 32 := w.isLt
  rw [zeroField, BitVec.extractLsb'_toNat, Nat.shiftRight_eq_div_pow]
  omega

/-- A word is its three fields. -/
theorem append_fields (w : CmdWord) : zeroField w ++ imm8Field w ++ opcodeField w = w := by
  rw [zeroField, imm8Field, opcodeField,
    BitVec.extractLsb'_append_extractLsb'_eq_extractLsb' (show 16 = 8 + 8 from rfl),
    BitVec.extractLsb'_append_extractLsb'_eq_extractLsb' (show 8 = 0 + 8 from rfl)]
  exact BitVec.extractLsb'_eq_self

theorem countOf_lt (w : CmdWord) : countOf w < 256 := by
  rw [countOf, BitVec.toNat_setWidth_of_le (by decide)]
  exact (imm8Field w).isLt

/-- The count of format N is the whole operand field (R82). -/
theorem ofNat_countOf (w : CmdWord) : BitVec.ofNat 8 (countOf w) = imm8Field w := by
  rw [countOf, BitVec.toNat_setWidth_of_le (by decide), BitVec.ofNat_toNat, BitVec.setWidth_eq]

/-- An 8-bit count is read back from the operand field (R82). -/
theorem countOf_of_imm8Field {w : CmdWord} {count : Nat} (h : imm8Field w = BitVec.ofNat 8 count)
    (hcount : count < 256) : countOf w = count := by
  rw [countOf, h, BitVec.toNat_setWidth_of_le (by decide), BitVec.toNat_ofNat, Nat.mod_eq_of_lt hcount]

/-! ### The encoding of a command -/

/-- The encoding of a command is the one word with its fields (R80, R83). -/
theorem encode_eq_iff {i : Instr} {w : CmdWord} :
    encode i = w ↔ opcodeField w = opcodeOf i ∧ imm8Field w = imm8Of i ∧ zeroField w = 0 := by
  constructor
  · rintro rfl
    exact Laws.wordLayout_of_fields (opcodeOf i) (imm8Of i)
  · rintro ⟨hop, himm, hz⟩
    rw [← append_fields w, hz, himm, hop, encode]

/-- A command with neither opcode of format N has zero in the operand field, and nothing that could be out of
bounds (R82, R88). -/
theorem imm8Of_and_wf_of_formatZ {i : Instr} (hr : opcodeOf i ≠ 0x10) (hl : opcodeOf i ≠ 0x11) :
    imm8Of i = 0 ∧ i.wf = true := by
  cases i with
  | permr count => exact absurd rfl hr
  | perml count => exact absurd rfl hl
  | _ => exact ⟨rfl, rfl⟩

theorem not_unassigned_opcodeOf (i : Instr) : ¬ unassigned (opcodeOf i).toNat := by
  unfold unassigned
  cases i with
  | permr count => exact of_decide_eq_true rfl
  | perml count => exact of_decide_eq_true rfl
  | _ => decide

/-! ### Illegal words -/

/-- R85's list, of the word's fields. -/
theorem illegalWord_iff {w : CmdWord} :
    illegalWord w ↔ unassigned (opcodeField w).toNat ∨ zeroField w ≠ 0 ∨
      (opcodeField w ≠ 0x10 ∧ opcodeField w ≠ 0x11 ∧ imm8Field w ≠ 0) := by
  simp only [illegalWord, ne_eq, ← BitVec.toNat_inj, opcodeField_toNat, imm8Field_toNat, zeroField_toNat,
    BitVec.toNat_ofNat, BitVec.ofNat_eq_ofNat, Nat.reducePow, Nat.reduceMod]

theorem not_illegalWord_encode (i : Instr) : ¬ illegalWord (encode i) := by
  obtain ⟨hop, himm, hz⟩ := encode_eq_iff.1 (rfl : encode i = encode i)
  rw [illegalWord_iff, hop, himm, hz]
  rintro (hun | hhigh | ⟨hr, hl, hbits⟩)
  · exact not_unassigned_opcodeOf i hun
  · exact hhigh rfl
  · exact hbits (imm8Of_and_wf_of_formatZ hr hl).1

/-! ### The decode procedure -/

/-- How the decode procedure can end on a word: with one of R85's three reasons, or with a well-formed command whose
encoding the word is (R84). -/
inductive DecodeEnd (w : CmdWord) : Except Reject Instr → Prop
  | highBits (hz : zeroField w ≠ 0) : DecodeEnd w (.error .highBits)
  | unassignedOpcode (hop : unassigned (opcodeField w).toNat) : DecodeEnd w (.error .unassignedOpcode)
  | operandBits (hr : opcodeField w ≠ 0x10) (hl : opcodeField w ≠ 0x11) (himm : imm8Field w ≠ 0) :
      DecodeEnd w (.error .operandBits)
  | command {i : Instr} (henc : encode i = w) (hwf : i.wf = true) : DecodeEnd w (.ok i)

theorem formatZ_of_imm8Field {w : CmdWord} (h : imm8Field w = 0) (i : Instr) : formatZ w i = .ok i :=
  if_neg (not_not.2 h)

/-- An accepted word with the fields of a well-formed command; the opcode is compared as a number, as in `decode`. -/
theorem command_end {w : CmdWord} {i : Instr} (hz : zeroField w = 0) (hop : (opcodeField w).toNat = (opcodeOf i).toNat)
    (himm : imm8Field w = imm8Of i) (hwf : i.wf = true) : DecodeEnd w (.ok i) :=
  .command (encode_eq_iff.2 ⟨BitVec.eq_of_toNat_eq hop, himm, hz⟩) hwf

/-- In format Z the operand bits decide between the command and `operandBits` (R84). -/
theorem formatZ_end {w : CmdWord} {i : Instr} (hz : zeroField w = 0) (hop : (opcodeField w).toNat = (opcodeOf i).toNat)
    (hr : opcodeOf i ≠ 0x10) (hl : opcodeOf i ≠ 0x11) : DecodeEnd w (formatZ w i) := by
  obtain ⟨hzero, hwf⟩ := imm8Of_and_wf_of_formatZ hr hl
  by_cases himm : imm8Field w = 0
  · rw [formatZ_of_imm8Field himm]
    exact command_end hz hop (himm.trans hzero.symm) hwf
  · rw [formatZ, if_pos himm]
    rw [← BitVec.eq_of_toNat_eq hop] at hr hl
    exact .operandBits hr hl himm

/-- The opcodes `decode` has no case for are the unassigned ones; its cases are of format Z but for two. -/
theorem decode_end (w : CmdWord) : DecodeEnd w (decode w) := by
  by_cases hz : zeroField w = 0
  · rw [decode, if_neg (not_not.2 hz)]
    split <;> rename_i hop
    any_goals exact formatZ_end hz hop (by decide) (by decide)
    · exact command_end hz hop (ofNat_countOf w).symm (decide_eq_true (countOf_lt w))
    · exact command_end hz hop (ofNat_countOf w).symm (decide_eq_true (countOf_lt w))
    · have hlt : (opcodeField w).toNat < 2 ^ 8 := (opcodeField w).isLt
      refine .unassignedOpcode ?_
      unfold unassigned
      simp only [imp_false] at *
      omega
  · rw [decode, if_pos hz]
    exact .highBits hz

theorem decode_encode {i : Instr} (hwf : i.wf = true) : decode (encode i) = .ok i := by
  obtain ⟨hop, himm, hz⟩ := encode_eq_iff.1 (rfl : encode i = encode i)
  rw [decode, if_neg (not_not.2 hz), hop]
  cases i with
  | permr count => exact congrArg (Except.ok ∘ Instr.permr) (countOf_of_imm8Field himm (of_decide_eq_true hwf))
  | perml count => exact congrArg (Except.ok ∘ Instr.perml) (countOf_of_imm8Field himm (of_decide_eq_true hwf))
  | _ => exact formatZ_of_imm8Field himm _

theorem encode_of_decode {w : CmdWord} {i : Instr} (h : decode w = .ok i) : encode i = w ∧ i.wf = true := by
  have hend := decode_end w
  rw [h] at hend
  cases hend with
  | command henc hwf => exact ⟨henc, hwf⟩

/-- The decoder rejects exactly the words of R85's list: no encoding is on it. -/
theorem decode_isError_iff {w : CmdWord} : (∃ r, decode w = .error r) ↔ illegalWord w := by
  constructor
  · rintro ⟨r, hr⟩
    have hend := decode_end w
    rw [hr] at hend
    rw [illegalWord_iff]
    cases hend with
    | highBits hz => exact .inr (.inl hz)
    | unassignedOpcode hop => exact .inl hop
    | operandBits hpermr hperml himm => exact .inr (.inr ⟨hpermr, hperml, himm⟩)
  · intro hill
    cases h : decode w with
    | error r => exact ⟨r, rfl⟩
    | ok i =>
      obtain ⟨rfl, -⟩ := encode_of_decode h
      exact absurd hill (not_illegalWord_encode i)

/-! ### The obligations -/

/-- Settles O1: the fields of the encoding lead the decoder to the command. -/
theorem decodeOfEncodeIsTheCommand : Obligations.DecodeOfEncodeIsTheCommand := fun _ => decode_encode

/-- Settles O2: the one end of the decode procedure with a command. -/
theorem decodedWordIsTheEncoding : Obligations.DecodedWordIsTheEncoding := fun _ _ => encode_of_decode

/-- Settles O3: an illegal word is one the decoder rejects, and its write only takes the fault. -/
theorem illegalWordsRaiseIllegalOnly : Obligations.IllegalWordsRaiseIllegalOnly := by
  refine ⟨fun w => decode_isError_iff, fun w s herr hill => ?_⟩
  obtain ⟨r, hr⟩ := decode_isError_iff.2 hill
  rw [onlyFaults, submit_of_decode_error hr, accept_of_err_zero herr]
  rfl

/-- Settles O4: the commands' words are their encodings, and each rejected word has the field that rejects it. -/
theorem wordsOfTheOpcodeMapDecode : Obligations.WordsOfTheOpcodeMapDecode := by
  have hdecode : ∀ (i : Instr) (w : CmdWord), encode i = w ∧ i.wf = true → decode w = .ok i :=
    fun i _ ⟨henc, hwf⟩ => henc ▸ decode_encode hwf
  exact ⟨hdecode .nop _ (by decide), hdecode .clr _ (by decide), hdecode (.permr 4) _ (by decide),
    hdecode (.perml 255) _ (by decide), hdecode .encw _ (by decide), hdecode .uninit _ (by decide),
    hdecode .padchk _ (by decide), hdecode .sealBuf _ (by decide), hdecode .openBuf _ (by decide),
    by decide, by decide, by decide⟩

end Sys2Proof.Machine
end

section
/-! PROOFS. The ARX round and its inverse (`40_round.md` R100 to R105), and the words and effects of PERMR and PERML. -/

namespace Sys2Proof.Machine

/-! ### The rounds -/

/-- XOR with a word is its own inverse: why lines 3' and 7' repeat the operation of lines 3 and 7. -/
theorem xor_xor_self (a b : Word) : a ^^^ b ^^^ b = a := by
  rw [BitVec.xor_assoc, BitVec.xor_self, BitVec.xor_zero]

/-- Each line of R101 undoes the line of R100 it reverses: a rotation by a rotation, a sum by a difference, an XOR
by itself. -/
theorem permL_permR : Function.LeftInverse permL permR := fun s => by
  simp only [permR, permL, rotr64_rotl64, Nat.reduceLeDiff, xor_xor_self, BitVec.add_sub_cancel]

/-- The lines of R100 undo those of R101 in the same way. -/
theorem permR_permL : Function.LeftInverse permR permL := fun s => by
  simp only [permR, permL, rotl64_rotr64, Nat.reduceLeDiff, xor_xor_self, BitVec.sub_add_cancel]

theorem permR_zero : permR ⟨0, 0, 0, 0⟩ = ⟨0, 0, 0, 0⟩ := by decide

/-! ### The commands -/

theorem exec_permr (count : Nat) (s : State) (h : s.err = 0) :
    exec (.permr count) s = .next { s with v := permR^[count] s.v } := by
  rw [exec_of_err_zero _ h, ← rounds_eq_iterate]
  rfl

theorem exec_perml (count : Nat) (s : State) (h : s.err = 0) :
    exec (.perml count) s = .next { s with v := permL^[count] s.v } := by
  rw [exec_of_err_zero _ h, ← rounds_eq_iterate]
  rfl

/-- Two commands that only apply inverse functions to the sponge, one after the other, change nothing. -/
theorem execAll_pair_of_leftInverse {i j : Instr} {f g : Sponge → Sponge}
    (hi : ∀ s : State, s.err = 0 → exec i s = .next { s with v := f s.v })
    (hj : ∀ s : State, s.err = 0 → exec j s = .next { s with v := g s.v })
    (hgf : Function.LeftInverse g f) {s : State} (h : s.err = 0) : execAll [i, j] s = .next s := by
  rw [execAll, hi s h, andThen_next, execAll, hj { s with v := f s.v } h, andThen_next, execAll, hgf]

/-! ### Their words -/

/-- The word of a command as a number, `opcode + 256 * count` (R83). -/
theorem encode_toNat (i : Instr) : (encode i).toNat = (opcodeOf i).toNat + 256 * (imm8Of i).toNat := by
  obtain ⟨hop, himm, hz⟩ := encode_eq_iff.1 (rfl : encode i = encode i)
  have hop := opcodeField_toNat (encode i) ▸ congrArg BitVec.toNat hop
  have himm := imm8Field_toNat (encode i) ▸ congrArg BitVec.toNat himm
  have hz := zeroField_toNat (encode i) ▸ congrArg BitVec.toNat hz
  rw [BitVec.ofNat_eq_ofNat, BitVec.toNat_ofNat, Nat.zero_mod] at hz
  omega

/-- The word of a format N command decodes to it, the count written out as a number. -/
theorem decode_ofNat_of_imm8Of {i : Instr} {count : Nat} (himm : imm8Of i = BitVec.ofNat 8 count) (hwf : i.wf = true)
    (hcount : count < 256) : decode (BitVec.ofNat 32 ((opcodeOf i).toNat + 256 * count)) = .ok i := by
  have hword : (opcodeOf i).toNat + 256 * count = (encode i).toNat := by
    rw [encode_toNat, himm, BitVec.toNat_ofNat, Nat.mod_eq_of_lt hcount]
  rw [hword, BitVec.ofNat_toNat, BitVec.setWidth_eq, decode_encode hwf]

/-! ### The obligations -/

/-- Settles O27: one round is undone line by line, and so every number of them. -/
theorem roundAndInverseRoundCancel : Obligations.RoundAndInverseRoundCancel := by
  refine ⟨fun s => ⟨permL_permR s, permR_permL s⟩, fun n s => ?_⟩
  simp only [rounds_eq_iterate]
  exact ⟨permL_permR.iterate n s, permR_permL.iterate n s⟩

/-- Settles O29: the words by the encoder's round trip, the effects as iterates that cancel. -/
theorem permCommandsApplyTheirRounds : Obligations.PermCommandsApplyTheirRounds :=
  ⟨fun count hcount =>
    ⟨decode_ofNat_of_imm8Of (i := .permr count) rfl (decide_eq_true hcount) hcount,
      decode_ofNat_of_imm8Of (i := .perml count) rfl (decide_eq_true hcount) hcount⟩,
    fun count s h =>
      ⟨exec_permr count s h, exec_perml count s h,
        execAll_pair_of_leftInverse (exec_permr count) (exec_perml count) (permL_permR.iterate count) h,
        execAll_pair_of_leftInverse (exec_perml count) (exec_permr count) (permR_permL.iterate count) h⟩⟩

/-- Settles O26: the definition with its lines' values named. -/
theorem forwardRoundIsItsEightLines : Obligations.ForwardRoundIsItsEightLines := fun _ => rfl

/-- Settles O28: the round fixes the zero state, and so does its inverse. -/
theorem zeroIsAFixedPointOfTheRounds : Obligations.ZeroIsAFixedPointOfTheRounds :=
  ⟨permR_zero, by simpa only [permR_zero] using permL_permR ⟨0, 0, 0, 0⟩⟩

end Sys2Proof.Machine
end

section
/-! PROOFS. Initialisation (`41_init.md` R110 to R113): the words and effects of SINIT, NABS and DSEP, and INIT as the
three in order. -/

namespace Sys2Proof.Machine

/-! ### Sequences of commands -/

theorem execAll_cons_of_next {i : Instr} {s t : State} (h : exec i s = .next t) (l : List Instr) :
    execAll (i :: l) s = execAll l t := by
  rw [execAll, h, andThen_next]

/-- While a fault is recorded a sequence without CLR is ignored as a whole (R207). -/
theorem execAll_of_faulted {l : List Instr} (hl : .clr ∉ l) {s : State} (h : s.err ≠ 0) : execAll l s = .next s := by
  induction l with
  | nil => rfl
  | cons i l ih =>
    obtain ⟨hi, hl⟩ := not_or.1 (List.mem_cons.not.1 hl)
    rw [execAll_cons_of_next (exec_of_faulted (Ne.symm hi) h), ih hl]

/-! ### The commands -/

theorem decode_of_encode_eq {i : Instr} {w : CmdWord} (h : encode i = w) (hwf : i.wf = true) : decode w = .ok i :=
  h ▸ decode_encode hwf

theorem exec_sinit {s : State} (h : s.err = 0) : exec .sinit s = .next (sinitBody s) := exec_of_err_zero .sinit h

theorem exec_nabs {s : State} (h : s.err = 0) : exec .nabs s = .next (nabsBody s) := exec_of_err_zero .nabs h

theorem exec_dsep {s : State} (h : s.err = 0) : exec .dsep s = .next (dsepBody s) := exec_of_err_zero .dsep h

theorem exec_init {s : State} (h : s.err = 0) : exec .init s = .next (initBody s) := exec_of_err_zero .init h

theorem separate_separate : Function.LeftInverse separate separate := fun v => by
  simp only [separate, xor_xor_self]

/-- The separation constant is one byte, so no bit above 7 changes (R112). -/
theorem xor_dsEnc_shiftRight (a : Word) : (a ^^^ Config.dsEnc) >>> 8 = a >>> 8 := by
  have hbyte : Config.dsEnc >>> 8 = 0 := by decide
  rw [BitVec.ushiftRight_xor_distrib, hbyte, BitVec.ofNat_eq_ofNat, BitVec.xor_zero]

theorem keyedSponge_congr {s s' : State} (hk : s.k = s'.k) (hconfig : s.config = s'.config) :
    s.keyedSponge = s'.keyedSponge := by
  rw [State.keyedSponge, State.keyedSponge, hk, hconfig]

/-- The three steps keep ERR, so a recorded fault stops all of them or none. -/
theorem exec_init_eq_execAll (s : State) : exec .init s = execAll [.sinit, .nabs, .dsep] s := by
  by_cases h : s.err = 0
  · have hsinit : (sinitBody s).err = 0 := h
    have hnabs : (nabsBody (sinitBody s)).err = 0 := h
    rw [exec_init h, execAll_cons_of_next (exec_sinit h), execAll_cons_of_next (exec_nabs hsinit),
      execAll_cons_of_next (exec_dsep hnabs), execAll, initBody]
  · rw [exec_of_faulted (by decide) h, execAll_of_faulted (by decide) h]

theorem init_v_of_next {s t : State} (h : s.err = 0) (ht : exec .init s = .next t) :
    t.v = separate (absorbNonce s.n s.keyedSponge) := by
  cases (exec_init h).symm.trans ht
  exact initBody_v s

/-! ### The obligations -/

/-- Settles O33: INIT is its three bodies in order, and the sponge they leave is a function of K, N and the
constants. -/
theorem initIsItsThreeSteps : Obligations.InitIsItsThreeSteps := by
  refine ⟨decode_of_encode_eq (by decide) rfl, exec_init_eq_execAll, fun s h => ⟨initBody s, exec_init h, rfl⟩, ?_⟩
  intro s s' t t' h h' hk hn hconfig ht ht'
  rw [init_v_of_next h ht, init_v_of_next h' ht', hn, keyedSponge_congr hk hconfig]

/-- Settles O30: the body of SINIT with the keyed state written out. -/
theorem sinitBuildsTheKeyedState : Obligations.SinitBuildsTheKeyedState :=
  ⟨decode_of_encode_eq (by decide) rfl, fun _ h => exec_sinit h⟩

/-- Settles O31: the body of NABS with the sponge after each of its rounds named. -/
theorem nabsAbsorbsBothNonceWords : Obligations.NabsAbsorbsBothNonceWords := by
  refine ⟨decode_of_encode_eq (by decide) rfl, ?_⟩
  rintro s _ _ h rfl rfl
  exact exec_nabs h

/-- Settles O32: the constant is one byte, and its XOR is an involution. -/
theorem dsepSeparatesTheMode : Obligations.DsepSeparatesTheMode :=
  ⟨decode_of_encode_eq (by decide) rfl, fun s h =>
    ⟨exec_dsep h, xor_dsEnc_shiftRight s.v.v0,
      execAll_pair_of_leftInverse (fun _ => exec_dsep) (fun _ => exec_dsep) separate_separate h⟩⟩

end Sys2Proof.Machine
end

section
/-! PROOFS. The word-step commands behind their checks (`42_loop.md` R120 to R123): when ENCW, ENCLOOP, DECW and DECLOOP
run their bodies, and when they raise BOUNDS. -/

namespace Sys2Proof.Machine

section
variable {i : Instr} {ok : Bool} {f : State → Result State} {s t : State}

/-- Where its checks pass, a word-step command is its body. -/
theorem exec_eq_body (hop : operation i s = requireStep i ok s f) (herr : s.err = 0) (hready : s.stepReady)
    (hok : ok = true) : exec i s = f s := by
  obtain ⟨hbuf, hvalid⟩ := hready
  rw [exec_of_err_zero i herr, hop]
  exact requireStep_eq.2 (.inl ⟨⟨hbuf, hvalid, hok⟩, rfl⟩)

/-- Where one of its checks fails, it raises BOUNDS and changes nothing else. -/
theorem exec_onlyFaults_bounds (hop : operation i s = requireStep i ok s f) (herr : s.err = 0)
    (hbad : s.bufOK = false ∨ s.pos.valid s.len = false ∨ ok = false) : onlyFaults 5 (encode i) s (exec i s) := by
  have hnot : ¬ (s.bufOK = true ∧ s.pos.valid s.len = true ∧ ok = true) := by
    rintro ⟨hbuf, hvalid, hok⟩
    simp [hbuf, hvalid, hok] at hbad
  have hraise : exec i s = raise .bounds i s := by
    rw [exec_of_err_zero i herr, hop]
    exact requireStep_eq.2 (.inr ⟨hnot, rfl⟩)
  exact hraise

/-- A word-step command that leaves no fault recorded found none, passed its checks and ran its body. -/
theorem exec_completed (hi : i ≠ .clr) (hop : operation i s = requireStep i ok s f) (ht : t.err = 0)
    (h : exec i s = .next t) : s.stepReady ∧ ok = true ∧ f s = .next t := by
  rw [exec_eq_accept hi] at h
  obtain ⟨herr, h⟩ | ⟨-, h⟩ := accept_eq.1 h
  · cases h
    exact absurd ht herr
  · rw [hop] at h
    obtain ⟨⟨hbuf, hvalid, hok⟩, h⟩ | ⟨-, h⟩ := requireStep_eq.1 h
    · exact ⟨⟨hbuf, hvalid⟩, hok, h⟩
    · obtain ⟨w, rfl⟩ := takeFault_of_raise h
      exact absurd ht (show (5 : BitVec 4) ≠ 0 by decide)

end

/-! ### What the checks say of the position -/

theorem unfinished_iff {s : State} : s.unfinished = true ↔ s.pos.pass.toNat < 3 := decide_eq_true_iff

theorem started_iff {s : State} : s.started = true ↔ s.pos ≠ ⟨0, 0⟩ := bne_iff_ne

theorem State.stepReady.one_le_len {s : State} (h : s.stepReady) : 1 ≤ s.len.toNat := (bufOK_iff.1 h.1).1

/-- At a valid position that has a step left, PASS and IDX designate a word of the message. -/
theorem State.stepReady.bounds_of_unfinished {s : State} (h : s.stepReady) (hmore : s.unfinished = true) :
    s.pos.pass.toNat < 3 ∧ s.pos.idx.toNat < s.len.toNat := by
  have hpass := unfinished_iff.1 hmore
  have hvalid := Position.valid_iff.1 h.2
  omega

/-- At a valid position other than (0, 0), so does the position before. -/
theorem State.stepReady.bounds_of_started {s : State} (h : s.stepReady) (hmore : s.started = true) :
    (s.pos.prev s.len).pass.toNat < 3 ∧ (s.pos.prev s.len).idx.toNat < s.len.toNat :=
  Position.prev_bounds h.2 h.one_le_len (started_iff.1 hmore)

end Sys2Proof.Machine
end

section
/-! PROOFS. One word step (`42_loop.md` R120, R122, R125): what ENCW and DECW do where they complete, and why each undoes
the other. -/

namespace Sys2Proof.Machine

/-! ### Completion -/

/-- The word of a position in the message lies in the buffer (R64). -/
theorem currentAddr_inBuffer {s : State} (hbuf : s.bufOK = true) (hidx : s.pos.idx.toNat < s.len.toNat) :
    s.inBuffer s.currentAddr 8 = true := by
  obtain ⟨-, hfits⟩ := bufOK_iff.1 hbuf
  exact inBuffer_iff.2 ((currentAddr_add_le hidx).trans hfits)

theorem State.written.exists_readLE {s : State} {a : Nat} (h : s.written a 8) : ∃ w, s.buf.readLE 8 a = some w :=
  Option.isSome_iff_exists.1 (Memory.readLE_isSome.2 h)

/-- A forward word step completes where its word holds a value. -/
theorem encStep_of_written {s : State} (hbuf : s.bufOK = true) (hidx : s.pos.idx.toNat < s.len.toNat)
    (hw : s.written s.currentAddr 8) : ∃ p, s.buf.readLE 8 s.currentAddr = some p ∧ encStep s = .next
      { s.advance with
        v := forwardSponge s.kw s.nw s.gamma p s.v
        buf := s.buf.writeLE 8 s.currentAddr (p + (forwardSponge s.kw s.nw s.gamma p s.v).v3) } := by
  obtain ⟨p, hp⟩ := hw.exists_readLE
  exact ⟨p, hp, encStep_eq_next.2 ⟨p, currentAddr_inBuffer hbuf hidx, hp, rfl⟩⟩

/-- An inverse word step completes where the word of the position before holds a value. -/
theorem decStep_of_written {s : State} (hbuf : s.bufOK = true) (hidx : (s.pos.prev s.len).idx.toNat < s.len.toNat)
    (hw : s.written s.retreat.currentAddr 8) : ∃ c, s.buf.readLE 8 s.retreat.currentAddr = some c ∧ decStep s = .next
      { s.retreat with
        v := inverseSponge s.retreat.kw s.retreat.nw s.retreat.gamma (c - s.v.v3) s.v
        buf := s.buf.writeLE 8 s.retreat.currentAddr (c - s.v.v3) } := by
  obtain ⟨c, hc⟩ := hw.exists_readLE
  exact ⟨c, hc, decStep_eq_next.2 ⟨c, currentAddr_inBuffer (s := s.retreat) hbuf hidx, hc, rfl⟩⟩

/-- Settles O35: the checks pass and the body completes, or one of them fails. -/
theorem encwStepsOneWord : Obligations.EncwStepsOneWord := by
  refine ⟨decode_of_encode_eq (by decide) rfl, fun s herr hbuf hpass hidx hw => ?_, fun s herr hbad => ?_⟩
  · have hready : s.stepReady := ⟨hbuf, Position.valid_iff.2 (.inl ⟨hpass, hidx⟩)⟩
    have hexec : exec .encw s = encStep s := exec_eq_body rfl herr hready (unfinished_iff.2 hpass)
    obtain ⟨p, hp, hstep⟩ := encStep_of_written hbuf hidx hw
    exact ⟨p, _, _, hp, rfl, hexec.trans hstep, Memory.readLE_writeLE_same _ _ _,
      fun _ hb => Memory.read_writeLE_other _ _ _ _ hb, rfl⟩
  · have hdone : s.pos.pass = 3 → s.unfinished = false := fun h => decide_eq_false (by rw [h]; decide)
    exact exec_onlyFaults_bounds rfl herr (hbad.imp_right (Or.imp_right hdone))

/-- Settles O36: as O35, at the position before. -/
theorem decwStepsOneWordBack : Obligations.DecwStepsOneWordBack := by
  refine ⟨decode_of_encode_eq (by decide) rfl, ?_, fun s herr hbad => ?_⟩
  · rintro s _ herr hbuf hvalid hstart rfl hw
    have hready : s.stepReady := ⟨hbuf, hvalid⟩
    have hmore : s.started = true := started_iff.2 hstart
    have hexec : exec .decw s = decStep s := exec_eq_body rfl herr hready hmore
    obtain ⟨-, hidx⟩ := hready.bounds_of_started hmore
    obtain ⟨c, hc, hstep⟩ := decStep_of_written hbuf hidx hw
    exact ⟨c, _, _, _, _, hc, rfl, rfl, rfl, hexec.trans hstep, Memory.readLE_writeLE_same _ _ _,
      fun _ hb => Memory.read_writeLE_other _ _ _ _ hb, rfl⟩
  · have hdone : s.pos = ⟨0, 0⟩ → s.started = false := fun h => by rw [State.started, h]; rfl
    exact exec_onlyFaults_bounds rfl herr (hbad.imp_right (Or.imp_right hdone))

/-! ### Each step undoes the other -/

@[simp] theorem Pair.swap_swap (p : Pair) : p.swap.swap = p := rfl

theorem keyMix_keyMix (kw nw : Pair) (gamma : Word) : Function.LeftInverse (keyMix kw nw gamma) (keyMix kw nw gamma) :=
  fun v => by simp only [keyMix, xor_xor_self]

/-- The inverse step's XORs, inverse round and key mix undo those of the forward step in the reverse order. -/
theorem inverseSponge_forwardSponge (kw nw : Pair) (gamma p : Word) :
    Function.LeftInverse (inverseSponge kw nw gamma p) (forwardSponge kw nw gamma p) := fun v => by
  simp only [inverseSponge, forwardSponge, xor_xor_self, permL_permR _, keyMix_keyMix kw nw gamma _]

theorem forwardSponge_inverseSponge (kw nw : Pair) (gamma w : Word) :
    Function.LeftInverse (forwardSponge kw nw gamma w) (inverseSponge kw nw gamma w) := fun v => by
  simp only [inverseSponge, forwardSponge, xor_xor_self, permR_permL _, keyMix_keyMix kw nw gamma _]

/-- A word overwritten and then put back leaves a canonical buffer as it was. -/
theorem Memory.writeLE_writeLE_back {m : Memory} (hwf : m.wf) {a : Nat} {w : Word} (h : m.readLE 8 a = some w)
    (x : Word) : (m.writeLE 8 a x).writeLE 8 a w = m := by
  refine Memory.ext_read (Memory.wf_writeLE (Memory.wf_writeLE hwf _ _ _) _ _ _) hwf fun b => ?_
  by_cases hb : a ≤ b ∧ b < a + 8
  · obtain ⟨k, rfl⟩ := Nat.exists_eq_add_of_le hb.1
    rw [Memory.read_writeLE _ 8 a w (by omega), Memory.readLE_eight_eq_some.1 h k (by omega)]
  · rw [Memory.read_writeLE_other _ 8 a w (by omega), Memory.read_writeLE_other _ 8 a x (by omega)]

theorem retreat_advance {s : State} (hpass : s.pos.pass.toNat < 3) (hidx : s.pos.idx.toNat < s.len.toNat) :
    s.advance.retreat = s := by
  simp only [State.retreat, State.advance, BitVec.add_sub_cancel, Pair.swap_swap, Position.prev_next hpass hidx]

theorem advance_retreat {s : State} (hready : s.stepReady) (hmore : s.started = true) : s.retreat.advance = s := by
  simp only [State.retreat, State.advance, BitVec.sub_add_cancel, Pair.swap_swap,
    Position.next_prev hready.2 hready.one_le_len (started_iff.1 hmore)]

/-- R125: "DECW's first four statements undo ENCW's last four". -/
theorem decStep_of_encStep {s t : State} (hwf : s.buf.wf) (hready : s.stepReady) (hmore : s.unfinished = true)
    (h : encStep s = .next t) : decStep t = .next s := by
  obtain ⟨hpass, hidx⟩ := hready.bounds_of_unfinished hmore
  obtain ⟨p, hin, hp, rfl⟩ := encStep_eq_next.1 h
  have hback : ∀ v m, ({ s.advance with v := v, buf := m } : State).retreat = { s with v := v, buf := m } :=
    fun v m => congrArg (fun u : State => { u with v := v, buf := m }) (retreat_advance hpass hidx)
  rw [decStep_eq_next]
  simp only [hback]
  refine ⟨_, hin, Memory.readLE_writeLE_same _ _ _, ?_⟩
  simp only [BitVec.add_sub_cancel, inverseSponge_forwardSponge _ _ _ _ s.v]
  exact congrArg (fun m : Memory => { s with buf := m }) (Memory.writeLE_writeLE_back hwf hp _).symm

theorem encStep_of_decStep {s t : State} (hwf : s.buf.wf) (hready : s.stepReady) (hmore : s.started = true)
    (h : decStep s = .next t) : encStep t = .next s := by
  obtain ⟨c, hin, hc, rfl⟩ := decStep_eq_next.1 h
  have hback : ∀ v m, ({ s.retreat with v := v, buf := m } : State).advance = { s with v := v, buf := m } :=
    fun v m => congrArg (fun u : State => { u with v := v, buf := m }) (advance_retreat hready hmore)
  rw [encStep_eq_next]
  simp only [hback]
  refine ⟨_, hin, Memory.readLE_writeLE_same _ _ _, ?_⟩
  simp only [forwardSponge_inverseSponge _ _ _ _ s.v, BitVec.sub_add_cancel]
  exact congrArg (fun m : Memory => { s with buf := m }) (Memory.writeLE_writeLE_back hwf hc _).symm

/-! ### The commands -/

theorem exec_decw_of_encw {s t : State} (hwf : s.buf.wf) (ht : t.err = 0) (h : exec .encw s = .next t) :
    exec .decw t = .next s := by
  obtain ⟨hready, hmore, hstep⟩ := exec_completed (by decide) rfl ht h
  obtain ⟨hpass, hidx⟩ := hready.bounds_of_unfinished hmore
  have hback := decStep_of_encStep hwf hready hmore hstep
  obtain ⟨p, -, -, rfl⟩ := encStep_eq_next.1 hstep
  rw [← hback]
  exact exec_eq_body rfl ht ⟨hready.1, Position.next_valid hpass hidx⟩
    (started_iff.2 (Position.next_ne_start hpass hidx))

theorem exec_encw_of_decw {s t : State} (hwf : s.buf.wf) (ht : t.err = 0) (h : exec .decw s = .next t) :
    exec .encw t = .next s := by
  obtain ⟨hready, hmore, hstep⟩ := exec_completed (by decide) rfl ht h
  obtain ⟨hpass, hidx⟩ := hready.bounds_of_started hmore
  have hback := encStep_of_decStep hwf hready hmore hstep
  obtain ⟨c, -, -, rfl⟩ := decStep_eq_next.1 hstep
  rw [← hback]
  exact exec_eq_body rfl ht ⟨hready.1, Position.valid_iff.2 (.inl ⟨hpass, hidx⟩)⟩ (unfinished_iff.2 hpass)

/-- Settles O37. -/
theorem wordStepsAreInverse : Obligations.WordStepsAreInverse := fun _ _ _ hwf ht =>
  ⟨exec_decw_of_encw hwf ht, exec_encw_of_decw hwf ht⟩

end Sys2Proof.Machine
end

section
/-! PROOFS. Runs of word steps, forward and back (`42_loop.md` R121, R123, R124): what `k` steps change, and what the two
loops share. -/

namespace Sys2Proof.Machine

/-! ### Positions by their order numbers -/

/-- PASS and IDX of a valid position are the quotient and the remainder of its order number by LEN (R124). -/
theorem Position.eq_divMod {p : Position} {len : BitVec 32} (hvalid : p.valid len = true) (hlen : 1 ≤ len.toNat) :
    p.pass.toNat = p.ordinal len / len.toNat ∧ p.idx.toNat = p.ordinal len % len.toNat := by
  have hidx : p.idx.toNat < len.toNat := by
    rw [Position.valid_iff] at hvalid
    omega
  have hordinal : p.idx.toNat + len.toNat * p.pass.toNat = p.ordinal len := by
    rw [Position.ordinal, Nat.mul_comm, Nat.add_comm]
  obtain ⟨hdiv, hmod⟩ := (Nat.div_mod_unique hlen).2 ⟨hordinal, hidx⟩
  exact ⟨hdiv.symm, hmod.symm⟩

/-- A valid position is known by its order number. -/
theorem Position.eq_of_ordinal_eq {p q : Position} {len : BitVec 32} (hp : p.valid len = true)
    (hq : q.valid len = true) (hlen : 1 ≤ len.toNat) (h : p.ordinal len = q.ordinal len) : p = q := by
  obtain ⟨hpPass, hpIdx⟩ := Position.eq_divMod hp hlen
  obtain ⟨hqPass, hqIdx⟩ := Position.eq_divMod hq hlen
  exact Position.eq_of_toNat (by rw [hpPass, hqPass, h]) (by rw [hpIdx, hqIdx, h])

theorem Position.start_valid {len : BitVec 32} (hlen : 1 ≤ len.toNat) : (⟨0, 0⟩ : Position).valid len = true :=
  Position.valid_iff.2 (.inl ⟨Nat.zero_lt_succ 2, hlen⟩)

theorem Position.finish_valid (len : BitVec 32) : (⟨3, 0⟩ : Position).valid len = true :=
  Position.valid_iff.2 (.inr ⟨rfl, rfl⟩)

theorem Position.ordinal_start (len : BitVec 32) : (⟨0, 0⟩ : Position).ordinal len = 0 := Nat.zero_mul _

theorem Position.ordinal_finish (len : BitVec 32) : (⟨3, 0⟩ : Position).ordinal len = 3 * len.toNat := rfl

/-! ### Exchanged pairs -/

theorem Pair.exchanged_add (p : Pair) (j k : Nat) : (p.exchanged j).exchanged k = p.exchanged (j + k) := by
  obtain hj | hj := Nat.mod_two_eq_zero_or_one j <;> obtain hk | hk := Nat.mod_two_eq_zero_or_one k <;>
    simp [Pair.exchanged, Nat.add_mod, hj, hk]

theorem Pair.exchanged_of_even (p : Pair) {j : Nat} (h : j % 2 = 0) : p.exchanged j = p :=
  if_neg (by omega)

theorem Pair.exchanged_of_odd (p : Pair) {j : Nat} (h : j % 2 = 1) : p.exchanged j = p.swap := if_pos h

/-! ### What `k` word steps change -/

/-- From `s` to `t` there were `k` word steps that each added `d` to GAMMA: `d` is DELTA forward and its negative
back. -/
structure Moved (d : Word) (k : Nat) (s t : State) : Prop where
  writes : LoopWrites s t
  gamma : t.gamma = s.gamma + BitVec.ofNat 64 k * d
  kw : t.kw = s.kw.exchanged k
  nw : t.nw = s.nw.exchanged k
  outside : sameOutside 0 s.messageBytes s t
  written : ∀ a, (s.buf.read a).isSome → (t.buf.read a).isSome

section
variable {d : Word} {j k : Nat} {s t u : State}

/-- What is read off the parts a word step does not write stays. -/
theorem LoopWrites.apply_eq {α : Type} (h : LoopWrites s t) (f : State → α) : f t = f (s.takeLoop t) := congrArg f h

theorem LoopWrites.len_eq (h : LoopWrites s t) : t.len = s.len := h.apply_eq State.len

theorem LoopWrites.err_eq (h : LoopWrites s t) : t.err = s.err := h.apply_eq State.err

theorem LoopWrites.bufOK_eq (h : LoopWrites s t) : t.bufOK = s.bufOK := h.apply_eq State.bufOK

theorem LoopWrites.messageBytes_eq (h : LoopWrites s t) : t.messageBytes = s.messageBytes :=
  h.apply_eq State.messageBytes

theorem LoopWrites.totalSteps_eq (h : LoopWrites s t) : t.totalSteps = s.totalSteps :=
  h.apply_eq State.totalSteps

theorem Moved.refl (d : Word) (s : State) : Moved d 0 s s :=
  ⟨.refl s, by simp, rfl, rfl, fun _ _ => rfl, fun _ h => h⟩

theorem Moved.trans (hst : Moved d j s t) (htu : Moved d k t u) : Moved d (j + k) s u where
  writes := hst.writes.trans htu.writes
  gamma := by rw [htu.gamma, hst.gamma, BitVec.ofNat_add, BitVec.add_mul, BitVec.add_assoc]
  kw := by rw [htu.kw, hst.kw, Pair.exchanged_add]
  nw := by rw [htu.nw, hst.nw, Pair.exchanged_add]
  outside a ha := (htu.outside a (hst.writes.messageBytes_eq.symm ▸ ha)).trans (hst.outside a ha)
  written a ha := htu.written a (hst.written a ha)

theorem Moved.messageWritten (h : Moved d k s t) (hw : s.written 0 s.messageBytes) : t.written 0 t.messageBytes := by
  rw [h.writes.messageBytes_eq]
  exact fun i hi => h.written _ (hw i hi)

/-- All that changes is the sponge, what the step counts, the position and the buffer. -/
theorem Moved.eq_of_pos (h : Moved d k s t) {p : Position} (hp : t.pos = p) :
    t = { s with
      v := t.v
      gamma := s.gamma + BitVec.ofNat 64 k * d
      kw := s.kw.exchanged k
      nw := s.nw.exchanged k
      pos := p
      buf := t.buf } := by
  rw [← h.gamma, ← h.kw, ← h.nw, ← hp]
  exact h.writes

/-- One step: the word it writes is a word of the message. -/
theorem Moved.one {i : Nat} {w : Word} (hi : i < s.len.toNat) (hwrites : LoopWrites s t)
    (hgamma : t.gamma = s.gamma + d) (hkw : t.kw = s.kw.swap) (hnw : t.nw = s.nw.swap)
    (hbuf : t.buf = s.buf.writeLE 8 (wordAddr i) w) : Moved d 1 s t where
  writes := hwrites
  gamma := by rw [hgamma, BitVec.one_mul]
  kw := hkw
  nw := hnw
  outside a ha := by
    rw [State.messageBytes] at ha
    rw [hbuf, Memory.read_writeLE_other _ 8 _ w (by rw [wordAddr]; omega)]
  written a ha := by
    rw [hbuf]
    by_cases hin : wordAddr i ≤ a ∧ a < wordAddr i + 8
    · obtain ⟨b, rfl⟩ := Nat.exists_eq_add_of_le hin.1
      rw [Memory.read_writeLE _ 8 _ w (by omega)]
      rfl
    · rwa [Memory.read_writeLE_other _ 8 _ w (by omega)]

end

/-! ### A word-step command and its loop -/

/-- What the two loops share: `body` is one word step, which adds `d` to GAMMA; `i` is the command that makes it; `more`
is the loop's test and `left` the number of steps it has left. -/
structure WordCommand (i : Instr) (more : State → Bool) (body : State → Result State) (left : State → Nat)
    (d : Word) : Prop where
  more_iff {s : State} : s.stepReady → (more s = true ↔ 0 < left s)
  exec_eq {s : State} : s.err = 0 → s.stepReady → more s = true → exec i s = body s
  moved {s t : State} : s.stepReady → more s = true → body s = .next t →
    Moved d 1 s t ∧ t.stepReady ∧ left t + 1 = left s
  isNext {s : State} : s.stepReady → more s = true → s.written 0 s.messageBytes → ∃ t, body s = .next t

theorem andThen_congr {α β : Type} {r : Result α} {f g : α → Result β} (h : ∀ x, r = .next x → f x = g x) :
    andThen r f = andThen r g := by
  cases r with
  | next x => exact h x rfl
  | fault e => rfl
  | refused e => rfl

namespace WordCommand
variable {i : Instr} {more : State → Bool} {body : State → Result State} {left : State → Nat} {d : Word}

/-- The loop is its command repeated, whatever its turns end in. -/
theorem loopWhile_eq (h : WordCommand i more body left d) {n : Nat} {s : State} (herr : s.err = 0)
    (hready : s.stepReady) (hn : left s ≤ n) :
    loopWhile more body n s = execAll (List.replicate (left s) i) s := by
  have hmore := h.more_iff hready
  induction n generalizing s with
  | zero =>
    rw [Nat.le_zero.1 hn]
    rfl
  | succ n ih =>
    cases hleft : left s with
    | zero => exact loopWhile_of_done (Bool.eq_false_iff.2 fun hm => (hmore.1 hm).ne' hleft) _
    | succ k =>
      have hm : more s = true := hmore.2 (by omega)
      rw [loopWhile_of_more hm, List.replicate_succ, execAll, h.exec_eq herr hready hm]
      refine andThen_congr fun u hu => ?_
      obtain ⟨hmoved, hready', hcount⟩ := h.moved hready hm hu
      have hk : left u = k := by omega
      rw [ih (hmoved.writes.err_eq.trans herr) hready' (by omega) (h.more_iff hready'), hk]

/-- What `k` completed commands change, where no more than that are left. -/
theorem execAll_moved (h : WordCommand i more body left d) {k : Nat} {s t : State} (herr : s.err = 0)
    (hready : s.stepReady) (hk : k ≤ left s) (hrun : execAll (List.replicate k i) s = .next t) :
    Moved d k s t ∧ t.stepReady ∧ left t + k = left s := by
  induction k generalizing s with
  | zero =>
    cases hrun
    exact ⟨.refl d _, hready, rfl⟩
  | succ k ih =>
    have hm : more s = true := (h.more_iff hready).2 (by omega)
    rw [List.replicate_succ, execAll, h.exec_eq herr hready hm, andThen_eq_next] at hrun
    obtain ⟨u, hu, hrun⟩ := hrun
    obtain ⟨hfirst, hready', hcount⟩ := h.moved hready hm hu
    obtain ⟨hrest, hready'', hcount'⟩ := ih (hfirst.writes.err_eq.trans herr) hready' (by omega) hrun
    exact ⟨Nat.add_comm 1 k ▸ hfirst.trans hrest, hready'', by omega⟩

/-- They complete where the message holds values. -/
theorem execAll_isNext (h : WordCommand i more body left d) {k : Nat} {s : State} (herr : s.err = 0)
    (hready : s.stepReady) (hk : k ≤ left s) (hw : s.written 0 s.messageBytes) :
    ∃ t, execAll (List.replicate k i) s = .next t := by
  induction k generalizing s with
  | zero => exact ⟨s, rfl⟩
  | succ k ih =>
    have hm : more s = true := (h.more_iff hready).2 (by omega)
    obtain ⟨u, hu⟩ := h.isNext hready hm hw
    obtain ⟨hfirst, hready', hcount⟩ := h.moved hready hm hu
    obtain ⟨t, ht⟩ := ih (hfirst.writes.err_eq.trans herr) hready' (by omega) (hfirst.messageWritten hw)
    exact ⟨t, (execAll_cons_of_next ((h.exec_eq herr hready hm).trans hu) _).trans ht⟩

end WordCommand

/-! ### The two of them -/

/-- How many word steps lead to the position from (0, 0). -/
def State.stepsDone (s : State) : Nat := s.pos.ordinal s.len

/-- How many word steps lead from the position to (3, 0). -/
def State.stepsLeft (s : State) : Nat := s.totalSteps - s.stepsDone

theorem totalSteps_eq (s : State) : s.totalSteps = 3 * s.len.toNat := rfl

theorem State.stepReady.done_add_left {s : State} (h : s.stepReady) : s.stepsDone + s.stepsLeft = s.totalSteps :=
  Nat.add_sub_of_le (Position.ordinal_le h.2)

theorem State.stepReady.pos_eq_start {s : State} (h : s.stepReady) (hdone : s.stepsDone = 0) : s.pos = ⟨0, 0⟩ :=
  Position.eq_of_ordinal_eq h.2 (Position.start_valid h.one_le_len) h.one_le_len
    (hdone.trans (Position.ordinal_start s.len).symm)

theorem State.stepReady.pos_eq_finish {s : State} (h : s.stepReady) (hleft : s.stepsLeft = 0) : s.pos = ⟨3, 0⟩ := by
  have hdone : s.stepsDone = s.totalSteps := by
    have hsum := h.done_add_left
    omega
  exact Position.eq_of_ordinal_eq h.2 (Position.finish_valid s.len) h.one_le_len hdone

theorem stepsDone_of_start {s : State} (h : s.pos = ⟨0, 0⟩) : s.stepsDone = 0 := by
  rw [State.stepsDone, h, Position.ordinal_start]

theorem stepsDone_of_finish {s : State} (h : s.pos = ⟨3, 0⟩) : s.stepsDone = s.totalSteps := by
  rw [State.stepsDone, h, Position.ordinal_finish, totalSteps_eq]

theorem started_iff_stepsDone {s : State} (h : s.stepReady) : s.started = true ↔ 0 < s.stepsDone := by
  rw [started_iff, Nat.pos_iff_ne_zero]
  exact not_congr ⟨stepsDone_of_start, h.pos_eq_start⟩

theorem unfinished_iff_stepsLeft {s : State} (h : s.stepReady) : s.unfinished = true ↔ 0 < s.stepsLeft := by
  rw [unfinished_iff, Nat.pos_iff_ne_zero]
  constructor
  · intro hpass hleft
    rw [h.pos_eq_finish hleft] at hpass
    exact absurd hpass (by decide)
  · intro hleft
    by_contra hnot
    have hvalid := Position.valid_iff.1 h.2
    have hfinish : s.pos = ⟨3, 0⟩ :=
      Position.eq_of_toNat (show s.pos.pass.toNat = 3 by omega) (show s.pos.idx.toNat = 0 by omega)
    have hdone := stepsDone_of_finish hfinish
    exact hleft (by rw [State.stepsLeft, hdone, Nat.sub_self])

/-- A word of the message holds a value where the whole message does. -/
theorem written_word {s : State} (hw : s.written 0 s.messageBytes) {k : Nat} (hk : k < s.len.toNat) :
    s.written (wordAddr k) 8 := by
  intro i hi
  rw [← Nat.zero_add (wordAddr k + i)]
  refine hw (wordAddr k + i) ?_
  rw [wordAddr, State.messageBytes]
  omega

theorem wordCommand_encw : WordCommand .encw State.unfinished encStep State.stepsLeft Config.delta where
  more_iff := unfinished_iff_stepsLeft
  exec_eq herr hready hmore := exec_eq_body rfl herr hready hmore
  moved {s t} hready hmore h := by
    obtain ⟨hpass, hidx⟩ := hready.bounds_of_unfinished hmore
    have hwrites := encStep_writes h
    obtain ⟨p, -, -, heq⟩ := encStep_eq_next.1 h
    have hpos : t.pos = s.pos.next s.len := congrArg State.pos heq
    have hready' : t.stepReady :=
      ⟨hwrites.bufOK_eq.trans hready.1, by rw [hpos, hwrites.len_eq, Position.next_valid hpass hidx]⟩
    have hdone : t.stepsDone = s.stepsDone + 1 := by
      rw [State.stepsDone, hpos, hwrites.len_eq, Position.ordinal_next hpass hidx, State.stepsDone]
    have hgamma : t.gamma = s.gamma + Config.delta := by
      rw [heq]
      rfl
    refine ⟨.one hidx hwrites hgamma (congrArg State.kw heq) (congrArg State.nw heq) (congrArg State.buf heq), hready',
      ?_⟩
    have hsum := hready.done_add_left
    have hsum' := hready'.done_add_left
    have htotal := hwrites.totalSteps_eq
    omega
  isNext {s} hready hmore hw := by
    obtain ⟨-, hidx⟩ := hready.bounds_of_unfinished hmore
    obtain ⟨_, -, h⟩ := encStep_of_written hready.1 hidx (written_word hw hidx)
    exact ⟨_, h⟩

theorem wordCommand_decw : WordCommand .decw State.started decStep State.stepsDone (-Config.delta) where
  more_iff := started_iff_stepsDone
  exec_eq herr hready hmore := exec_eq_body rfl herr hready hmore
  moved {s t} hready hmore h := by
    obtain ⟨hpass, hidx⟩ := hready.bounds_of_started hmore
    have hwrites := decStep_writes h
    obtain ⟨c, -, -, heq⟩ := decStep_eq_next.1 h
    have hpos : t.pos = s.pos.prev s.len := congrArg State.pos heq
    have hready' : t.stepReady :=
      ⟨hwrites.bufOK_eq.trans hready.1, by rw [hpos, hwrites.len_eq, Position.valid_iff]; exact .inl ⟨hpass, hidx⟩⟩
    have hdone : t.stepsDone + 1 = s.stepsDone := by
      rw [State.stepsDone, hpos, hwrites.len_eq, ← Position.ordinal_next hpass hidx,
        Position.next_prev hready.2 hready.one_le_len (started_iff.1 hmore), State.stepsDone]
    have hgamma : t.gamma = s.gamma + -Config.delta := (congrArg State.gamma heq).trans (BitVec.sub_eq_add_neg _ _)
    exact ⟨.one hidx hwrites hgamma (congrArg State.kw heq) (congrArg State.nw heq) (congrArg State.buf heq), hready',
      hdone⟩
  isNext {s} hready hmore hw := by
    obtain ⟨-, hidx⟩ := hready.bounds_of_started hmore
    obtain ⟨_, -, h⟩ := decStep_of_written hready.1 hidx (written_word hw hidx)
    exact ⟨_, h⟩

/-- R121: "The end state equals that of the same number of ENCW commands". -/
theorem exec_encloop_eq_execAll {s : State} (herr : s.err = 0) (hready : s.stepReady) :
    exec .encloop s = execAll (List.replicate s.stepsLeft .encw) s :=
  (exec_eq_body rfl herr hready rfl).trans (wordCommand_encw.loopWhile_eq herr hready (Nat.sub_le _ _))

/-- R123, in the same way. -/
theorem exec_decloop_eq_execAll {s : State} (herr : s.err = 0) (hready : s.stepReady) :
    exec .decloop s = execAll (List.replicate s.stepsDone .decw) s :=
  (exec_eq_body rfl herr hready rfl).trans
    (wordCommand_decw.loopWhile_eq herr hready (Position.ordinal_le hready.2))

end Sys2Proof.Machine
end

section
/-! PROOFS. The obligations of the main loop (`42_loop.md` R121, R123 to R125): ENCLOOP, DECLOOP, the bookkeeping after
SINIT, and the loops as inverses. -/

namespace Sys2Proof.Machine

/-- Settles O38: ENCLOOP as ENCW commands, and what they change. -/
theorem encloopRunsTheRemainingSteps : Obligations.EncloopRunsTheRemainingSteps := by
  refine ⟨decode_of_encode_eq (by decide) rfl, fun s k herr hready hk => ?_,
    fun s herr hbad => exec_onlyFaults_bounds rfl herr (hbad.imp_right .inl)⟩
  obtain rfl : s.stepsLeft = k := by
    rw [State.stepsLeft, totalSteps_eq, ← hk, State.stepsDone, Nat.add_sub_cancel_left]
  have hexec := exec_encloop_eq_execAll herr hready
  refine ⟨hexec, fun hw => ?_⟩
  obtain ⟨t, ht⟩ := wordCommand_encw.execAll_isNext herr hready (Nat.le_refl _) hw
  obtain ⟨hmoved, hready', hleft⟩ := wordCommand_encw.execAll_moved herr hready (Nat.le_refl _) ht
  have hpos : t.pos = ⟨3, 0⟩ := hready'.pos_eq_finish (by omega)
  exact ⟨t, hexec.trans ht, hmoved.outside, hmoved.eq_of_pos hpos⟩

/-- After as many steps back as OPREP counted, GAMMA is 0. -/
theorem delta_mul_add_mul_neg (x : Word) : Config.delta * x + x * -Config.delta = 0 := by
  rw [BitVec.mul_neg, BitVec.mul_comm, ← BitVec.sub_eq_add_neg, BitVec.sub_self]
  rfl

/-- OPREP sets the pairs as `totalSteps` exchanges do, and as many again restore them (R124). -/
theorem decloop_of_oprep {s t : State} (herr : s.err = 0) (hbuf : s.bufOK = true)
    (h : execAll [.oprep, .decloop] s = .next t) :
    t.gamma = 0 ∧ t.kw = s.k ∧ t.nw = s.n ∧ t.pos = ⟨0, 0⟩ := by
  have hready : (oprepBody s).stepReady := ⟨hbuf, Position.finish_valid s.len⟩
  have hdone : (oprepBody s).stepsDone = s.totalSteps := stepsDone_of_finish rfl
  have heven : (s.totalSteps + s.totalSteps) % 2 = 0 := by omega
  rw [execAll_cons_of_next (exec_of_err_zero .oprep herr), execAll,
    exec_decloop_eq_execAll (s := oprepBody s) herr hready, hdone, andThen_eq_next] at h
  obtain ⟨u, hu, h⟩ := h
  cases h
  obtain ⟨hmoved, hready', hcount⟩ := wordCommand_decw.execAll_moved (s := oprepBody s) herr hready hdone.ge hu
  refine ⟨hmoved.gamma.trans (delta_mul_add_mul_neg _), hmoved.kw.trans ?_, hmoved.nw.trans ?_,
    hready'.pos_eq_start (by omega)⟩
  · exact (Pair.exchanged_add s.k _ _).trans (Pair.exchanged_of_even _ heven)
  · exact (Pair.exchanged_add s.n _ _).trans (Pair.exchanged_of_even _ heven)

/-- Settles O39: DECLOOP as DECW commands, what they change, and OPREP's values run back. -/
theorem decloopRunsBackToTheStart : Obligations.DecloopRunsBackToTheStart := by
  refine ⟨decode_of_encode_eq (by decide) rfl, ?_, fun s t => decloop_of_oprep,
    fun s herr hbad => exec_onlyFaults_bounds rfl herr (hbad.imp_right .inl)⟩
  rintro s _ herr hready rfl
  have hexec := exec_decloop_eq_execAll herr hready
  refine ⟨hexec, fun hw => ?_⟩
  obtain ⟨t, ht⟩ := wordCommand_decw.execAll_isNext herr hready (Nat.le_refl _) hw
  obtain ⟨hmoved, hready', hdone⟩ := wordCommand_decw.execAll_moved herr hready (Nat.le_refl _) ht
  have hpos : t.pos = ⟨0, 0⟩ := hready'.pos_eq_start (by omega)
  have heq := hmoved.eq_of_pos hpos
  rw [BitVec.mul_neg, ← BitVec.sub_eq_add_neg] at heq
  exact ⟨t, hexec.trans ht, hmoved.outside, heq⟩

/-- Settles O41: SINIT leaves the values of no step, and each ENCW moves them by one. -/
theorem wordStepBookkeeping : Obligations.WordStepBookkeeping := by
  intro s j herr hbuf hw hj
  have hlen : 1 ≤ s.len.toNat := (bufOK_iff.1 hbuf).1
  have hready : (sinitBody s).stepReady := ⟨hbuf, Position.start_valid hlen⟩
  have hleft : (sinitBody s).stepsLeft = 3 * s.len.toNat := by
    rw [State.stepsLeft, stepsDone_of_start rfl, Nat.sub_zero, totalSteps_eq, sinitBody_len]
  have hj' : j ≤ (sinitBody s).stepsLeft := hj.trans hleft.ge
  obtain ⟨t, ht⟩ := wordCommand_encw.execAll_isNext (s := sinitBody s) herr hready hj' hw
  obtain ⟨hmoved, hready', hcount⟩ := wordCommand_encw.execAll_moved (s := sinitBody s) herr hready hj' ht
  have hlen' : t.len = s.len := hmoved.writes.len_eq
  have hdone : t.pos.ordinal s.len = j := by
    have hsum := hready'.done_add_left
    rw [totalSteps_eq, State.stepsDone, hlen'] at hsum
    omega
  obtain ⟨hpass, hidx⟩ := Position.eq_divMod (hlen' ▸ hready'.2) hlen
  rw [hdone] at hpass hidx
  refine ⟨t, (execAll_cons_of_next (exec_sinit herr) _).trans ht, ?_, hpass, hidx, fun heven => ?_, fun hodd => ?_⟩
  · rw [hmoved.gamma, sinitBody_gamma, BitVec.mul_comm]
    exact BitVec.zero_add _
  · exact ⟨hmoved.kw.trans (Pair.exchanged_of_even _ heven), hmoved.nw.trans (Pair.exchanged_of_even _ heven)⟩
  · exact ⟨hmoved.kw.trans (Pair.exchanged_of_odd _ hodd), hmoved.nw.trans (Pair.exchanged_of_odd _ hodd)⟩

/-! ### The loops as inverses -/

theorem execAll_append (l l' : List Instr) (s : State) : execAll (l ++ l') s = andThen (execAll l s) (execAll l') := by
  induction l generalizing s with
  | nil => rfl
  | cons i l ih =>
    rw [List.cons_append, execAll, execAll, andThen_assoc]
    exact congrArg (andThen (exec i s)) (funext ih)

/-- A command's writes keep the buffer canonical. -/
theorem exec_wf {i : Instr} {s t : State} (hwf : s.buf.wf) (h : exec i s = .next t) : t.buf.wf := by
  obtain ⟨_, -, n, -, hcourse⟩ := (exec_sameEnd_self i s).exists_of_next h
  exact hcourse.writes.wf hwf

/-- A recorded fault would stay, so a run without CLR that ends without one met none on its way. -/
theorem err_zero_of_execAll {l : List Instr} (hl : .clr ∉ l) {s t : State} (h : execAll l s = .next t)
    (ht : t.err = 0) : s.err = 0 := by
  by_contra herr
  rw [execAll_of_faulted hl herr] at h
  cases h
  exact herr ht

/-- Where `j` undoes `i`, repeating `j` undoes repeating `i`: the last step first. -/
theorem execAll_replicate_undo {i j : Instr} (hi : i ≠ .clr)
    (hundo : ∀ {s t : State}, s.buf.wf → t.err = 0 → exec i s = .next t → exec j t = .next s) {k : Nat} {s t : State}
    (hwf : s.buf.wf) (ht : t.err = 0) (h : execAll (List.replicate k i) s = .next t) :
    execAll (List.replicate k j) t = .next s := by
  induction k generalizing s with
  | zero =>
    cases h
    rfl
  | succ k ih =>
    rw [List.replicate_succ, execAll, andThen_eq_next] at h
    obtain ⟨u, hu, h⟩ := h
    have hclr : .clr ∉ List.replicate k i := fun hmem => hi (List.eq_of_mem_replicate hmem).symm
    have hback : exec j u = .next s := hundo hwf (err_zero_of_execAll hclr h ht) hu
    rw [List.replicate_succ', execAll_append, ih (exec_wf hwf hu) h, andThen_next, execAll_cons_of_next hback, execAll]

/-- Two loops, the second of the steps that undo those of the first, from a position where the first has a whole loop
ahead of it. -/
theorem loops_cancel {I J i j : Instr} {more : State → Bool} {body : State → Result State} {left right : State → Nat}
    {d : Word} (hword : WordCommand i more body left d) (hi : i ≠ .clr)
    (hI : ∀ {s : State}, s.err = 0 → s.stepReady → exec I s = execAll (List.replicate (left s) i) s)
    (hJ : ∀ {s : State}, s.err = 0 → s.stepReady → exec J s = execAll (List.replicate (right s) j) s)
    (hundo : ∀ {s t : State}, s.buf.wf → t.err = 0 → exec i s = .next t → exec j t = .next s)
    (hsum : ∀ {s : State}, s.stepReady → left s + right s = s.totalSteps) {s : State} (herr : s.err = 0)
    (hwf : s.buf.wf) (hready : s.stepReady) (hw : s.written 0 s.messageBytes) (hstart : left s = s.totalSteps) :
    execAll [I, J] s = .next s := by
  obtain ⟨t, ht⟩ := hword.execAll_isNext herr hready (Nat.le_refl _) hw
  obtain ⟨hmoved, hready', hleft⟩ := hword.execAll_moved herr hready (Nat.le_refl _) ht
  have herr' : t.err = 0 := hmoved.writes.err_eq.trans herr
  have hright : right t = left s := by
    have htotal := hmoved.writes.totalSteps_eq
    have hsum' := hsum hready'
    omega
  have hback : exec J t = .next s := by
    rw [hJ herr' hready', hright]
    exact execAll_replicate_undo hi hundo hwf herr' ht
  rw [execAll_cons_of_next ((hI herr hready).trans ht), execAll_cons_of_next hback, execAll]

/-- Settles O40: each loop is a run of word steps, and the other loop runs back over them. -/
theorem loopsAreInverse : Obligations.LoopsAreInverse := by
  intro s herr hwf hbuf hw
  have hlen : 1 ≤ s.len.toNat := (bufOK_iff.1 hbuf).1
  refine ⟨fun hpos => ?_, fun hpos => ?_⟩
  · have hready : s.stepReady := ⟨hbuf, hpos ▸ Position.start_valid hlen⟩
    have hstart : s.stepsLeft = s.totalSteps := by rw [State.stepsLeft, stepsDone_of_start hpos, Nat.sub_zero]
    exact loops_cancel wordCommand_encw (by decide) exec_encloop_eq_execAll exec_decloop_eq_execAll exec_decw_of_encw
      (fun h => (Nat.add_comm _ _).trans h.done_add_left) herr hwf hready hw hstart
  · have hready : s.stepReady := ⟨hbuf, hpos ▸ Position.finish_valid s.len⟩
    exact loops_cancel wordCommand_decw (by decide) exec_decloop_eq_execAll exec_encloop_eq_execAll exec_encw_of_decw
      (fun h => h.done_add_left) herr hwf hready hw (stepsDone_of_finish hpos)

end Sys2Proof.Machine
end

section
/-! PROOFS. Finalisation and its inverses on the registers (`43_finalize.md` R130, R133 to R136): what FIN, UNFIN,
UNINIT and OPREP write, and the sequences of commands that cancel there. -/

namespace Sys2Proof.Machine

/-! ### The commands -/

theorem exec_fin {s : State} (h : s.err = 0) : exec .fin s = .next (finBody s) := exec_of_err_zero .fin h

theorem exec_unfin {s : State} (h : s.err = 0) : exec .unfin s = .next (unfinBody s) := exec_of_err_zero .unfin h

theorem exec_uninit {s : State} (h : s.err = 0) : exec .uninit s = .next (uninitBody s) := exec_of_err_zero .uninit h

theorem exec_oprep {s : State} (h : s.err = 0) : exec .oprep s = .next (oprepBody s) := exec_of_err_zero .oprep h

/-- "`T` is odd exactly when LEN is odd (3 is odd)" (R133). -/
theorem totalSteps_odd_iff (s : State) : s.totalSteps % 2 = 1 ↔ s.len.toNat % 2 = 1 := by
  rw [totalSteps_eq]
  omega

/-- Settles O42: the body of FIN with the sponge after its rounds named. -/
theorem finMakesTheTag : Obligations.FinMakesTheTag := by
  refine ⟨decode_of_encode_eq (by decide) rfl, ?_⟩
  rintro s _ h rfl
  exact exec_fin h

/-- Settles O43: the body of UNFIN with the sponge after its rounds named. -/
theorem unfinUndoesTheTag : Obligations.UnfinUndoesTheTag := by
  refine ⟨decode_of_encode_eq (by decide) rfl, ?_⟩
  rintro s _ h rfl
  exact exec_unfin h

/-- Settles O44: the body of UNINIT with the sponge after each of its rounds named. -/
theorem uninitUndoesInitialisation : Obligations.UninitUndoesInitialisation := by
  refine ⟨decode_of_encode_eq (by decide) rfl, ?_⟩
  rintro s _ _ h rfl rfl
  exact exec_uninit h

/-- Settles O45: the body of OPREP, its test on `3 * LEN` put as a test on LEN. -/
theorem oprepSetsEndOfLoopValues : Obligations.OprepSetsEndOfLoopValues := by
  refine ⟨decode_of_encode_eq (by decide) rfl, fun s h => ?_⟩
  rw [exec_oprep h]
  simp only [← totalSteps_odd_iff]
  rfl

/-! ### The bodies as inverses -/

theorem preFinal_preFinal (kw nw : Pair) (gamma : Word) :
    Function.LeftInverse (preFinal kw nw gamma) (preFinal kw nw gamma) := fun v => by
  simp only [preFinal, xor_xor_self]

theorem whiten_whiten (kw nw : Pair) : Function.LeftInverse (whiten kw nw) (whiten kw nw) := fun v => by
  simp only [whiten, xor_xor_self]

/-- "the same values in and out around rounds that cancel" (R136). -/
theorem unfinBody_finBody : Function.LeftInverse unfinBody finBody := fun s => by
  simp only [unfinBody, finBody, rounds_eq_iterate, whiten_whiten s.kw s.nw _, permL_permR.iterate Config.finRounds _,
    preFinal_preFinal s.kw s.nw s.gamma _]

theorem finBody_unfinBody : Function.LeftInverse finBody unfinBody := fun s => by
  simp only [unfinBody, finBody, rounds_eq_iterate, whiten_whiten s.kw s.nw _, permR_permL.iterate Config.finRounds _,
    preFinal_preFinal s.kw s.nw s.gamma _]

/-- The two lines of UNINIT that take the nonce out again, NW2 first (R135). -/
def releaseNonce (nw : Pair) (v : Sponge) : Sponge :=
  let v := permL v
  let v := permL { v with v3 := v.v3 ^^^ nw.w2 }
  { v with v3 := v.v3 ^^^ nw.w1 }

theorem uninitBody_eq (s : State) : uninitBody s = { s with v := releaseNonce s.nw (separate s.v) } := rfl

theorem releaseNonce_absorbNonce (nw : Pair) : Function.LeftInverse (releaseNonce nw) (absorbNonce nw) := fun v => by
  simp only [releaseNonce, absorbNonce, permL_permR _, xor_xor_self]

theorem absorbNonce_releaseNonce (nw : Pair) : Function.LeftInverse (absorbNonce nw) (releaseNonce nw) := fun v => by
  simp only [releaseNonce, absorbNonce, permR_permL _, xor_xor_self]

theorem uninitBody_dsepBody_nabsBody : Function.LeftInverse uninitBody (dsepBody ∘ nabsBody) := fun s => by
  simp only [Function.comp_apply, uninitBody_eq, dsepBody, nabsBody, separate_separate _,
    releaseNonce_absorbNonce s.nw _]

theorem dsepBody_nabsBody_uninitBody : Function.LeftInverse (dsepBody ∘ nabsBody) uninitBody := fun s => by
  simp only [Function.comp_apply, uninitBody_eq, dsepBody, nabsBody, absorbNonce_releaseNonce s.nw _,
    separate_separate _]

/-! ### Sequences of commands that have one body -/

/-- Where no fault is recorded the sequence `l` completes as `f`, and records none. -/
def RunsAs (l : List Instr) (f : State → State) : Prop :=
  ∀ s : State, s.err = 0 → execAll l s = .next (f s) ∧ (f s).err = 0

section
variable {l l' : List Instr} {f g : State → State}

theorem runsAs_single {i : Instr} (hexec : ∀ s : State, s.err = 0 → exec i s = .next (f s))
    (herr : ∀ s : State, (f s).err = s.err) : RunsAs [i] f := fun s h =>
  ⟨execAll_cons_of_next (hexec s h) [], (herr s).trans h⟩

theorem RunsAs.append (hf : RunsAs l f) (hg : RunsAs l' g) : RunsAs (l ++ l') (g ∘ f) := fun s h => by
  obtain ⟨hrun, herr⟩ := hf s h
  rw [execAll_append, hrun, andThen_next]
  exact hg (f s) herr

/-- A sequence followed by one whose body undoes its body changes nothing. -/
theorem RunsAs.cancel (hf : RunsAs l f) (hg : RunsAs l' g) (hgf : Function.LeftInverse g f) {s : State}
    (h : s.err = 0) : execAll (l ++ l') s = .next s := by
  rw [((hf.append hg) s h).1, Function.comp_apply, hgf s]

end

theorem runsAs_fin : RunsAs [.fin] finBody := runsAs_single (fun _ => exec_fin) finBody_err

theorem runsAs_unfin : RunsAs [.unfin] unfinBody := runsAs_single (fun _ => exec_unfin) unfinBody_err

theorem runsAs_uninit : RunsAs [.uninit] uninitBody := runsAs_single (fun _ => exec_uninit) uninitBody_err

theorem runsAs_nabs_dsep : RunsAs [.nabs, .dsep] (dsepBody ∘ nabsBody) :=
  (runsAs_single (fun _ => exec_nabs) nabsBody_err).append (runsAs_single (fun _ => exec_dsep) dsepBody_err)

end Sys2Proof.Machine
end

section
/-! PROOFS. The tag in the buffer (`43_finalize.md` R131, R132, R136): what STTAG and LDTAG do behind their check, and
how each leaves what the other wrote. -/

namespace Sys2Proof.Machine

/-! ### The check on the buffer -/

section
variable {i : Instr} {s : State} {f : State → Result State}

/-- Where BufOK holds, a command behind that check is its body. -/
theorem exec_eq_body_of_bufOK (hop : operation i s = requireBuf i s f) (herr : s.err = 0) (hbuf : s.bufOK = true) :
    exec i s = f s := by
  rw [exec_of_err_zero i herr, hop]
  exact requireBuf_eq.2 (.inl ⟨hbuf, rfl⟩)

/-- Where BufOK fails, it raises BOUNDS and changes nothing else. -/
theorem exec_onlyFaults_of_not_bufOK (hop : operation i s = requireBuf i s f) (herr : s.err = 0)
    (hbuf : s.bufOK = false) : onlyFaults 5 (encode i) s (exec i s) := by
  have hraise : exec i s = raise .bounds i s := by
    rw [exec_of_err_zero i herr, hop]
    exact requireBuf_eq.2 (.inr ⟨hbuf, rfl⟩)
  exact hraise

end

/-! ### The tag words of a buffer -/

/-- Words LEN to LEN + 3 of the buffer are the words of `v` (R131). -/
def Memory.HoldsTag (m : Memory) (len : Nat) (v : Sponge) : Prop :=
  m.readLE 8 (8 * (len + 0)) = some v.v0 ∧ m.readLE 8 (8 * (len + 1)) = some v.v1 ∧
    m.readLE 8 (8 * (len + 2)) = some v.v2 ∧ m.readLE 8 (8 * (len + 3)) = some v.v3

theorem Memory.holdsTag_writeTag (m : Memory) (len : Nat) (v : Sponge) : (m.writeTag len v).HoldsTag len v :=
  Memory.readLE_writeTag m len v

/-- A buffer that reads like `m` still does after a word of `m` is written where `m` holds it. -/
theorem Memory.read_writeLE_of_readLE {m m' : Memory} {a : Nat} {w : Word} (hsame : ∀ b, m'.read b = m.read b)
    (hw : m.readLE 8 a = some w) (b : Nat) : (m'.writeLE 8 a w).read b = m.read b := by
  have hw' : m'.readLE 8 a = some w := (Memory.readLE_congr fun _ _ => hsame _).trans hw
  exact (Memory.read_writeLE_back hw' b).trans (hsame b)

/-- Writing the tag a buffer holds changes no byte: each word goes where it was read. -/
theorem Memory.HoldsTag.read_writeTag {m : Memory} {len : Nat} {v : Sponge} (h : m.HoldsTag len v) (a : Nat) :
    (m.writeTag len v).read a = m.read a := by
  obtain ⟨h0, h1, h2, h3⟩ := h
  unfold Memory.writeTag
  exact Memory.read_writeLE_of_readLE (Memory.read_writeLE_of_readLE (Memory.read_writeLE_of_readLE
    (Memory.read_writeLE_back h0) h1) h2) h3 a

theorem State.written.exists_holdsTag {s : State} (h : s.written (8 * s.len.toNat) 32) :
    ∃ v, s.buf.HoldsTag s.len.toNat v := by
  have hword : ∀ j < 4, ∃ w, s.buf.readLE 8 (8 * (s.len.toNat + j)) = some w := fun j hj =>
    State.written.exists_readLE fun k hk => by
      rw [Nat.mul_add, Nat.add_assoc]
      exact h (8 * j + k) (by omega)
  obtain ⟨v0, h0⟩ := hword 0 (by decide)
  obtain ⟨v1, h1⟩ := hword 1 (by decide)
  obtain ⟨v2, h2⟩ := hword 2 (by decide)
  obtain ⟨v3, h3⟩ := hword 3 (by decide)
  exact ⟨⟨v0, v1, v2, v3⟩, h0, h1, h2, h3⟩

/-! ### The commands -/

theorem exec_sttag {s : State} (herr : s.err = 0) (hbuf : s.bufOK = true) :
    exec .sttag s = .next { s with buf := s.buf.writeTag s.len.toNat s.v } := by
  obtain ⟨-, hfits⟩ := bufOK_iff.1 hbuf
  exact (exec_eq_body_of_bufOK rfl herr hbuf).trans (storeTag_of_fits hfits)

theorem exec_ldtag {s : State} {v : Sponge} (herr : s.err = 0) (hbuf : s.bufOK = true)
    (hv : s.buf.HoldsTag s.len.toNat v) : exec .ldtag s = .next { s with v := v } := by
  obtain ⟨-, hfits⟩ := bufOK_iff.1 hbuf
  exact (exec_eq_body_of_bufOK rfl herr hbuf).trans (loadTag_eq_next.2 ⟨hfits, v, rfl, hv⟩)

/-- Settles O46: the check passes and the tag words are written, or it fails. -/
theorem sttagStoresTheTag : Obligations.SttagStoresTheTag := by
  refine ⟨decode_of_encode_eq (by decide) rfl, fun s herr hbuf => ?_, fun _ => exec_onlyFaults_of_not_bufOK rfl⟩
  obtain ⟨h0, h1, h2, h3⟩ := Memory.holdsTag_writeTag s.buf s.len.toNat s.v
  exact ⟨_, exec_sttag herr hbuf, h0, h1, h2, h3, fun _ => Memory.read_writeTag_other _ _ _, rfl⟩

/-- Settles O47: the check passes and the tag words are read, or it fails. -/
theorem ldtagLoadsTheTag : Obligations.LdtagLoadsTheTag := by
  refine ⟨decode_of_encode_eq (by decide) rfl, fun s herr hbuf hw => ?_, fun _ => exec_onlyFaults_of_not_bufOK rfl⟩
  obtain ⟨v, hv⟩ := hw.exists_holdsTag
  exact ⟨v, exec_ldtag herr hbuf hv, hv⟩

/-! ### Each undoes the other -/

/-- The tag STTAG wrote is the one LDTAG reads. -/
theorem execAll_sttag_ldtag {s : State} (herr : s.err = 0) (hbuf : s.bufOK = true) :
    ∃ t, execAll [.sttag, .ldtag] s = .next t ∧ t.v = s.v := by
  have hload : exec .ldtag { s with buf := s.buf.writeTag s.len.toNat s.v } =
      .next { s with buf := s.buf.writeTag s.len.toNat s.v } :=
    exec_ldtag herr hbuf (Memory.holdsTag_writeTag s.buf s.len.toNat s.v)
  rw [execAll_cons_of_next (exec_sttag herr hbuf), execAll_cons_of_next hload]
  exact ⟨_, rfl, rfl⟩

/-- The tag LDTAG read is the one STTAG puts back. -/
theorem execAll_ldtag_sttag {s : State} (herr : s.err = 0) (hbuf : s.bufOK = true)
    (hw : s.written (8 * s.len.toNat) 32) : ∃ t, execAll [.ldtag, .sttag] s = .next t ∧ sameBuf s t := by
  obtain ⟨v, hv⟩ := hw.exists_holdsTag
  have hstore : exec .sttag { s with v := v } = .next { s with v := v, buf := s.buf.writeTag s.len.toNat v } :=
    exec_sttag herr hbuf
  rw [execAll_cons_of_next (exec_ldtag herr hbuf hv), execAll_cons_of_next hstore]
  exact ⟨_, rfl, hv.read_writeTag⟩

/-- Settles O48: bodies that undo each other on the registers, and a tag read where it was written. -/
theorem finalisationIsInvertible : Obligations.FinalisationIsInvertible := fun _ herr =>
  ⟨runsAs_fin.cancel runsAs_unfin unfinBody_finBody herr, runsAs_unfin.cancel runsAs_fin finBody_unfinBody herr,
    runsAs_nabs_dsep.cancel runsAs_uninit uninitBody_dsepBody_nabsBody herr,
    runsAs_uninit.cancel runsAs_nabs_dsep dsepBody_nabsBody_uninitBody herr,
    execAll_sttag_ldtag herr, execAll_ldtag_sttag herr⟩

end Sys2Proof.Machine
end

section
/-! PROOFS. The two checks (`44_checks.md` R140 to R142): when AUTHCHK passes, why testing the recovered state is
testing the state before it was recovered, and how the padding test ends. -/

namespace Sys2Proof.Machine

/-! ### The authentication check -/

/-- The four words of R140, each against its constant and key word. -/
theorem eq_keyedSponge_iff {s : State} :
    s.v = s.keyedSponge ↔
      s.v.v0 = s.config.initConst.c0 ^^^ s.k.w1 ∧ s.v.v1 = s.config.initConst.c1 ^^^ s.k.w2 ∧
        s.v.v2 = s.config.initConst.c2 ^^^ s.k.w1 ∧ s.v.v3 = s.config.initConst.c3 ^^^ s.k.w2 := by
  cases hv : s.v
  rw [State.keyedSponge, Sponge.mk.injEq]

theorem exec_authchk_of_keyed {s : State} (herr : s.err = 0) (hv : s.v = s.keyedSponge) :
    exec .authchk s = .next s :=
  (exec_of_err_zero .authchk herr).trans (if_pos (beq_iff_eq.2 hv))

theorem exec_authchk_of_not_keyed {s : State} (herr : s.err = 0) (hv : s.v ≠ s.keyedSponge) :
    exec .authchk s = raise .auth .authchk s :=
  (exec_of_err_zero .authchk herr).trans (if_neg (beq_iff_eq.not.2 hv))

/-- The state AUTHCHK leaves tells how the test ended: a failed one records a fault. -/
theorem exec_authchk_eq_self_iff {s : State} (herr : s.err = 0) :
    exec .authchk s = .next s ↔ s.v = s.keyedSponge := by
  refine ⟨fun h => by_contra fun hv => ?_, exec_authchk_of_keyed herr⟩
  rw [exec_authchk_of_not_keyed herr hv] at h
  obtain ⟨w, ht⟩ := takeFault_of_raise h
  have hauth : s.err = ErrCode.auth.code := congrArg State.err ht
  exact absurd (herr.symm.trans hauth) (by decide)

/-- Settles O49: equality of the sponges is equality of their four words. -/
theorem authchkComparesAllFourWords : Obligations.AuthchkComparesAllFourWords := by
  refine ⟨decode_of_encode_eq (by decide) rfl, fun s herr => ?_⟩
  rw [← eq_keyedSponge_iff]
  exact ⟨exec_authchk_of_keyed herr, exec_authchk_of_not_keyed herr⟩

/-! ### Its two wordings -/

/-- What UNINIT does to the sponge maps `v` to `w` exactly where what INIT does after SINIT maps `w` to `v`. -/
theorem releaseNonce_separate_eq_iff {nw : Pair} {v w : Sponge} :
    releaseNonce nw (separate v) = w ↔ v = separate (absorbNonce nw w) := by
  constructor
  · rintro rfl
    rw [absorbNonce_releaseNonce nw _, separate_separate _]
  · rintro rfl
    rw [separate_separate _, releaseNonce_absorbNonce nw _]

/-- Settles O50: UNINIT and the steps of INIT after SINIT are inverse on the sponge, and UNINIT keeps K. -/
theorem bothAuthenticationChecksAgree : Obligations.BothAuthenticationChecksAgree := by
  intro s t u herr hnw ht hu
  cases (exec_uninit herr).symm.trans ht
  have hkeyed : (uninitBody s).keyedSponge = s.keyedSponge := keyedSponge_congr (uninitBody_k s) (uninitBody_config s)
  calc exec .authchk (uninitBody s) = .next (uninitBody s)
    _ ↔ (uninitBody s).v = (uninitBody s).keyedSponge := exec_authchk_eq_self_iff ((uninitBody_err s).trans herr)
    _ ↔ releaseNonce s.n (separate s.v) = s.keyedSponge := by rw [hkeyed, uninitBody_eq, hnw]
    _ ↔ s.v = separate (absorbNonce s.n s.keyedSponge) := releaseNonce_separate_eq_iff
    _ ↔ s.v = u.v := by rw [init_v_of_next herr hu]

/-! ### The padding check -/

/-- R64: BufOK leaves the message at least one word, and puts it inside the buffer. -/
theorem messageBytes_of_bufOK {s : State} (h : s.bufOK = true) :
    1 ≤ s.messageBytes ∧ s.messageBytes ≤ s.bufBytes := by
  obtain ⟨hlen, hfits⟩ := bufOK_iff.1 h
  rw [State.sealedBytes] at hfits
  rw [State.messageBytes]
  omega

/-- The test reads the count, and where the count is in range the bytes before it: it completes where these hold
values. -/
theorem padTest_isNext_of_count {s : State} {b : Byte} (h1 : 1 ≤ s.messageBytes) (hin : s.messageBytes ≤ s.bufBytes)
    (hb : s.buf.read (s.messageBytes - 1) = some b)
    (hw : b = 0 ∨ s.messageBytes < b.toNat ∨ s.written (s.messageBytes - b.toNat) b.toNat) :
    ∃ r, padTest s = .next r := by
  have hread : readByte s (s.messageBytes - 1) = .next b := readByte_eq_next.2 ⟨inBuffer_iff.2 (by omega), hb⟩
  by_cases hor : b = 0 ∨ s.messageBytes < b.toNat
  · exact ⟨none, by rw [padTest, hread, andThen_next, if_pos hor]⟩
  · have hbytes : s.written (s.messageBytes - b.toNat) b.toNat := (or_assoc.2 hw).resolve_left hor
    obtain ⟨acc, hacc⟩ := orBytes_isNext (s := s) (n := b.toNat - 1) (a := s.messageBytes - b.toNat) fun i hi =>
      ⟨inBuffer_iff.2 (by omega), hbytes i (by omega)⟩
    exact ⟨_, by rw [padTest, hread, andThen_next, if_neg hor, hacc, andThen_next]⟩

/-- The last byte of the message is the only count its padding can have. -/
theorem State.paddedBy.eq_of_read {s : State} {b c : Byte} (h : s.paddedBy c)
    (hb : s.buf.read (s.messageBytes - 1) = some b) : c = b := by
  obtain ⟨hc, -⟩ := h
  exact Option.some.inj (hc.symm.trans hb)

/-- A test that completes on a message without good padding finds it bad. -/
theorem padTest_of_not_padded {s : State} {b : Byte} {r : Option Byte} (hr : padTest s = .next r)
    (hb : s.buf.read (s.messageBytes - 1) = some b) (hbad : ¬ s.paddedBy b) : padTest s = .next none := by
  cases r with
  | none => exact hr
  | some c =>
    have hc : s.paddedBy c := padTest_some hr
    exact absurd (hc.eq_of_read hb ▸ hc) hbad

/-- What PADCHK does behind its check on the buffer (R141). -/
def padchkBody (s : State) : Result State :=
  andThen (padTest s) fun
    | some padlen => .next { s with padlen := padlen }
    | none => raise .pad .padchk { s with padlen := 0 }

theorem operation_padchk (s : State) : operation .padchk s = requireBuf .padchk s padchkBody := rfl

/-- Good padding sets PADLEN to its count. -/
theorem exec_padchk_of_padded {s : State} {b : Byte} (herr : s.err = 0) (hbuf : s.bufOK = true) (h : s.paddedBy b) :
    exec .padchk s = .next { s with padlen := b } := by
  obtain ⟨-, hin⟩ := messageBytes_of_bufOK hbuf
  rw [exec_eq_body_of_bufOK (operation_padchk s) herr hbuf, padchkBody, padTest_of_padded hin h, andThen_next]

/-- Bad padding, where the bytes the test reads hold values, sets PADLEN to 0 and raises PAD. -/
theorem exec_padchk_of_not_padded {s : State} {b : Byte} (herr : s.err = 0) (hbuf : s.bufOK = true)
    (hb : s.buf.read (s.messageBytes - 1) = some b)
    (hw : b = 0 ∨ s.messageBytes < b.toNat ∨ s.written (s.messageBytes - b.toNat) b.toNat) (hbad : ¬ s.paddedBy b) :
    exec .padchk s = raise .pad .padchk { s with padlen := 0 } := by
  obtain ⟨h1, hin⟩ := messageBytes_of_bufOK hbuf
  obtain ⟨r, hr⟩ := padTest_isNext_of_count h1 hin hb hw
  rw [exec_eq_body_of_bufOK (operation_padchk s) herr hbuf, padchkBody, padTest_of_not_padded hr hb hbad, andThen_next]

/-- Settles O51: good padding is `State.paddedBy`; a count out of range and a byte that is not 0 are the two ways it
fails. -/
theorem padchkChecksThePadding : Obligations.PadchkChecksThePadding := by
  refine ⟨decode_of_encode_eq (by decide) rfl, fun s b herr hbuf hb => ⟨?good, ?badCount, ?badByte⟩,
    fun s => exec_onlyFaults_of_not_bufOK (operation_padchk s)⟩
  case good => exact fun h1 hle hz => exec_padchk_of_padded herr hbuf ⟨hb, h1, hle, hz⟩
  case badCount =>
    intro hcount
    have hbad : ¬ s.paddedBy b := by
      rintro ⟨-, h1, hle, -⟩
      obtain rfl | hgt := hcount
      · exact absurd h1 (by decide)
      · exact absurd hgt hle.not_gt
    exact exec_padchk_of_not_padded herr hbuf hb (hcount.imp_right .inl) hbad
  case badByte =>
    rintro - - hw ⟨a, hlo, hhi, ha⟩
    have hbad : ¬ s.paddedBy b := fun ⟨_, _, _, hz⟩ => ha (hz a hlo hhi)
    exact exec_padchk_of_not_padded herr hbuf hb (.inr (.inr hw)) hbad

end Sys2Proof.Machine
end

section
/-! PROOFS. SEAL (`45_duplex.md` R150), and the checks on LEN it shares with OPEN (R151): the faults, the pipeline as a
sequence of commands, and where it completes. -/

namespace Sys2Proof.Machine

/-! ### The checks on LEN -/

section
variable {i : Instr} {s : State} {f : State → Result State}

theorem fits_iff : s.fits = true ↔ s.len.toNat + 4 ≤ s.config.memWords.toNat := decide_eq_true_iff

theorem State.messageFits.bufOK (h : s.messageFits) : s.bufOK = true := by
  obtain ⟨hlen, hfits⟩ := h
  rw [State.bufOK, Bool.and_eq_true, decide_eq_true_iff]
  exact ⟨by omega, fits_iff.2 hfits⟩

/-- Where LEN is at least 3 and the message and its tag fit, SEAL and OPEN are their pipelines. -/
theorem exec_eq_body_of_messageFits (hop : operation i s = requireMessage i s f) (herr : s.err = 0)
    (hfits : s.messageFits) : exec i s = f s := by
  rw [exec_of_err_zero i herr, hop]
  exact requireMessage_eq.2 (.inr (.inl ⟨hfits.1.not_gt, fits_iff.2 hfits.2, rfl⟩))

/-- A message below three words is MALFORMED, and one that does not fit is out of BOUNDS. -/
theorem exec_onlyFaults_of_not_messageFits (hop : operation i s = requireMessage i s f) (herr : s.err = 0) :
    (s.len.toNat < 3 → onlyFaults 1 (encode i) s (exec i s)) ∧
      (3 ≤ s.len.toNat → s.config.memWords.toNat < s.len.toNat + 4 → onlyFaults 5 (encode i) s (exec i s)) := by
  rw [exec_of_err_zero i herr, hop]
  refine ⟨fun hshort => ?_, fun hlen hlong => ?_⟩
  · exact requireMessage_eq.2 (.inl ⟨hshort, rfl⟩)
  · have hnot : s.fits = false := Bool.eq_false_iff.2 (mt fits_iff.1 hlong.not_ge)
    exact requireMessage_eq.2 (.inr (.inr ⟨hlen.not_gt, hnot, rfl⟩))

end

/-- What SEAL does behind its checks (R150). -/
def sealBody (s : State) : Result State :=
  andThen (encLoop (initBody s)) fun u => andThen (storeTag (finBody u)) fun t => .next t.scrubbed

/-- What OPEN does behind its checks (R151). -/
def openBody (s : State) : Result State := andThen (openRecover s) openVerify

theorem operation_sealBuf (s : State) : operation .sealBuf s = requireMessage .sealBuf s sealBody := rfl

theorem operation_openBuf (s : State) : operation .openBuf s = requireMessage .openBuf s openBody := rfl

theorem exec_sealBuf {s : State} (herr : s.err = 0) (hfits : s.messageFits) : exec .sealBuf s = sealBody s :=
  exec_eq_body_of_messageFits (operation_sealBuf s) herr hfits

theorem exec_openBuf {s : State} (herr : s.err = 0) (hfits : s.messageFits) : exec .openBuf s = openBody s :=
  exec_eq_body_of_messageFits (operation_openBuf s) herr hfits

/-! ### The loops inside the pipelines -/

section
variable {s t : State}

theorem encLoop_eq_execAll (herr : s.err = 0) (hready : s.stepReady) :
    encLoop s = execAll (List.replicate s.stepsLeft .encw) s :=
  wordCommand_encw.loopWhile_eq herr hready (Nat.sub_le _ _)

theorem decLoop_eq_execAll (herr : s.err = 0) (hready : s.stepReady) :
    decLoop s = execAll (List.replicate s.stepsDone .decw) s :=
  wordCommand_decw.loopWhile_eq herr hready (Position.ordinal_le hready.2)

theorem encLoop_moved (herr : s.err = 0) (hready : s.stepReady) (h : encLoop s = .next t) :
    Moved Config.delta s.stepsLeft s t ∧ t.pos = ⟨3, 0⟩ := by
  rw [encLoop_eq_execAll herr hready] at h
  obtain ⟨hmoved, hready', hleft⟩ := wordCommand_encw.execAll_moved herr hready le_rfl h
  exact ⟨hmoved, hready'.pos_eq_finish (by omega)⟩

theorem decLoop_moved (herr : s.err = 0) (hready : s.stepReady) (h : decLoop s = .next t) :
    Moved (-Config.delta) s.stepsDone s t := by
  rw [decLoop_eq_execAll herr hready] at h
  exact (wordCommand_decw.execAll_moved herr hready le_rfl h).1

theorem encLoop_isNext (herr : s.err = 0) (hready : s.stepReady) (hw : s.written 0 s.messageBytes) :
    ∃ t, encLoop s = .next t := by
  rw [encLoop_eq_execAll herr hready]
  exact wordCommand_encw.execAll_isNext herr hready le_rfl hw

theorem decLoop_isNext (herr : s.err = 0) (hready : s.stepReady) (hw : s.written 0 s.messageBytes) :
    ∃ t, decLoop s = .next t := by
  rw [decLoop_eq_execAll herr hready]
  exact wordCommand_decw.execAll_isNext herr hready le_rfl hw

/-- INIT leaves the whole loop ahead. -/
theorem initBody_stepReady (hbuf : s.bufOK = true) : (initBody s).stepReady :=
  ⟨hbuf, Position.start_valid (bufOK_iff.1 hbuf).1⟩

theorem initBody_stepsLeft (s : State) : (initBody s).stepsLeft = s.totalSteps := by
  rw [State.stepsLeft, stepsDone_of_start (initBody_pos s), Nat.sub_zero]
  rfl

/-- OPREP leaves the whole loop behind. -/
theorem unfinBody_oprepBody_stepReady (hbuf : s.bufOK = true) : (unfinBody (oprepBody s)).stepReady :=
  ⟨hbuf, Position.finish_valid s.len⟩

end

/-! ### SEAL as a sequence of commands -/

theorem exec_scrub {s : State} (h : s.err = 0) : exec .scrub s = .next s.scrubbed := exec_of_err_zero .scrub h

theorem exec_encloop {s : State} (herr : s.err = 0) (hready : s.stepReady) : exec .encloop s = encLoop s :=
  exec_eq_body rfl herr hready rfl

theorem exec_decloop {s : State} (herr : s.err = 0) (hready : s.stepReady) : exec .decloop s = decLoop s :=
  exec_eq_body rfl herr hready rfl

theorem execAll_cons_eq {i : Instr} {l : List Instr} {s : State} {r : Result State} (h : exec i s = r) :
    execAll (i :: l) s = andThen r (execAll l) := by
  rw [execAll, h]

/-- No step of the pipeline records a fault or breaks BufOK, so each command is its body. -/
theorem execAll_seal_eq_sealBody {s : State} (herr : s.err = 0) (hbuf : s.bufOK = true) :
    execAll [.init, .encloop, .fin, .sttag, .scrub] s = sealBody s := by
  have herr' : (initBody s).err = 0 := herr
  rw [execAll_cons_of_next (exec_init herr), execAll_cons_eq (exec_encloop herr' (initBody_stepReady hbuf))]
  refine andThen_congr fun u hu => ?_
  have hwrites := encLoop_writes hu
  have herru : u.err = 0 := hwrites.err_eq.trans herr'
  have hbufu : (finBody u).bufOK = true := hwrites.bufOK_eq.trans hbuf
  rw [execAll_cons_of_next (exec_fin herru),
    execAll_cons_eq (exec_eq_body_of_bufOK (s := finBody u) rfl herru hbufu)]
  refine andThen_congr fun t ht => ?_
  obtain ⟨-, heq⟩ := storeTag_eq_next.1 ht
  have herrt : t.err = 0 := (congrArg State.err heq).trans herru
  exact execAll_cons_of_next (exec_scrub herrt) []

/-! ### Where SEAL completes -/

/-- The state after FIN, STTAG and SCRUB in `u`. -/
def sealEnd (u : State) : State :=
  ({ finBody u with buf := u.buf.writeTag u.len.toNat (finBody u).v } : State).scrubbed

theorem sealBody_of_encLoop {s u : State} (hbuf : s.bufOK = true) (hu : encLoop (initBody s) = .next u) :
    sealBody s = .next (sealEnd u) := by
  have hbufu : (finBody u).bufOK = true := (encLoop_writes hu).bufOK_eq.trans hbuf
  rw [sealBody, hu, andThen_next, storeTag_of_fits (bufOK_iff.1 hbufu).2, andThen_next]
  rfl

/-- A byte of the tag region is fixed by the tag. -/
theorem Memory.HoldsTag.exists_byte (v : Sponge) {len a : Nat} (hlo : 8 * len ≤ a) (hhi : a < 8 * (len + 4)) :
    ∃ b : Byte, ∀ m : Memory, m.HoldsTag len v → m.read a = some b := by
  obtain ⟨j, k, hj, hk, rfl⟩ : ∃ j k, j < 4 ∧ k < 8 ∧ a = 8 * (len + j) + k :=
    ⟨a / 8 - len, a % 8, by omega, by omega, by omega⟩
  interval_cases j
  · exact ⟨_, fun _ ⟨h0, _, _, _⟩ => Memory.readLE_eight_eq_some.1 h0 k hk⟩
  · exact ⟨_, fun _ ⟨_, h1, _, _⟩ => Memory.readLE_eight_eq_some.1 h1 k hk⟩
  · exact ⟨_, fun _ ⟨_, _, h2, _⟩ => Memory.readLE_eight_eq_some.1 h2 k hk⟩
  · exact ⟨_, fun _ ⟨_, _, _, h3⟩ => Memory.readLE_eight_eq_some.1 h3 k hk⟩

/-- The tag bytes hold values, and the message bytes those they held. -/
theorem sealEnd_written {u : State} (hw : u.written 0 u.messageBytes) : (sealEnd u).written 0 u.sealedBytes := by
  intro a ha
  rw [Nat.zero_add]
  change ((u.buf.writeTag u.len.toNat (finBody u).v).read a).isSome
  by_cases hmsg : a < u.messageBytes
  · rw [Memory.read_writeTag_other _ _ _ (.inl hmsg), ← Nat.zero_add a]
    exact hw a hmsg
  · obtain ⟨b, hb⟩ := Memory.HoldsTag.exists_byte (finBody u).v (Nat.le_of_not_lt hmsg) ha
    rw [hb _ (Memory.holdsTag_writeTag _ _ _)]
    rfl

/-- STTAG writes past the message, and the loop within it. -/
theorem sealEnd_sameOutside {s u : State} (hlen : u.len = s.len) (hout : sameOutside 0 s.messageBytes s u) :
    sameOutside 0 s.sealedBytes s (sealEnd u) := by
  intro a ha
  rw [State.sealedBytes] at ha
  have hmsg : a < 0 ∨ s.messageBytes ≤ a := by
    rw [State.messageBytes]
    omega
  refine (Memory.read_writeTag_other _ _ _ ?_).trans (hout a hmsg)
  rw [hlen]
  omega

/-- Settles O52: the body is the sequence, and the loop in it completes where the message holds values. -/
theorem sealIsItsPipeline : Obligations.SealIsItsPipeline := by
  refine ⟨decode_of_encode_eq (by decide) rfl, fun s herr hfits => ?_,
    fun s => exec_onlyFaults_of_not_messageFits (operation_sealBuf s)⟩
  have hbuf := hfits.bufOK
  have hexec := exec_sealBuf herr hfits
  refine ⟨hexec.trans (execAll_seal_eq_sealBody herr hbuf).symm, fun hw => ?_⟩
  have hready := initBody_stepReady hbuf
  obtain ⟨u, hu⟩ := encLoop_isNext (s := initBody s) herr hready hw
  obtain ⟨hmoved, -⟩ := encLoop_moved (s := initBody s) herr hready hu
  have hlen : u.len = s.len := hmoved.writes.len_eq
  have hrun : exec .sealBuf s = .next (sealEnd u) := hexec.trans (sealBody_of_encLoop hbuf hu)
  have hwrites : LoopWrites s (sealEnd u) := seal_writes (hexec.symm.trans hrun)
  exact ⟨sealEnd u, hrun, sealEnd_sameOutside hlen hmoved.outside,
    hlen ▸ sealEnd_written (hmoved.messageWritten hw), hwrites⟩

end Sys2Proof.Machine
end

section
/-! PROOFS. OPEN (`45_duplex.md` R151, R152): the inverse pipeline, its completion, and the three ends of the checks. -/

namespace Sys2Proof.Machine

/-! ### The inverse pipeline as a sequence of commands -/

/-- LDTAG writes the sponge only. -/
theorem loadTag_writes {s t : State} (h : loadTag s = .next t) : LoopWrites s t ∧ t.buf = s.buf := by
  obtain ⟨-, v, rfl, -⟩ := loadTag_eq_next.1 h
  exact ⟨rfl, rfl⟩

/-- No step of the pipeline records a fault or breaks BufOK, so each command is its body. -/
theorem execAll_open_eq_openRecover {s : State} (herr : s.err = 0) (hbuf : s.bufOK = true) :
    execAll [.ldtag, .oprep, .unfin, .decloop, .uninit] s = openRecover s := by
  rw [execAll_cons_eq (exec_eq_body_of_bufOK rfl herr hbuf)]
  refine andThen_congr fun t ht => ?_
  obtain ⟨hwrites, -⟩ := loadTag_writes ht
  have herrt : t.err = 0 := hwrites.err_eq.trans herr
  have hready := unfinBody_oprepBody_stepReady (hwrites.bufOK_eq.trans hbuf)
  rw [execAll_cons_of_next (exec_oprep herrt), execAll_cons_of_next (exec_unfin (s := oprepBody t) herrt),
    execAll_cons_eq (exec_decloop (s := unfinBody (oprepBody t)) herrt hready)]
  refine andThen_congr fun u hu => ?_
  have herru : u.err = 0 := (decLoop_writes hu).err_eq.trans herrt
  exact execAll_cons_of_next (exec_uninit herru) []

theorem State.written.message {s : State} (hw : s.written 0 s.sealedBytes) : s.written 0 s.messageBytes :=
  fun a ha => hw a (ha.trans_le (Nat.mul_le_mul_left 8 (Nat.le_add_right _ 4)))

theorem State.written.tag {s : State} (hw : s.written 0 s.sealedBytes) : s.written (8 * s.len.toNat) 32 := by
  intro a ha
  have hread := hw (8 * s.len.toNat + a) (by rw [State.sealedBytes]; omega)
  rwa [Nat.zero_add] at hread

theorem loadTag_of_holdsTag {s : State} {v : Sponge} (hbuf : s.bufOK = true) (hv : s.buf.HoldsTag s.len.toNat v) :
    loadTag s = .next { s with v := v } :=
  loadTag_eq_next.2 ⟨(bufOK_iff.1 hbuf).2, v, rfl, hv⟩

/-- Where message and tag hold values the inverse pipeline completes, and the message still does. -/
theorem openRecover_isNext {s : State} (herr : s.err = 0) (hbuf : s.bufOK = true) (hw : s.written 0 s.sealedBytes) :
    ∃ u, openRecover s = .next u ∧ LoopWrites s u ∧ sameOutside 0 s.messageBytes s u ∧
      u.written 0 u.messageBytes := by
  obtain ⟨v, hv⟩ := hw.tag.exists_holdsTag
  have hload := loadTag_of_holdsTag hbuf hv
  have hready := unfinBody_oprepBody_stepReady (s := { s with v := v }) hbuf
  obtain ⟨t, ht⟩ := decLoop_isNext (s := unfinBody (oprepBody { s with v := v })) herr hready hw.message
  have hmoved := decLoop_moved (s := unfinBody (oprepBody { s with v := v })) herr hready ht
  have hrun : openRecover s = .next (uninitBody t) := by
    rw [openRecover, hload, andThen_next, ht, andThen_next]
  exact ⟨uninitBody t, hrun, openRecover_writes hrun, hmoved.outside, hmoved.messageWritten hw.message⟩

/-! ### The ends of OPEN -/

/-- The buffer FailClean leaves (R152). -/
@[irreducible] def State.wipedBuf (s : State) : Memory := s.buf.zeroise s.sealedBytes

theorem State.read_wipedBuf (s : State) (a : Nat) :
    s.wipedBuf.read a = if a < s.sealedBytes then some 0 else s.buf.read a := by
  rw [State.wipedBuf, Memory.read_zeroise]

/-- The state of FailClean and fault entry (R152). -/
def failedOpen (c : ErrCode) (s : State) : State :=
  takeFault c (encode .openBuf) { s.scrubbed with padlen := 0, buf := s.wipedBuf }

theorem zeroBytes_of_bufOK {s : State} (hbuf : s.bufOK = true) :
    zeroBytes s s.sealedBytes = .next { s with buf := s.wipedBuf } := by
  have hin : s.inBuffer 0 s.sealedBytes = true :=
    inBuffer_iff.2 ((Nat.zero_add _).trans_le (bufOK_iff.1 hbuf).2)
  exact zeroBytes_eq_next.2 ⟨hin, by rw [State.wipedBuf]⟩

theorem openFails_of_bufOK (c : ErrCode) {s : State} (hbuf : s.bufOK = true) :
    openFails c s = .next (failedOpen c s) := by
  rw [openFails, failClean, zeroBytes_of_bufOK hbuf]
  rfl

/-- What OPEN does past the authentication check, by what the padding test found. -/
def openEnd (s : State) : Option Byte → State
  | some padlen => { s.scrubbed with padlen := padlen }
  | none => failedOpen .pad s

theorem authentic_iff {s : State} : s.authentic = true ↔ s.v = s.keyedSponge := beq_iff_eq

theorem openVerify_of_keyed {s : State} {r : Option Byte} (hbuf : s.bufOK = true) (hv : s.v = s.keyedSponge)
    (hr : padTest s = .next r) : openVerify s = .next (openEnd s r) := by
  rw [openVerify, if_pos (authentic_iff.2 hv), hr, andThen_next]
  cases r with
  | some padlen => rfl
  | none => exact openFails_of_bufOK .pad hbuf

/-- Past the authentication check OPEN completes only where the padding test does. -/
theorem openVerify_padTest {s t : State} (hv : s.v = s.keyedSponge) (h : openVerify s = .next t) :
    ∃ r, padTest s = .next r := by
  rw [openVerify, if_pos (authentic_iff.2 hv)] at h
  obtain ⟨r, hr, -⟩ := andThen_eq_next.1 h
  exact ⟨r, hr⟩

theorem openVerify_of_not_keyed {s : State} (hbuf : s.bufOK = true) (hv : s.v ≠ s.keyedSponge) :
    openVerify s = .next (failedOpen .auth s) := by
  rw [openVerify, if_neg (authentic_iff.not.2 hv)]
  exact openFails_of_bufOK .auth hbuf

theorem openVerify_of_padded {s : State} {b : Byte} (hbuf : s.bufOK = true) (hv : s.v = s.keyedSponge)
    (hpad : s.paddedBy b) : openVerify s = .next { s.scrubbed with padlen := b } :=
  openVerify_of_keyed hbuf hv (padTest_of_padded (messageBytes_of_bufOK hbuf).2 hpad)

/-- A test that completes without good padding fails. -/
theorem openVerify_of_not_padded {s : State} (hbuf : s.bufOK = true) (hv : s.v = s.keyedSponge)
    (hw : s.written 0 s.messageBytes) (hbad : ∀ b, ¬ s.paddedBy b) :
    openVerify s = .next (failedOpen .pad s) := by
  obtain ⟨hpos, hin⟩ := messageBytes_of_bufOK hbuf
  obtain ⟨r, hr⟩ := padTest_isNext hpos hin hw
  cases r with
  | none => exact openVerify_of_keyed hbuf hv hr
  | some b => exact absurd (padTest_some hr) (hbad b)

theorem LoopWrites.sealedBytes_eq {s t : State} (h : LoopWrites s t) : t.sealedBytes = s.sealedBytes :=
  h.apply_eq State.sealedBytes

theorem LoopWrites.keyedSponge_eq {s t : State} (h : LoopWrites s t) : t.keyedSponge = s.keyedSponge :=
  h.apply_eq State.keyedSponge

/-- FailClean after word steps within the message is FailClean's state for the command's own start. -/
theorem openFailed_of_failedOpen {c : ErrCode} {s u : State} (hwrites : LoopWrites s u)
    (hout : sameOutside 0 s.messageBytes s u) (h : exec .openBuf s = .next (failedOpen c u)) :
    openFailed c.code s (exec .openBuf s) := by
  refine ⟨failedOpen c u, h, fun a ha => ?_, fun a ha => ?_,
    exec_writes h⟩
  · exact (u.read_wipedBuf a).trans (if_pos (hwrites.sealedBytes_eq ▸ ha))
  · have hmsg : a < 0 ∨ s.messageBytes ≤ a := by
      rw [State.sealedBytes] at ha
      rw [State.messageBytes]
      omega
    have hpast : ¬ a < u.sealedBytes := by
      rw [hwrites.sealedBytes_eq]
      omega
    exact ((u.read_wipedBuf a).trans (if_neg hpast)).trans (hout a hmsg)

/-- Settles O53: the inverse pipeline completes in `u`, and the checks in `u` end in one of three ways. -/
theorem openVerifiesBeforeItReturns : Obligations.OpenVerifiesBeforeItReturns := by
  refine ⟨decode_of_encode_eq (by decide) rfl, fun s herr hfits hw => ?_,
    fun s => exec_onlyFaults_of_not_messageFits (operation_openBuf s)⟩
  have hbuf := hfits.bufOK
  obtain ⟨u, hu, hwrites, hout, hwu⟩ := openRecover_isNext herr hbuf hw
  have hbufu : u.bufOK = true := hwrites.bufOK_eq.trans hbuf
  have hexec : exec .openBuf s = openVerify u := by
    rw [exec_openBuf herr hfits, openBody, hu, andThen_next]
  rw [← hwrites.keyedSponge_eq]
  refine ⟨u, (execAll_open_eq_openRecover herr hbuf).trans hu, hout, fun b hv hpad => ?good, fun hv => ?auth,
    fun hv hbad => ?pad⟩
  case good =>
    rw [hexec, openVerify_of_padded hbufu hv hpad]
    exact congrArg (fun w : State => Host.Outcome.next { w.scrubbed with padlen := b, buf := u.buf }) hwrites
  case auth =>
    exact openFailed_of_failedOpen hwrites hout (hexec.trans (openVerify_of_not_keyed hbufu hv))
  case pad =>
    exact openFailed_of_failedOpen hwrites hout (hexec.trans (openVerify_of_not_padded hbufu hv hwu hbad))

end Sys2Proof.Machine
end

section
/-! PROOFS. Two states that differ in nothing the pipelines of SEAL and OPEN read (`45_duplex.md` R153, R154): their
runs of word steps, their tags and their padding tests agree. -/

namespace Sys2Proof.Machine

/-- `s` with what neither the pipelines nor their checks read, and the buffer, as in `t`. -/
def State.takeRest (s t : State) : State :=
  { s with padlen := t.padlen, errinfo := t.errinfo, buf := t.buf, script := t.script, observed := t.observed }

/-- `t` is `s` but for what neither the pipelines nor their checks read, and the two buffers agree below `lim`, the
message within it. -/
def AlikeBelow (lim : Nat) (s t : State) : Prop :=
  s.messageBytes ≤ lim ∧ ∃ o : State, t = s.takeRest o ∧ ∀ a < lim, o.buf.read a = s.buf.read a

section
variable {lim : Nat} {s t y : State}

/-! ### What is read off the two states -/

namespace AlikeBelow

theorem read_eq (h : AlikeBelow lim s y) {a : Nat} (ha : a < lim) : y.buf.read a = s.buf.read a := by
  obtain ⟨-, o, rfl, hread⟩ := h
  exact hread a ha

theorem readLE_eq (h : AlikeBelow lim s y) {n a : Nat} (ha : a + n ≤ lim) : y.buf.readLE n a = s.buf.readLE n a :=
  Memory.readLE_congr fun _ _ => h.read_eq (by omega)

theorem err_eq (h : AlikeBelow lim s y) : y.err = s.err := by
  obtain ⟨-, o, rfl, -⟩ := h
  rfl

theorem v_eq (h : AlikeBelow lim s y) : y.v = s.v := by
  obtain ⟨-, o, rfl, -⟩ := h
  rfl

theorem keyedSponge_eq (h : AlikeBelow lim s y) : y.keyedSponge = s.keyedSponge := by
  obtain ⟨-, o, rfl, -⟩ := h
  rfl

theorem messageBytes_eq (h : AlikeBelow lim s y) : y.messageBytes = s.messageBytes := by
  obtain ⟨-, o, rfl, -⟩ := h
  rfl

theorem sealedBytes_eq (h : AlikeBelow lim s y) : y.sealedBytes = s.sealedBytes := by
  obtain ⟨-, o, rfl, -⟩ := h
  rfl

theorem bufOK_eq (h : AlikeBelow lim s y) : y.bufOK = s.bufOK := by
  obtain ⟨-, o, rfl, -⟩ := h
  rfl

theorem stepsDone_eq (h : AlikeBelow lim s y) : y.stepsDone = s.stepsDone := by
  obtain ⟨-, o, rfl, -⟩ := h
  rfl

theorem stepReady (h : AlikeBelow lim s y) (hready : s.stepReady) : y.stepReady := by
  obtain ⟨-, o, rfl, -⟩ := h
  exact hready

theorem written (h : AlikeBelow lim s y) (hw : s.written 0 s.messageBytes) : y.written 0 y.messageBytes := by
  intro a ha
  rw [h.messageBytes_eq] at ha
  rw [Nat.zero_add, h.read_eq (ha.trans_le h.1), ← Nat.zero_add a]
  exact hw a ha

/-- A register function that commutes with `takeRest` keeps the two states alike. -/
theorem map {f : State → State} (hf : ∀ s o : State, f (s.takeRest o) = (f s).takeRest o)
    (hlen : (f s).len = s.len := by rfl) (hbuf : (f s).buf = s.buf := by rfl) (h : AlikeBelow lim s y) :
    AlikeBelow lim (f s) (f y) := by
  obtain ⟨hlim, o, rfl, hread⟩ := h
  refine ⟨?_, o, hf s o, hbuf ▸ hread⟩
  rwa [State.messageBytes, hlen]

end AlikeBelow

/-! ### Runs that end alike -/

/-- Where the first run completes the second does, and the states they end in are alike. -/
def EndsAlike (lim : Nat) (r r' : Result State) : Prop :=
  ∀ t, r = .next t → ∃ x, r' = .next x ∧ AlikeBelow lim t x

theorem EndsAlike.next (h : AlikeBelow lim s y) : EndsAlike lim (.next s) (.next y) := by
  rintro _ ⟨⟩
  exact ⟨y, rfl, h⟩

theorem EndsAlike.andThen {r r' : Result State} {f : State → Result State} (h : EndsAlike lim r r')
    (hf : ∀ u x, r = .next u → AlikeBelow lim u x → EndsAlike lim (f u) (f x)) :
    EndsAlike lim (andThen r f) (andThen r' f) := by
  intro t ht
  obtain ⟨u, hu, ht⟩ := andThen_eq_next.1 ht
  obtain ⟨x, rfl, hux⟩ := h u hu
  exact hf u x hu hux t ht

theorem Memory.read_writeLE_congr {m m' : Memory} {b : Nat} (h : m.read b = m'.read b) (n a : Nat) (v : Word) :
    (m.writeLE n a v).read b = (m'.writeLE n a v).read b := by
  by_cases hb : a ≤ b ∧ b < a + n
  · obtain ⟨k, rfl⟩ := Nat.exists_eq_add_of_le hb.1
    rw [Memory.read_writeLE _ n a v (by omega), Memory.read_writeLE _ n a v (by omega)]
  · rw [Memory.read_writeLE_other _ n a v (by omega), Memory.read_writeLE_other _ n a v (by omega), h]

/-- A word at an index below LEN lies below the bound. -/
theorem wordAddr_add_le {i : Nat} (hlim : s.messageBytes ≤ lim) (hi : i < s.len.toNat) : wordAddr i + 8 ≤ lim := by
  rw [State.messageBytes] at hlim
  rw [wordAddr]
  omega

/-- Both forward word steps read one word of the message and write the same word in its place. -/
theorem encStep_endsAlike (hready : s.stepReady) (hmore : s.unfinished = true) (h : AlikeBelow lim s y) :
    EndsAlike lim (encStep s) (encStep y) := by
  intro t ht
  obtain ⟨-, hidx⟩ := hready.bounds_of_unfinished hmore
  have hword := h.readLE_eq (wordAddr_add_le h.1 hidx)
  obtain ⟨hlim, o, rfl, hread⟩ := h
  obtain ⟨p, hin, hp, rfl⟩ := encStep_eq_next.1 ht
  refine ⟨_, encStep_eq_next.2 ⟨p, hin, hword.trans hp, rfl⟩, hlim,
    { o with buf := o.buf.writeLE 8 s.currentAddr (p + (forwardSponge s.kw s.nw s.gamma p s.v).v3) }, rfl, ?_⟩
  exact fun a ha => Memory.read_writeLE_congr (hread a ha) 8 _ _

/-- So do both inverse word steps, at the position before. -/
theorem decStep_endsAlike (hready : s.stepReady) (hmore : s.started = true) (h : AlikeBelow lim s y) :
    EndsAlike lim (decStep s) (decStep y) := by
  intro t ht
  obtain ⟨-, hidx⟩ := hready.bounds_of_started hmore
  have hword := h.readLE_eq (wordAddr_add_le h.1 hidx)
  obtain ⟨hlim, o, rfl, hread⟩ := h
  obtain ⟨c, hin, hc, rfl⟩ := decStep_eq_next.1 ht
  refine ⟨_, decStep_eq_next.2 ⟨c, hin, hword.trans hc, rfl⟩, hlim,
    { o with buf := o.buf.writeLE 8 s.retreat.currentAddr (c - s.v.v3) }, rfl, ?_⟩
  exact fun a ha => Memory.read_writeLE_congr (hread a ha) 8 _ _

/-- Loops end alike where their turns do and their test reads registers both states share. -/
theorem loopWhile_endsAlike {i : Instr} {more : State → Bool} {body : State → Result State} {left : State → Nat}
    {d : Word} (hword : WordCommand i more body left d) (hmore : ∀ s o : State, more (s.takeRest o) = more s)
    (hbody : ∀ {s y : State}, s.stepReady → more s = true → AlikeBelow lim s y → EndsAlike lim (body s) (body y))
    {n : Nat} (hready : s.stepReady) (h : AlikeBelow lim s y) :
    EndsAlike lim (loopWhile more body n s) (loopWhile more body n y) := by
  induction n generalizing s y with
  | zero => exact .next h
  | succ n ih =>
    have hmore' : more y = more s := by
      obtain ⟨-, o, rfl, -⟩ := h
      exact hmore s o
    cases hm : more s with
    | false =>
      rw [loopWhile_of_done hm, loopWhile_of_done (hmore'.trans hm)]
      exact .next h
    | true =>
      rw [loopWhile_of_more hm, loopWhile_of_more (hmore'.trans hm)]
      refine (hbody hready hm h).andThen fun u x hu hux => ?_
      obtain ⟨-, hready', -⟩ := hword.moved hready hm hu
      exact ih hready' hux

theorem encLoop_endsAlike (hready : s.stepReady) (h : AlikeBelow lim s y) :
    EndsAlike lim (encLoop s) (encLoop y) := by
  have htotal : y.totalSteps = s.totalSteps := by
    obtain ⟨-, o, rfl, -⟩ := h
    rfl
  rw [encLoop, encLoop, htotal]
  exact loopWhile_endsAlike wordCommand_encw (fun _ _ => rfl) encStep_endsAlike hready h

theorem decLoop_endsAlike (hready : s.stepReady) (h : AlikeBelow lim s y) :
    EndsAlike lim (decLoop s) (decLoop y) := by
  have htotal : y.totalSteps = s.totalSteps := by
    obtain ⟨-, o, rfl, -⟩ := h
    rfl
  rw [decLoop, decLoop, htotal]
  exact loopWhile_endsAlike wordCommand_decw (fun _ _ => rfl) decStep_endsAlike hready h

/-- The tag loaded is the same where the bound takes in the tag region. -/
theorem loadTag_endsAlike (hlim : s.sealedBytes ≤ lim) (h : AlikeBelow lim s y) :
    EndsAlike lim (loadTag s) (loadTag y) := by
  intro t ht
  have hword : ∀ j < 4, y.buf.readLE 8 (8 * (s.len.toNat + j)) = s.buf.readLE 8 (8 * (s.len.toNat + j)) :=
    fun j hj => h.readLE_eq (by rw [State.sealedBytes] at hlim; omega)
  obtain ⟨hmsg, o, rfl, hread⟩ := h
  obtain ⟨hfits, v, rfl, h0, h1, h2, h3⟩ := loadTag_eq_next.1 ht
  refine ⟨_, loadTag_eq_next.2 ⟨hfits, v, rfl, ?_⟩, hmsg, o, rfl, hread⟩
  exact ⟨(hword 0 (by decide)).trans h0, (hword 1 (by decide)).trans h1, (hword 2 (by decide)).trans h2,
    (hword 3 (by decide)).trans h3⟩

/-! ### The padding test -/

theorem AlikeBelow.readByte_eq (h : AlikeBelow lim s y) {a : Nat} (ha : a < lim) : readByte y a = readByte s a := by
  have hread := h.readLE_eq (n := 1) (a := a) ha
  obtain ⟨-, o, rfl, -⟩ := h
  rw [readByte, readByte, readMem, readMem, hread]
  rfl

theorem AlikeBelow.orBytes_eq (h : AlikeBelow lim s y) {n a : Nat} (ha : a + n ≤ lim) :
    orBytes y n a = orBytes s n a := by
  induction n generalizing a with
  | zero => rfl
  | succ n ih => rw [orBytes, orBytes, h.readByte_eq (by omega), ih (by omega)]

theorem AlikeBelow.padTest_eq (h : AlikeBelow lim s y) (hpos : 1 ≤ s.messageBytes) : padTest y = padTest s := by
  have hlim := h.1
  rw [padTest, padTest, h.messageBytes_eq, h.readByte_eq (by omega)]
  refine andThen_congr fun padlen _ => ?_
  split
  · rfl
  · rw [h.orBytes_eq (by omega)]

end

end Sys2Proof.Machine
end

section
/-! PROOFS. OPEN after SEAL (`45_duplex.md` R153): DECLOOP runs back over ENCLOOP's words although the tag has come into
the buffer, OPREP sets the values the loop ended in, and so AUTHCHK finds the keyed state. -/

namespace Sys2Proof.Machine

/-! ### Word steps back over the same message -/

theorem Memory.read_writeLE_writeLE (m : Memory) (n a : Nat) (v w : Word) (b : Nat) :
    ((m.writeLE n a v).writeLE n a w).read b = (m.writeLE n a w).read b := by
  by_cases hb : a ≤ b ∧ b < a + n
  · obtain ⟨k, rfl⟩ := Nat.exists_eq_add_of_le hb.1
    rw [Memory.read_writeLE _ n a w (by omega), Memory.read_writeLE _ n a w (by omega)]
  · rw [Memory.read_writeLE_other _ n a w (by omega), Memory.read_writeLE_other _ n a v (by omega),
      Memory.read_writeLE_other _ n a w (by omega)]

/-- DECW undoes ENCW from any state with the message ENCW left: the tag bytes do not matter. -/
theorem decStep_of_encStep_alike {lim : Nat} {s t y : State} (hready : s.stepReady) (hmore : s.unfinished = true)
    (h : encStep s = .next t) (hy : AlikeBelow lim t y) : ∃ x, decStep y = .next x ∧ AlikeBelow lim s x := by
  obtain ⟨hpass, hidx⟩ := hready.bounds_of_unfinished hmore
  obtain ⟨p, hin, hp, rfl⟩ := encStep_eq_next.1 h
  have hword := hy.readLE_eq (wordAddr_add_le hy.1 hidx)
  obtain ⟨hlim, o, rfl, hread⟩ := hy
  have hback : ∀ v m, (({ s.advance with v := v, buf := m } : State).takeRest o).retreat =
      ({ s with v := v } : State).takeRest o := fun v m =>
    congrArg (fun u : State => ({ u with v := v } : State).takeRest o) (retreat_advance hpass hidx)
  have hv := inverseSponge_forwardSponge s.kw s.nw s.gamma p s.v
  refine ⟨s.takeRest { o with buf := o.buf.writeLE 8 s.currentAddr p }, ?_, hlim, _, rfl, fun a ha => ?_⟩
  · rw [decStep_eq_next]
    simp only [hback]
    refine ⟨_, hin, hword.trans (Memory.readLE_writeLE_same _ _ _), ?_⟩
    simp only [State.takeRest, BitVec.add_sub_cancel, hv]
    rfl
  · calc (o.buf.writeLE 8 s.currentAddr p).read a
      _ = ((s.buf.writeLE 8 s.currentAddr _).writeLE 8 s.currentAddr p).read a :=
        Memory.read_writeLE_congr (hread a ha) 8 _ _
      _ = (s.buf.writeLE 8 s.currentAddr p).read a := Memory.read_writeLE_writeLE _ _ _ _ _ a
      _ = s.buf.read a := Memory.read_writeLE_back hp a

/-- The command's checks pass there: ENCW left a valid position that steps lead to. -/
theorem exec_decw_of_encStep {lim : Nat} {s t y : State} (herr : s.err = 0) (hready : s.stepReady)
    (hmore : s.unfinished = true) (h : encStep s = .next t) (hy : AlikeBelow lim t y) :
    ∃ x, exec .decw y = .next x ∧ AlikeBelow lim s x := by
  obtain ⟨x, hx, hxs⟩ := decStep_of_encStep_alike hready hmore h hy
  obtain ⟨hmoved, hready', hleft⟩ := wordCommand_encw.moved hready hmore h
  have hdone : 0 < y.stepsDone := by
    have hsum := hready.done_add_left
    have hsum' := hready'.done_add_left
    rw [hmoved.writes.totalSteps_eq] at hsum'
    rw [hy.stepsDone_eq]
    omega
  have hreadyy := hy.stepReady hready'
  have herry : y.err = 0 := hy.err_eq.trans (hmoved.writes.err_eq.trans herr)
  have hexec := wordCommand_decw.exec_eq herry hreadyy ((started_iff_stepsDone hreadyy).2 hdone)
  exact ⟨x, hexec.trans hx, hxs⟩

/-- As many DECW commands undo a run of ENCW commands, the last step first. -/
theorem execAll_decw_of_encw {lim k : Nat} {s t y : State} (herr : s.err = 0) (hready : s.stepReady)
    (hk : k ≤ s.stepsLeft) (h : execAll (List.replicate k .encw) s = .next t) (hy : AlikeBelow lim t y) :
    ∃ x, execAll (List.replicate k .decw) y = .next x ∧ AlikeBelow lim s x := by
  induction k generalizing s with
  | zero =>
    cases h
    exact ⟨y, rfl, hy⟩
  | succ k ih =>
    have hmore : s.unfinished = true := (unfinished_iff_stepsLeft hready).2 (by omega)
    rw [List.replicate_succ, execAll_cons_eq (wordCommand_encw.exec_eq herr hready hmore), andThen_eq_next] at h
    obtain ⟨u, hu, h⟩ := h
    obtain ⟨hmoved, hready', hleft⟩ := wordCommand_encw.moved hready hmore hu
    obtain ⟨z, hz, hzu⟩ := ih (hmoved.writes.err_eq.trans herr) hready' (by omega) h
    obtain ⟨x, hx, hxs⟩ := exec_decw_of_encStep herr hready hmore hu hzu
    refine ⟨x, ?_, hxs⟩
    rw [List.replicate_succ', execAll_append, hz, andThen_next, execAll_cons_of_next hx, execAll]

/-- R125 for the loops: from (0, 0) to (3, 0) and back, over any buffer with the message the way there left. -/
theorem decLoop_of_encLoop {lim : Nat} {s t y : State} (herr : s.err = 0) (hbuf : s.bufOK = true)
    (hpos : s.pos = ⟨0, 0⟩) (h : encLoop s = .next t) (hy : AlikeBelow lim t y) :
    ∃ x, decLoop y = .next x ∧ AlikeBelow lim s x := by
  have hready : s.stepReady := ⟨hbuf, hpos ▸ Position.start_valid (bufOK_iff.1 hbuf).1⟩
  obtain ⟨hmoved, hpost⟩ := encLoop_moved herr hready h
  have hready' : t.stepReady := ⟨hmoved.writes.bufOK_eq.trans hbuf, hpost ▸ Position.finish_valid t.len⟩
  have hcount : t.stepsDone = s.stepsLeft := by
    rw [stepsDone_of_finish hpost, hmoved.writes.totalSteps_eq, State.stepsLeft, stepsDone_of_start hpos, Nat.sub_zero]
  have herry : y.err = 0 := hy.err_eq.trans (hmoved.writes.err_eq.trans herr)
  rw [encLoop_eq_execAll herr hready] at h
  rw [decLoop_eq_execAll herry (hy.stepReady hready'), hy.stepsDone_eq, hcount]
  exact execAll_decw_of_encw herr hready le_rfl h hy

/-! ### OPEN's pipeline on SEAL's result -/

/-- OPREP sets what the loop after INIT ended with (R133). -/
theorem oprepBody_of_encLoop {s u : State} (herr : s.err = 0) (hbuf : s.bufOK = true)
    (h : encLoop (initBody s) = .next u) : oprepBody u = u := by
  obtain ⟨hmoved, hpos⟩ := encLoop_moved (s := initBody s) herr (initBody_stepReady hbuf) h
  rw [initBody_stepsLeft] at hmoved
  have htotal : u.totalSteps = s.totalSteps := hmoved.writes.totalSteps_eq
  have hk : u.k = s.k := hmoved.writes.apply_eq State.k
  have hn : u.n = s.n := hmoved.writes.apply_eq State.n
  have hgamma : Config.delta * BitVec.ofNat 64 u.totalSteps = u.gamma := by
    rw [hmoved.gamma, htotal, BitVec.mul_comm]
    exact (BitVec.zero_add _).symm
  have hkw : u.k.exchanged u.totalSteps = u.kw := by
    rw [hmoved.kw, htotal, hk]
    rfl
  have hnw : u.n.exchanged u.totalSteps = u.nw := by
    rw [hmoved.nw, htotal, hn]
    rfl
  have hfinish : Position.finish = u.pos := hpos.symm
  rw [Pair.exchanged] at hkw hnw
  rw [oprepBody, hgamma, hkw, hnw, hfinish]

/-- OPREP reads none of the registers SCRUB zeroed. -/
theorem oprepBody_sealEnd (u : State) (v : Sponge) :
    oprepBody { sealEnd u with v := v } = { oprepBody u with v := v, buf := (sealEnd u).buf } := rfl

theorem unfinBody_setBuf (s : State) (m : Memory) :
    unfinBody { s with buf := m } = { unfinBody s with buf := m } := rfl

/-- LDTAG, OPREP and UNFIN bring back the state the loop ended in, the tag now in the buffer. -/
theorem openRecover_sealEnd {u : State} (hbuf : u.bufOK = true) (hprep : oprepBody u = u) :
    openRecover (sealEnd u) = andThen (decLoop { u with buf := (sealEnd u).buf }) fun x => .next (uninitBody x) := by
  have hload : loadTag (sealEnd u) = .next { sealEnd u with v := (finBody u).v } :=
    loadTag_of_holdsTag (s := sealEnd u) hbuf (Memory.holdsTag_writeTag _ _ _)
  have hback : unfinBody (oprepBody { sealEnd u with v := (finBody u).v }) = { u with buf := (sealEnd u).buf } :=
    calc unfinBody (oprepBody { sealEnd u with v := (finBody u).v })
      _ = unfinBody { finBody u with buf := (sealEnd u).buf } := by
        rw [oprepBody_sealEnd, hprep]
        rfl
      _ = { u with buf := (sealEnd u).buf } := by rw [unfinBody_setBuf, unfinBody_finBody u]
  rw [openRecover, hload, andThen_next, hback]

/-- UNINIT takes out of the state INIT built what NABS and DSEP put in: the keyed state is left. -/
theorem uninitBody_initBody_v (s : State) : (uninitBody (initBody s)).v = s.keyedSponge :=
  congrArg State.v (uninitBody_dsepBody_nabsBody (sinitBody s))

/-- SEAL, then OPEN up to its checks: the state after INIT and UNINIT, the message restored. -/
theorem openRecover_of_sealBody {s : State} (herr : s.err = 0) (hbuf : s.bufOK = true)
    (hw : s.written 0 s.messageBytes) :
    ∃ u w, sealBody s = .next (sealEnd u) ∧ LoopWrites s (sealEnd u) ∧ openRecover (sealEnd u) = .next w ∧
      AlikeBelow s.messageBytes (uninitBody (initBody s)) w := by
  obtain ⟨u, hu⟩ := encLoop_isNext (s := initBody s) herr (initBody_stepReady hbuf) hw
  have hseal := sealBody_of_encLoop hbuf hu
  have hwrites := encLoop_writes hu
  have hlen : u.messageBytes = s.messageBytes := hwrites.messageBytes_eq
  have htagged : AlikeBelow s.messageBytes u { u with buf := (sealEnd u).buf } :=
    ⟨hlen.le, { u with buf := (sealEnd u).buf }, rfl, fun _ ha =>
      Memory.read_writeTag_other _ _ _ (.inl (ha.trans_eq hlen.symm))⟩
  obtain ⟨x, hx, hxs⟩ := decLoop_of_encLoop (s := initBody s) herr hbuf (initBody_pos s) hu htagged
  have hrecover : openRecover (sealEnd u) = .next (uninitBody x) := by
    rw [openRecover_sealEnd (hwrites.bufOK_eq.trans hbuf) (oprepBody_of_encLoop herr hbuf hu), hx, andThen_next]
  exact ⟨u, uninitBody x, hseal, seal_writes hseal, hrecover, hxs.map (f := uninitBody) fun _ _ => rfl⟩

/-- Good padding is a matter of the message and LEN. -/
theorem AlikeBelow.paddedBy_iff {lim : Nat} {s y : State} (h : AlikeBelow lim s y) (hpos : 1 ≤ s.messageBytes)
    {b : Byte} : y.paddedBy b ↔ s.paddedBy b := by
  have hlim := h.1
  rw [State.paddedBy, State.paddedBy, h.messageBytes_eq, h.read_eq (by omega)]
  refine and_congr_right fun _ => and_congr_right fun _ => and_congr_right fun _ => ?_
  exact forall_congr' fun a => imp_congr_right fun _ => imp_congr_right fun ha => by rw [h.read_eq (by omega)]

/-- Settles O54: OPEN's checks meet the keyed state and the message SEAL was given. -/
theorem openOfSealRestoresTheMessage : Obligations.OpenOfSealRestoresTheMessage := by
  intro s herr hfits hw
  have hbuf := hfits.bufOK
  obtain ⟨u, w, hseal, hwrites, hrecover, halike⟩ := openRecover_of_sealBody herr hbuf hw
  have herrt : (sealEnd u).err = 0 := hwrites.err_eq.trans herr
  have hfitst : (sealEnd u).messageFits := (hwrites.apply_eq State.messageFits).mpr hfits
  have hrun : ∀ {t}, openVerify w = .next t → execAll [.sealBuf, .openBuf] s = .next t := fun {t} ht => by
    have hopen : exec .openBuf (sealEnd u) = .next t := by
      rw [exec_openBuf herrt hfitst, openBody, hrecover, andThen_next, ht]
    rw [execAll_cons_of_next ((exec_sealBuf herr hfits).trans hseal), execAll_cons_of_next hopen, execAll]
  have hv : w.v = w.keyedSponge :=
    calc w.v = (uninitBody (initBody s)).v := halike.v_eq
      _ = s.keyedSponge := uninitBody_initBody_v s
      _ = w.keyedSponge := halike.keyedSponge_eq.symm
  have hbufw : w.bufOK = true := halike.bufOK_eq.trans hbuf
  have hpad : ∀ b, w.paddedBy b ↔ s.paddedBy b := fun _ => halike.paddedBy_iff (messageBytes_of_bufOK hbuf).1
  refine ⟨fun b hb => ?_, fun hbad => ?_⟩
  · exact ⟨_, hrun (openVerify_of_padded hbufw hv ((hpad b).2 hb)), halike.err_eq.trans herr, rfl,
      fun _ => halike.read_eq⟩
  · have hbadw : ∀ b, ¬ w.paddedBy b := fun b => mt (hpad b).1 (hbad b)
    exact ⟨_, hrun (openVerify_of_not_padded hbufw hv (halike.written hw) hbadw), rfl⟩

end Sys2Proof.Machine
end

section
/-! PROOFS. SEAL and OPEN as functions of their inputs (`45_duplex.md` R154): the pipelines write every register they
read but K, N and LEN, so two runs on the same inputs are alike from the first write on. -/

namespace Sys2Proof.Machine

/-- With the working registers out of the way, states with the same key, nonce, LEN and bytes are alike. -/
theorem alikeBelow_scrubbed {lim : Nat} {s y : State} (herr : s.err = 0) (herr' : y.err = 0) (hk : s.k = y.k)
    (hn : s.n = y.n) (hlen : s.len = y.len) (hconfig : s.config = y.config) (hlim : s.messageBytes ≤ lim)
    (hread : ∀ a < lim, s.buf.read a = y.buf.read a) : AlikeBelow lim s.scrubbed y.scrubbed := by
  refine ⟨hlim, y, ?_, fun a ha => (hread a ha).symm⟩
  simp only [State.scrubbed, State.takeRest, herr, herr', hk, hn, hlen, hconfig]

/-! ### SEAL -/

theorem sealBody_eq_next {s t : State} (hbuf : s.bufOK = true) (h : sealBody s = .next t) :
    ∃ u, encLoop (initBody s) = .next u ∧ t = sealEnd u := by
  obtain ⟨u, hu, -⟩ := andThen_eq_next.1 h
  exact ⟨u, hu, Host.Outcome.next.inj (h.symm.trans (sealBody_of_encLoop hbuf hu))⟩

/-- FIN of alike states is the same tag, and their messages agree. -/
theorem AlikeBelow.sealEnd_read_eq {s y : State} (h : AlikeBelow s.messageBytes s y) {a : Nat}
    (ha : a < s.sealedBytes) : (sealEnd y).buf.read a = (sealEnd s).buf.read a := by
  obtain ⟨-, o, rfl, hread⟩ := h
  by_cases hmsg : a < s.messageBytes
  · calc (sealEnd (s.takeRest o)).buf.read a
      _ = o.buf.read a := Memory.read_writeTag_other _ _ _ (.inl hmsg)
      _ = s.buf.read a := hread a hmsg
      _ = (sealEnd s).buf.read a := (Memory.read_writeTag_other _ _ _ (.inl hmsg)).symm
  · obtain ⟨b, hb⟩ := Memory.HoldsTag.exists_byte (finBody s).v (Nat.le_of_not_lt hmsg) ha
    calc (sealEnd (s.takeRest o)).buf.read a
      _ = some b := hb _ (Memory.holdsTag_writeTag o.buf _ _)
      _ = (sealEnd s).buf.read a := (hb _ (Memory.holdsTag_writeTag s.buf _ _)).symm

theorem sealBody_read_eq {s y t t' : State} (hbuf : s.bufOK = true)
    (h : AlikeBelow s.messageBytes s.scrubbed y.scrubbed) (ht : sealBody s = .next t) (ht' : sealBody y = .next t')
    {a : Nat} (ha : a < s.sealedBytes) : t'.buf.read a = t.buf.read a := by
  have hbufy : y.bufOK = true := h.bufOK_eq.trans hbuf
  obtain ⟨u, hu, rfl⟩ := sealBody_eq_next hbuf ht
  obtain ⟨x, hx, rfl⟩ := sealBody_eq_next hbufy ht'
  have hinit : AlikeBelow s.messageBytes (initBody s.scrubbed) (initBody y.scrubbed) :=
    h.map (f := initBody) fun _ _ => rfl
  obtain ⟨x', hx', hux⟩ := encLoop_endsAlike (initBody_stepReady hbuf) hinit u hu
  cases hx.symm.trans hx'
  have hlen : u.len = s.len := (encLoop_writes hu).len_eq
  rw [State.messageBytes, ← hlen] at hux
  rw [State.sealedBytes, ← hlen] at ha
  exact hux.sealEnd_read_eq ha

/-! ### OPEN -/

theorem openRecover_endsAlike {s y : State} (hbuf : s.bufOK = true) (h : AlikeBelow s.sealedBytes s y) :
    EndsAlike s.sealedBytes (openRecover s) (openRecover y) := by
  refine (loadTag_endsAlike le_rfl h).andThen fun u x hu hux => ?_
  have hready := unfinBody_oprepBody_stepReady ((loadTag_writes hu).1.bufOK_eq.trans hbuf)
  have hprep : AlikeBelow s.sealedBytes (unfinBody (oprepBody u)) (unfinBody (oprepBody x)) :=
    hux.map (f := unfinBody ∘ oprepBody) fun _ _ => rfl
  exact (decLoop_endsAlike hready hprep).andThen fun _ _ _ hwz => .next (hwz.map (f := uninitBody) fun _ _ => rfl)

/-- LDTAG and OPREP write every working register. -/
theorem openRecover_scrubbed (s : State) : openRecover s.scrubbed = openRecover s := by
  simp only [openRecover, loadTag, andThen_assoc]
  rfl

/-- What the host can tell of the ends of two runs of OPEN. -/
def SameAnswer (lim : Nat) (t t' : State) : Prop :=
  t.err = t'.err ∧ t.padlen = t'.padlen ∧ ∀ a < lim, t.buf.read a = t'.buf.read a

theorem AlikeBelow.sameAnswer_failedOpen {s y : State} (h : AlikeBelow s.sealedBytes s y) (c : ErrCode) :
    SameAnswer s.sealedBytes (failedOpen c s) (failedOpen c y) := by
  refine ⟨rfl, rfl, fun a ha => ?_⟩
  have hs : (failedOpen c s).buf.read a = some 0 := (s.read_wipedBuf a).trans (if_pos ha)
  have hy : (failedOpen c y).buf.read a = some 0 :=
    (y.read_wipedBuf a).trans (if_pos (ha.trans_eq h.sealedBytes_eq.symm))
  rw [hs, hy]

/-- Both checks read V, K, LEN and the message, so both runs come to the same end. -/
theorem openVerify_sameAnswer {s y t t' : State} (hbuf : s.bufOK = true) (h : AlikeBelow s.sealedBytes s y)
    (ht : openVerify s = .next t) (ht' : openVerify y = .next t') : SameAnswer s.sealedBytes t t' := by
  have hbufy : y.bufOK = true := h.bufOK_eq.trans hbuf
  by_cases hv : s.v = s.keyedSponge
  · have hvy : y.v = y.keyedSponge := by rw [h.v_eq, h.keyedSponge_eq, hv]
    obtain ⟨r, hr⟩ := openVerify_padTest hv ht
    have hry : padTest y = .next r := (h.padTest_eq (messageBytes_of_bufOK hbuf).1).trans hr
    cases (openVerify_of_keyed hbuf hv hr).symm.trans ht
    cases (openVerify_of_keyed hbufy hvy hry).symm.trans ht'
    cases r with
    | some padlen => exact ⟨h.err_eq.symm, rfl, fun _ ha => (h.read_eq ha).symm⟩
    | none => exact h.sameAnswer_failedOpen .pad
  · have hvy : y.v ≠ y.keyedSponge := by rwa [h.v_eq, h.keyedSponge_eq]
    cases (openVerify_of_not_keyed hbuf hv).symm.trans ht
    cases (openVerify_of_not_keyed hbufy hvy).symm.trans ht'
    exact h.sameAnswer_failedOpen .auth

theorem openBody_sameAnswer {s y t t' : State} (hbuf : s.bufOK = true)
    (h : AlikeBelow s.sealedBytes s.scrubbed y.scrubbed) (ht : openBody s = .next t) (ht' : openBody y = .next t') :
    SameAnswer s.sealedBytes t t' := by
  obtain ⟨u, hu, ht⟩ := andThen_eq_next.1 ht
  obtain ⟨x, hx, ht'⟩ := andThen_eq_next.1 ht'
  have halike := openRecover_endsAlike (s := s.scrubbed) hbuf h
  rw [openRecover_scrubbed, openRecover_scrubbed] at halike
  obtain ⟨x', hx', hux⟩ := halike u hu
  cases hx.symm.trans hx'
  have hwrites := openRecover_writes hu
  rw [← hwrites.sealedBytes_eq]
  exact openVerify_sameAnswer (hwrites.bufOK_eq.trans hbuf) (hwrites.sealedBytes_eq ▸ hux) ht ht'

/-- Settles O55: the pipelines run alike from the states SCRUB would leave, and end in the same tag and the same
answer. -/
theorem sealAndOpenAreDeterministic : Obligations.SealAndOpenAreDeterministic := by
  intro s s' t t' herr herr' hk hn hlen hconfig
  have hfits' : s.messageFits → s'.messageFits := by
    rw [State.messageFits, State.messageFits, hlen, hconfig]
    exact id
  refine ⟨fun hread hfits ht ht' a ha => ?_, fun hread hfits ht ht' => ?_⟩
  · rw [exec_sealBuf herr hfits] at ht
    rw [exec_sealBuf herr' (hfits' hfits)] at ht'
    have halike := alikeBelow_scrubbed herr herr' hk hn hlen hconfig le_rfl hread
    exact (sealBody_read_eq hfits.bufOK halike ht ht' ha).symm
  · rw [exec_openBuf herr hfits] at ht
    rw [exec_openBuf herr' (hfits' hfits)] at ht'
    have hlim : s.messageBytes ≤ s.sealedBytes := Nat.mul_le_mul_left 8 (Nat.le_add_right _ 4)
    have halike := alikeBelow_scrubbed herr herr' hk hn hlen hconfig hlim hread
    obtain ⟨herrt, hpadlen, hbytes⟩ := openBody_sameAnswer hfits.bufOK halike ht ht'
    exact ⟨herrt, fun _ => hpadlen, hbytes⟩

end Sys2Proof.Machine
end

section
/-! PROOFS. The system commands (`46_system.md` R160 to R162), and the commands that check nothing. -/

namespace Sys2Proof.Machine

/-! ### NOP, CLR and SCRUB -/

/-- NOP changes nothing, accepted or ignored. -/
theorem exec_nop (s : State) : exec .nop s = .next s := by
  by_cases herr : s.err = 0
  · exact exec_of_err_zero .nop herr
  · exact exec_of_faulted Instr.noConfusion herr

/-- CLR needs no acceptance (R161). -/
theorem exec_clr (s : State) : exec .clr s = .next s.cleared := rfl

/-- Settles O10: the three words from the encoding, the effects command by command. -/
theorem systemCommandsHaveTheirEffect : Obligations.SystemCommandsHaveTheirEffect :=
  ⟨decode_of_encode_eq (i := .nop) (by decide) rfl, decode_of_encode_eq (i := .clr) (by decide) rfl,
    decode_of_encode_eq (i := .scrub) (by decide) rfl, exec_nop, exec_clr, fun _ => exec_scrub⟩

/-! ### The commands that check nothing -/

/-- The commands other than CLR whose row in the table of R202 is blank, PERMR and PERML with one count. -/
def uncheckedCommands (count : Nat) : List Instr :=
  [.nop, .scrub, .permr count, .perml count, .sinit, .nabs, .dsep, .init, .fin, .oprep, .unfin, .uninit]

theorem operation_isNext_of_unchecked {i : Instr} {count : Nat} (hi : i ∈ uncheckedCommands count) (s : State) :
    ∃ t, operation i s = .next t := by
  cases i with
  | nop | scrub | permr | perml | sinit | nabs | dsep | init | fin | oprep | unfin | uninit => exact ⟨_, rfl⟩
  | _ => simp [uncheckedCommands] at hi

/-- The register map's rows for these commands name V and the working registers only (R38, R42). -/
theorem takeWritten_of_unchecked {i : Instr} {count : Nat} (hi : i ∈ uncheckedCommands count) (s t : State) :
    takeWritten i s t = (s.takeSponge (takeWritten i s t)).takeWorking (takeWritten i s t) := by
  cases i with
  | nop | scrub | permr | perml | sinit | nabs | dsep | init | fin | oprep | unfin | uninit => rfl
  | _ => simp [uncheckedCommands] at hi

/-- Settles O60: no check stands between acceptance and completion, and the frame is the register map's. -/
theorem uncheckedCommandsComplete : Obligations.UncheckedCommandsComplete := by
  intro s count herr i hi
  obtain ⟨t, ht⟩ := operation_isNext_of_unchecked (count := count) hi s
  have hframe := takeWritten_of_unchecked (count := count) hi s t
  rw [← operation_writes ht] at hframe
  exact ⟨t, (exec_of_err_zero i herr).trans ht, hframe⟩

end Sys2Proof.Machine
end

section
/-! PROOFS. Fault entry and the return from a fault (`60_exceptions.md` R202 to R208): what a recorded fault lets the
host do, and which faults a command can record. -/

namespace Sys2Proof.Machine

/-! ### While a fault is recorded -/

theorem submit_clr (s : State) : submit 1 s = .next s.cleared :=
  submit_of_decode_ok (decode_of_encode_eq (i := .clr) (by decide) rfl) s

/-- Any word but CLR's is ignored, whether or not it is a command (R203 step 1, R207). -/
theorem submit_of_faulted {s : State} (herr : s.err ≠ 0) {w : CmdWord} (hw : w ≠ 1) : submit w s = .next s := by
  cases hdec : decode w with
  | ok i =>
    have hi : i ≠ .clr := by
      rintro rfl
      obtain ⟨hword, -⟩ := encode_of_decode hdec
      exact hw (hword.symm.trans (by decide))
    rw [submit_of_decode_ok hdec, exec_of_faulted hi herr]
  | error e => rw [submit_of_decode_error hdec, accept_of_err_ne_zero herr]

/-- Settles O6. -/
theorem faultedEngineIgnoresAllButClr : Obligations.FaultedEngineIgnoresAllButClr := by
  intro s v rest hs herr
  rw [step_of_script hs, perform_regWrite, regWrite_cmd]
  refine ⟨fun hw => submit_of_faulted (s := { s with script := rest }) herr hw, fun hw => ?_⟩
  rw [hw, submit_clr]
  exact ⟨_, rfl, rfl, rfl⟩

/-! ### The return from a fault -/

/-- STATUS is read-only: only through CMD does a register write reach it. -/
theorem setReg_err {reg : Reg} {v : Word} {s t : State} (hcmd : reg ≠ .cmd) (h : setReg reg v s = .next t) :
    t.err = s.err := by
  cases reg with
  | cmd => exact absurd rfl hcmd
  | _ =>
    cases h
    rfl

/-- How a host action can end while a fault is recorded: with the fault still recorded, or in the state of CLR or of
the reset event. -/
inductive FaultedEnd (s : State) : HostAction → State → Prop
  | kept {a : HostAction} {t : State} (h : t.err = s.err) : FaultedEnd s a t
  | clr {v : Word} (h : v.setWidth 32 = (1 : CmdWord)) : FaultedEnd s (.regWrite 0x00 v) s.cleared
  | reset : FaultedEnd s .reset (resetEvent s)

theorem regWrite_faultedEnd {r : BitVec 5} {v : Word} {s t : State} (herr : s.err ≠ 0)
    (h : regWrite r v s = .next t) : FaultedEnd s (.regWrite r v) t := by
  cases hof : regOf r with
  | none =>
    rw [regWrite_of_regOf_none hof] at h
    cases h
    exact .kept rfl
  | some reg =>
    by_cases hcmd : reg = .cmd
    · subst hcmd
      obtain rfl : (0x00 : BitVec 5) = r := number_of_regOf hof
      rw [regWrite_cmd] at h
      by_cases hw : v.setWidth 32 = (1 : CmdWord)
      · rw [hw, submit_clr] at h
        cases h
        exact .clr hw
      · rw [submit_of_faulted herr hw] at h
        cases h
        exact .kept rfl
    · rw [regWrite_of_regOf_some hof] at h
      exact .kept (setReg_err hcmd h)

theorem perform_faultedEnd {a : HostAction} {s t : State} (herr : s.err ≠ 0) (h : perform a s = .next t) :
    FaultedEnd s a t := by
  cases a with
  | regRead r =>
    cases h
    exact .kept rfl
  | regWrite r v => exact regWrite_faultedEnd herr h
  | bufRead a n =>
    obtain ⟨w, -, h⟩ := andThen_eq_next.1 h
    cases h
    exact .kept rfl
  | bufWrite a n v =>
    obtain ⟨-, -, hwrite⟩ := offered_eq_next.1 h
    obtain ⟨-, rfl⟩ := writeMem_eq_next.1 hwrite
    exact .kept rfl
  | reset =>
    cases h
    exact .reset

/-- Every register reads its reset value in the state of CLR (R208). -/
theorem regValue_cleared (s : State) (reg : Reg) : s.cleared.regValue reg = (State.resetFor s.config).regValue reg := by
  cases reg <;> rfl

/-- And in the state of the reset event (`70_reset_and_hazards.md` R230). -/
theorem regValue_resetEvent (s : State) (reg : Reg) :
    (resetEvent s).regValue reg = (State.resetFor s.config).regValue reg := by
  cases reg <;> rfl

/-- Settles O7: of the ends of a host action only those of CLR and reset have `ERR = 0`. -/
theorem onlyClrOrResetReturnsFromFault : Obligations.OnlyClrOrResetReturnsFromFault := by
  intro s t h herr hback
  cases hs : s.script with
  | nil =>
    rw [step_of_script_nil hs] at h
    cases h
    exact absurd hback herr
  | cons a rest =>
    rw [step_of_script hs] at h
    obtain hkept | hw | _ := perform_faultedEnd (s := { s with script := rest }) herr h
    · exact absurd (hkept.symm.trans hback) herr
    · exact ⟨⟨rest, .inr ⟨_, rfl, hw⟩⟩, regValue_cleared _⟩
    · exact ⟨⟨rest, .inl rfl⟩, regValue_resetEvent _⟩

/-! ### The faults of a command -/

/-- Where the operation completes with a fault recorded, its code is one of `codes`. -/
def RaisesOnly (codes : List (BitVec 4)) (r : Result State) : Prop := ∀ t, r = .next t → t.err ≠ 0 → t.err ∈ codes

section
variable {codes : List (BitVec 4)} {s : State} {f : State → Result State}

theorem RaisesOnly.of_err_zero {r : Result State} (h : ∀ t, r = .next t → t.err = 0) : RaisesOnly codes r :=
  fun t ht hne => absurd (h t ht) hne

theorem RaisesOnly.next (h : s.err = 0) : RaisesOnly codes (.next s) :=
  .of_err_zero fun t ht => by
    cases ht
    exact h

theorem RaisesOnly.raise {c : ErrCode} (hc : c.code ∈ codes) (i : Instr) (s : State) : RaisesOnly codes (raise c i s) := by
  intro t ht _
  obtain ⟨w, rfl⟩ := takeFault_of_raise ht
  exact hc

theorem RaisesOnly.andThen {α : Type} {r : Result α} {f : α → Result State}
    (h : ∀ x, r = .next x → RaisesOnly codes (f x)) : RaisesOnly codes (andThen r f) := by
  intro t ht
  obtain ⟨x, hx, hfx⟩ := andThen_eq_next.1 ht
  exact h x hx t hfx

theorem RaisesOnly.requireBuf {i : Instr} (hc : ErrCode.bounds.code ∈ codes) (h : RaisesOnly codes (f s)) :
    RaisesOnly codes (requireBuf i s f) := by
  intro t ht
  obtain ⟨-, ht⟩ | ⟨-, ht⟩ := requireBuf_eq.1 ht
  · exact h t ht
  · exact RaisesOnly.raise hc i s t ht

theorem RaisesOnly.requireStep {i : Instr} {ok : Bool} (hc : ErrCode.bounds.code ∈ codes)
    (h : RaisesOnly codes (f s)) : RaisesOnly codes (requireStep i ok s f) := by
  intro t ht
  obtain ⟨-, ht⟩ | ⟨-, ht⟩ := requireStep_eq.1 ht
  · exact h t ht
  · exact RaisesOnly.raise hc i s t ht

theorem RaisesOnly.requireMessage {i : Instr} (hm : ErrCode.malformed.code ∈ codes)
    (hc : ErrCode.bounds.code ∈ codes) (h : RaisesOnly codes (f s)) : RaisesOnly codes (requireMessage i s f) := by
  intro t ht
  obtain ⟨-, ht⟩ | ⟨-, -, ht⟩ | ⟨-, -, ht⟩ := requireMessage_eq.1 ht
  · exact RaisesOnly.raise hm i s t ht
  · exact h t ht
  · exact RaisesOnly.raise hc i s t ht

/-- Word steps, the tag and the pipelines write neither ERR nor ERRINFO. -/
theorem RaisesOnly.of_loopWrites (herr : s.err = 0) {r : Result State} (h : ∀ t, r = .next t → LoopWrites s t) :
    RaisesOnly codes r :=
  .of_err_zero fun t ht => (h t ht).err_eq.trans herr

/-- A failed check of OPEN records the fault of that check. -/
theorem RaisesOnly.openFails {c : ErrCode} (hc : c.code ∈ codes) (s : State) : RaisesOnly codes (openFails c s) :=
  .andThen fun u _ => .raise hc .openBuf u

theorem openVerify_raisesOnly (herr : s.err = 0) : RaisesOnly [2, 3] (openVerify s) := by
  unfold openVerify
  split
  · refine .andThen fun r _ => ?_
    cases r with
    | some padlen => exact .next herr
    | none => exact .openFails (by decide) s
  · exact .openFails (by decide) s

theorem RaisesOnly.mono {codes' : List (BitVec 4)} {r : Result State} (h : RaisesOnly codes r)
    (hsub : codes ⊆ codes') : RaisesOnly codes' r :=
  fun t ht hne => hsub (h t ht hne)

end

/-- The table of R202, command by command. -/
theorem operation_raisesOnly (i : Instr) {s : State} (herr : s.err = 0) : RaisesOnly (mayRaise i) (operation i s) := by
  cases i with
  | encw => exact .requireStep (by decide) (.of_loopWrites herr fun _ => encStep_writes)
  | encloop => exact .requireStep (by decide) (.of_loopWrites herr fun _ => encLoop_writes)
  | decw => exact .requireStep (by decide) (.of_loopWrites herr fun _ => decStep_writes)
  | decloop => exact .requireStep (by decide) (.of_loopWrites herr fun _ => decLoop_writes)
  | sttag =>
    refine .requireBuf (by decide) (.of_err_zero fun t ht => ?_)
    obtain ⟨-, rfl⟩ := storeTag_eq_next.1 ht
    exact herr
  | ldtag => exact .requireBuf (by decide) (.of_loopWrites herr fun _ ht => (loadTag_writes ht).1)
  | authchk =>
    change RaisesOnly [2] (if s.authentic then .next s else raise .auth .authchk s)
    split
    · exact .next herr
    · exact .raise (by decide) .authchk s
  | padchk =>
    rw [operation_padchk]
    refine .requireBuf (by decide) (.andThen fun r _ => ?_)
    cases r with
    | some padlen => exact .next herr
    | none => exact .raise (by decide) .padchk { s with padlen := 0 }
  | sealBuf =>
    rw [operation_sealBuf]
    exact .requireMessage (by decide) (by decide) (.of_loopWrites herr fun _ => seal_writes)
  | openBuf =>
    rw [operation_openBuf]
    refine .requireMessage (by decide) (by decide) (.andThen fun u hu => ?_)
    exact (openVerify_raisesOnly ((openRecover_writes hu).err_eq.trans herr)).mono (by decide)
  | clr => exact .next rfl
  | _ => exact .next herr

/-- Settles O8. -/
theorem commandsRaiseOnlyTheirFaults : Obligations.CommandsRaiseOnlyTheirFaults := by
  intro i s t herr h
  rw [exec_of_err_zero i herr] at h
  exact operation_raisesOnly i herr t h

/-! ### The checks on LEN -/

/-- The commands that touch the buffer behind BufOK. -/
def bufferCommands : List Instr := [.encw, .encloop, .decw, .decloop, .sttag, .ldtag, .padchk]

/-- Where BufOK fails each of them raises BOUNDS and changes nothing else (R203 step 4). -/
theorem exec_bufferCommand_of_not_bufOK {i : Instr} (hi : i ∈ bufferCommands) {s : State} (herr : s.err = 0)
    (hbuf : s.bufOK = false) : onlyFaults 5 (encode i) s (exec i s) := by
  cases i with
  | encw => exact exec_onlyFaults_bounds (i := .encw) rfl herr (.inl hbuf)
  | encloop => exact exec_onlyFaults_bounds (i := .encloop) rfl herr (.inl hbuf)
  | decw => exact exec_onlyFaults_bounds (i := .decw) rfl herr (.inl hbuf)
  | decloop => exact exec_onlyFaults_bounds (i := .decloop) rfl herr (.inl hbuf)
  | sttag => exact exec_onlyFaults_of_not_bufOK (i := .sttag) rfl herr hbuf
  | ldtag => exact exec_onlyFaults_of_not_bufOK (i := .ldtag) rfl herr hbuf
  | padchk => exact exec_onlyFaults_of_not_bufOK (operation_padchk s) herr hbuf
  | _ => simp [bufferCommands] at hi

/-- BufOK fails on an empty message and on one that does not fit (`20_memory.md` R64). -/
theorem bufOK_eq_false_iff {s : State} :
    s.bufOK = false ↔ s.len.toNat = 0 ∨ s.config.memWords.toNat < s.len.toNat + 4 := by
  rw [← Bool.not_eq_true, State.bufOK, Bool.and_eq_true, decide_eq_true_iff, fits_iff]
  omega

/-- Settles O9: SEAL and OPEN by their checks on LEN, the other commands by BufOK. -/
theorem interfaceFaultsChangeNothingElse : Obligations.InterfaceFaultsChangeNothingElse := by
  intro s herr
  obtain ⟨sealShort, sealLong⟩ := exec_onlyFaults_of_not_messageFits (operation_sealBuf s) herr
  obtain ⟨openShort, openLong⟩ := exec_onlyFaults_of_not_messageFits (operation_openBuf s) herr
  refine ⟨fun h => ⟨sealShort h, openShort h⟩, fun h3 h => ⟨sealLong h3 h, openLong h3 h⟩, fun h => ?_⟩
  have hbounds : ∀ i ∈ bufferCommands, onlyFaults 5 (encode i) s (exec i s) := fun i hi =>
    exec_bufferCommand_of_not_bufOK hi herr (bufOK_eq_false_iff.2 h)
  exact ⟨hbounds .encw (by decide), hbounds .encloop (by decide), hbounds .decw (by decide),
    hbounds .decloop (by decide), hbounds .sttag (by decide), hbounds .ldtag (by decide), hbounds .padchk (by decide)⟩

end Sys2Proof.Machine
end

section
/-! PROOFS. The reset event and the first command after it (`70_reset_and_hazards.md` R230, R231). -/

namespace Sys2Proof.Machine

/-- Settles O11: the step is the reset event, and its registers read reset values. -/
theorem resetZeroesRegistersAndForgetsTheBuffer : Obligations.ResetZeroesRegistersAndForgetsTheBuffer := by
  intro s rest hs
  refine ⟨resetEvent { s with script := rest }, step_of_script hs, fun reg hreg => ?_, rfl, Memory.read_nil, rfl, rfl, rfl⟩
  rw [regValue_resetEvent]
  cases reg with
  | cap => exact absurd rfl hreg
  | _ => rfl

/-! ### The first command -/

/-- With K at its reset value 0 the keyed state is the constants. -/
theorem keyedSponge_resetFor (c : Config) : (State.resetFor c).keyedSponge =
    ⟨c.initConst.c0, c.initConst.c1, c.initConst.c2, c.initConst.c3⟩ := by
  simp [State.keyedSponge, State.resetFor]

theorem exec_sinit_resetFor (c : Config) : exec .sinit (State.resetFor c) = .next
    { State.resetFor c with v := ⟨c.initConst.c0, c.initConst.c1, c.initConst.c2, c.initConst.c3⟩ } := by
  rw [exec_sinit rfl, sinitBody, keyedSponge_resetFor]
  rfl

/-- V is 0 after reset, so AUTHCHK fails unless the constants are 0. -/
theorem exec_authchk_resetFor {c : Config} (hc : c.initConst ≠ ⟨0, 0, 0, 0⟩) :
    onlyFaults 2 0x48 (State.resetFor c) (exec .authchk (State.resetFor c)) := by
  refine exec_authchk_of_not_keyed rfl fun hv => hc ?_
  rw [keyedSponge_resetFor] at hv
  obtain ⟨h0, h1, h2, h3⟩ := Sponge.mk.inj hv
  calc c.initConst = ⟨c.initConst.c0, c.initConst.c1, c.initConst.c2, c.initConst.c3⟩ := rfl
    _ = ⟨0, 0, 0, 0⟩ := by rw [← h0, ← h1, ← h2, ← h3]

/-- Settles O12: LEN is 0, so the checks on it fail, and the commands that make none complete. -/
theorem firstCommandAfterReset : Obligations.FirstCommandAfterReset := by
  intro c s
  have herr : s.err = 0 := rfl
  have hlen : s.len.toNat = 0 := rfl
  refine ⟨fun i hi => ?bounds, fun i hi => ?malformed, fun count i hi => ?complete, ?oprep, exec_sinit_resetFor c,
    exec_authchk_resetFor⟩
  case bounds => exact exec_bufferCommand_of_not_bufOK hi herr (bufOK_eq_false_iff.2 (.inl hlen))
  case malformed =>
    have hshort : s.len.toNat < 3 := by omega
    cases i with
    | sealBuf => exact (exec_onlyFaults_of_not_messageFits (operation_sealBuf s) herr).1 hshort
    | openBuf => exact (exec_onlyFaults_of_not_messageFits (operation_openBuf s) herr).1 hshort
    | _ => simp at hi
  case complete =>
    by_cases hclr : i = .clr
    · subst hclr
      exact ⟨_, exec_clr s, rfl⟩
    · obtain ⟨t, ht, hframe⟩ := uncheckedCommandsComplete s count herr i (by simpa [hclr] using hi)
      exact ⟨t, ht, congrArg State.err hframe⟩
  case oprep =>
    obtain ⟨-, hoprep⟩ := oprepSetsEndOfLoopValues
    exact hoprep s herr

end Sys2Proof.Machine
end

section
/-! PROOFS. The key and nonce strings of the host codec (`47_host_codec.md` R170), and the length guard of `OpenBytes`
(R176). -/

namespace Sys2Proof.Machine

section
variable {b : List Byte}

theorem norm16_of_long (h : 16 ≤ b.length) : norm16 b = b.take 16 := if_pos h

theorem norm16_of_short (h : b.length < 16) :
    norm16 b = b ++ List.replicate (15 - b.length) 0 ++ [BitVec.ofNat 8 (16 - b.length)] := if_neg h.not_ge

@[simp] theorem norm16_length (b : List Byte) : (norm16 b).length = 16 := by
  obtain hshort | hlong := Nat.lt_or_ge b.length 16
  · rw [norm16_of_short hshort, List.length_append, List.length_append, List.length_replicate, List.length_singleton]
    omega
  · rw [norm16_of_long hlong, List.length_take, Nat.min_eq_left hlong]

theorem norm16_getElem?_bytes {i : Nat} (hi : i < 16) (hb : i < b.length) : (norm16 b)[i]? = b[i]? := by
  obtain hshort | hlong := Nat.lt_or_ge b.length 16
  · rw [norm16_of_short hshort, List.append_assoc, List.getElem?_append_left hb]
  · rw [norm16_of_long hlong, List.getElem?_take_of_lt hi]

theorem norm16_getElem?_zeros {i : Nat} (hi : i < 15) (hb : b.length ≤ i) : (norm16 b)[i]? = some 0 := by
  rw [norm16_of_short (by omega), List.append_assoc, List.getElem?_append_right hb,
    List.getElem?_append_left (by rw [List.length_replicate]; omega), List.getElem?_replicate_of_lt (by omega)]

theorem norm16_getElem?_last (h : b.length < 16) : (norm16 b)[15]? = some (BitVec.ofNat 8 (16 - b.length)) := by
  have hlen : (b ++ List.replicate (15 - b.length) (0 : Byte)).length = 15 := by
    rw [List.length_append, List.length_replicate]
    omega
  rw [norm16_of_short h, List.getElem?_append_right hlen.le, hlen]
  rfl

end

/-- Settles O56: a long string and a short one, place by place. -/
theorem normalisedKeysAreSixteenBytes : Obligations.NormalisedKeysAreSixteenBytes := fun b =>
  ⟨norm16_length b, fun _ => norm16_getElem?_bytes, fun _ => norm16_getElem?_zeros, norm16_getElem?_last⟩

/-- Settles O59: the guard stands before the first access. -/
theorem openBytesGuardsTheLength : Obligations.OpenBytesGuardsTheLength := fun _ _ _ _ hbad => if_pos hbad

end Sys2Proof.Machine
end

section
/-! PROOFS. The calls of the host codec on the engine (`47_host_codec.md` R174, R175): what a call writes before its
command, and what the host reads back after it. -/

namespace Sys2Proof.Machine

/-! ### The words of a byte string -/

/-- Byte `k` of a word put together from bytes, the first the least significant (`00_scope.md` R15). -/
theorem extractLsb'_foldr_bytes (l : List Byte) {k : Nat} (h8 : k < 8) (hk : k < l.length) :
    (l.foldr (fun x (r : Word) => x.setWidth 64 ||| r <<< 8) 0).extractLsb' (8 * k) 8 = l[k] := by
  induction l generalizing k with
  | nil => exact absurd hk (Nat.not_lt_zero k)
  | cons x l ih =>
    cases k with
    | zero =>
      ext i hi
      simp [hi]
      omega
    | succ k =>
      rw [List.getElem_cons_succ, ← ih (by omega) (Nat.lt_of_succ_lt_succ hk)]
      ext i hi
      have hx : x.getLsbD (8 * (k + 1) + i) = false := BitVec.getLsbD_of_ge _ _ (by omega)
      simp [hx, show 8 * (k + 1) + i < 64 by omega, show ¬ 8 * (k + 1) + i < 8 by omega,
        show 8 * (k + 1) + i - 8 = 8 * k + i by omega, BitVec.getLsbD_eq_getElem (show 8 * k + i < 64 by omega)]

theorem extractLsb'_le64 (x : List Byte) {j k : Nat} (h8 : k < 8) (hk : j + k < x.length) :
    some ((le64 x j).extractLsb' (8 * k) 8) = x[j + k]? := by
  have hlen : k < ((x.drop j).take 8).length := by
    rw [List.length_take, List.length_drop]
    omega
  rw [le64, extractLsb'_foldr_bytes _ h8 hlen, List.getElem_take, List.getElem_drop, List.getElem?_eq_getElem hk]

/-- The buffer with the first `count` words of `x` written from address 0 on. -/
def Memory.writeWords (m : Memory) (x : List Byte) : Nat → Memory
  | 0 => m
  | count + 1 => (m.writeWords x count).writeLE 8 (8 * count) (le64 x (8 * count))

theorem Memory.read_writeWords (m : Memory) {x : List Byte} {count a : Nat} (hx : 8 * count ≤ x.length)
    (ha : a < 8 * count) : (m.writeWords x count).read a = x[a]? := by
  induction count with
  | zero => exact absurd ha (Nat.not_lt_zero a)
  | succ count ih =>
    rw [Memory.writeWords]
    obtain hlow | hhigh := Nat.lt_or_ge a (8 * count)
    · rw [Memory.read_writeLE_other _ _ _ _ (.inl hlow), ih (by omega) hlow]
    · obtain ⟨k, rfl⟩ := Nat.exists_eq_add_of_le hhigh
      rw [Memory.read_writeLE _ _ _ _ (by omega), extractLsb'_le64 x (by omega) (by omega)]

/-! ### Host actions one after another -/

theorem performAll_cons_of_next {a : HostAction} {s t : State} (h : perform a s = .next t) (l : List HostAction) :
    performAll (a :: l) s = performAll l t := by
  rw [performAll, h, andThen_next]

theorem performAll_append (l l' : List HostAction) (s : State) :
    performAll (l ++ l') s = andThen (performAll l s) (performAll l') := by
  induction l generalizing s with
  | nil => rfl
  | cons a l ih =>
    rw [List.cons_append, performAll, performAll, andThen_assoc]
    exact andThen_congr fun t _ => ih t

theorem performAll_singleton (a : HostAction) (s : State) : performAll [a] s = perform a s := by
  rw [performAll]
  cases perform a s <;> rfl

/-- The write of a command's word to CMD runs the command (`30_encoding.md` R88). -/
theorem perform_commandAction {i : Instr} (hwf : i.wf = true) (s : State) : perform (commandAction i) s = exec i s := by
  have hword : ((encode i).setWidth 64).setWidth 32 = encode i := by
    rw [BitVec.setWidth_setWidth_of_le _ (by decide), BitVec.setWidth_eq]
  calc perform (commandAction i) s = submit (((encode i).setWidth 64).setWidth 32) s := regWrite_cmd _ s
    _ = exec i s := by rw [hword, submit_of_decode_ok (decode_encode hwf)]

theorem perform_bufWrite_word {s : State} {a : Nat} (v : Word) (halign : a % 8 = 0) (hin : a + 8 ≤ s.bufBytes) :
    perform (.bufWrite a 8 v) s = .next { s with buf := s.buf.writeLE 8 a v } := by
  have hbuf := inBuffer_iff.2 hin
  exact (offered_of_inBuffer (.inr ⟨rfl, halign⟩) hbuf).trans (writeMem_eq_next.2 ⟨hbuf, rfl⟩)

theorem wordWrites_succ (x : List Byte) (count : Nat) :
    wordWrites x (count + 1) = wordWrites x count ++ [.bufWrite (8 * count) 8 (le64 x (8 * count))] := by
  rw [wordWrites, List.range_succ, List.map_append]
  rfl

theorem performAll_wordWrites (x : List Byte) {count : Nat} {s : State} (h : 8 * count ≤ s.bufBytes) :
    performAll (wordWrites x count) s = .next { s with buf := s.buf.writeWords x count } := by
  induction count with
  | zero => rfl
  | succ count ih =>
    rw [wordWrites_succ, performAll_append, ih (by omega), andThen_next, performAll_singleton]
    exact perform_bufWrite_word (s := { s with buf := s.buf.writeWords x count }) _ (Nat.mul_mod_right 8 count) h

/-! ### The state a call's command starts from -/

/-- The state after CLR, the key, the nonce, LEN and `count` words of `x` (R174, R175). -/
def callState (key nonce : List Byte) (w : Nat) (x : List Byte) (count : Nat) (s : State) : State :=
  { s.cleared with
    k := keyWords key
    n := keyWords nonce
    len := (BitVec.ofNat 64 w).setWidth 32
    buf := s.buf.writeWords x count }

section
variable {key nonce x : List Byte} {w count : Nat} {s : State}

theorem performAll_loadCall (key nonce : List Byte) (w : Nat) (s : State) :
    performAll (loadCall key nonce w) s = .next (callState key nonce w [] 0 s) := by
  rw [loadCall, performAll_cons_of_next ((perform_commandAction (i := .clr) rfl s).trans (exec_clr s))]
  rfl

/-- Where its words fit the buffer, a call runs its command from `callState`. -/
theorem performAll_call {i : Instr} (hwf : i.wf = true) (hcount : count ≤ s.config.memWords.toNat) :
    performAll (loadCall key nonce w ++ wordWrites x count ++ [commandAction i]) s =
      exec i (callState key nonce w x count s) := by
  have hin : 8 * count ≤ (callState key nonce w [] 0 s).bufBytes := Nat.mul_le_mul_left 8 hcount
  rw [performAll_append, performAll_append, performAll_loadCall, andThen_next, performAll_wordWrites x hin,
    andThen_next, performAll_singleton, perform_commandAction hwf]
  rfl

/-- A count of words within the capacity fits LEN. -/
theorem callState_len_toNat (hfits : w + 4 ≤ s.config.memWords.toNat) :
    (callState key nonce w x count s).len.toNat = w := by
  have hcap := s.config.memWords.isLt
  change ((BitVec.ofNat 64 w).setWidth 32).toNat = w
  rw [BitVec.toNat_setWidth, BitVec.toNat_ofNat]
  omega

theorem callState_messageBytes (hfits : w + 4 ≤ s.config.memWords.toNat) :
    (callState key nonce w x count s).messageBytes = 8 * w := by
  rw [State.messageBytes, callState_len_toNat hfits]

theorem callState_sealedBytes (hfits : w + 4 ≤ s.config.memWords.toNat) :
    (callState key nonce w x count s).sealedBytes = 8 * (w + 4) := by
  rw [State.sealedBytes, callState_len_toNat hfits]

theorem callState_messageFits (h3 : 3 ≤ w) (hfits : w + 4 ≤ s.config.memWords.toNat) :
    (callState key nonce w x count s).messageFits := by
  rw [State.messageFits, callState_len_toNat hfits]
  exact ⟨h3, hfits⟩

theorem callState_read {a : Nat} (hx : 8 * count ≤ x.length) (ha : a < 8 * count) :
    (callState key nonce w x count s).buf.read a = x[a]? := s.buf.read_writeWords hx ha

theorem callState_written (hx : 8 * count ≤ x.length) : (callState key nonce w x count s).written 0 (8 * count) := by
  intro a ha
  rw [Nat.zero_add, callState_read hx ha, List.getElem?_eq_getElem (ha.trans_le hx)]
  rfl

end

theorem twentyFour_le_paddedLength (l : Nat) : 24 ≤ paddedLength l :=
  calc 24 ≤ max (l + 1) 24 := le_max_right _ _
    _ ≤ paddedLength l := le_roundUp8 _

/-- The count `Pad` writes. -/
def padCount (m : List Byte) : Byte := BitVec.ofNat 8 (paddedLength m.length - m.length)

theorem padCount_toNat (m : List Byte) : (padCount m).toNat = paddedLength m.length - m.length := by
  have hle := paddedLength_le m.length
  rw [padCount, BitVec.toNat_ofNat]
  omega

/-- `Pad` satisfies the padding hypothesis of R153 (R175). -/
theorem callState_paddedBy {key nonce m : List Byte} {w : Nat} {s : State} (hw : 8 * w = paddedLength m.length)
    (hfits : w + 4 ≤ s.config.memWords.toNat) :
    (callState key nonce w (padMessage m) w s).paddedBy (padCount m) := by
  have hlt := lt_paddedLength m.length
  have hbytes : (callState key nonce w (padMessage m) w s).messageBytes = paddedLength m.length :=
    (callState_messageBytes hfits).trans hw
  have hread : ∀ a < paddedLength m.length,
      (callState key nonce w (padMessage m) w s).buf.read a = (padMessage m)[a]? := fun a ha =>
    callState_read (by rw [padMessage_length, hw]) (by omega)
  rw [State.paddedBy, hbytes, padCount_toNat]
  refine ⟨?last, by omega, by omega, fun a hlo hhi => ?zeros⟩
  case last => rw [hread _ (by omega), padMessage_getElem?_last, padCount]
  case zeros => rw [hread a (by omega), padMessage_getElem?_zeros m (by omega) hhi]

/-! ### What the host reads back -/

theorem readBytes_of_read {s : State} {l : List Byte} (hin : l.length ≤ s.bufBytes)
    (h : ∀ a < l.length, s.buf.read a = l[a]?) : readBytes s l.length 0 = .next l := by
  refine readBytes_eq_next.2 ⟨rfl, fun a ha => ?_⟩
  rw [Nat.zero_add, h a ha, List.getElem?_eq_getElem ha]
  exact ⟨inBuffer_iff.2 (by omega), rfl⟩

/-- The values of the first `n` bytes, as a string. -/
def Memory.bytes (m : Memory) (n : Nat) : List Byte := (List.range n).map fun a => (m.read a).getD 0

@[simp] theorem Memory.bytes_length (m : Memory) (n : Nat) : (m.bytes n).length = n := by
  rw [Memory.bytes, List.length_map, List.length_range]

theorem State.written.read_eq_bytes {s : State} {n a : Nat} (hw : s.written 0 n) (ha : a < n) :
    s.buf.read a = (s.buf.bytes n)[a]? := by
  have hsome := hw a ha
  rw [Nat.zero_add] at hsome
  obtain ⟨b, hb⟩ := Option.isSome_iff_exists.1 hsome
  rw [Memory.bytes, List.getElem?_map, List.getElem?_range ha, Option.map_some, hb, Option.getD_some]

theorem readBytes_of_written {s : State} {n : Nat} (hin : n ≤ s.bufBytes) (hw : s.written 0 n) :
    readBytes s n 0 = .next (s.buf.bytes n) := by
  have hread := readBytes_of_read (s := s) (l := s.buf.bytes n) (by rwa [Memory.bytes_length]) fun a ha =>
    hw.read_eq_bytes (ha.trans_eq (s.buf.bytes_length n))
  rwa [Memory.bytes_length] at hread

end Sys2Proof.Machine
end

section
/-! PROOFS. The round trip on byte strings (`47_host_codec.md` R174, R175): OPEN of what SEAL left in another engine
(`45_duplex.md` R153, R154), and the answers of `SealBytes` and `OpenBytes`. -/

namespace Sys2Proof.Machine

/-! ### OPEN in another engine -/

/-- A command that reads only bytes that hold values completes. -/
theorem exec_isNext_of_written (i : Instr) {s : State} (hw : s.written 0 s.sealedBytes) : ∃ t, exec i s = .next t := by
  cases h : exec i s with
  | next t => exact ⟨t, rfl⟩
  | fault e => exact absurd h (exec_sameEnd_self i s).ne_fault
  | refused e =>
    obtain ⟨-, a, ha, hnone⟩ := onlyUnwrittenBytesRefuseACommand i s e h
    have hsome := hw a ha
    rw [Nat.zero_add, hnone] at hsome
    exact absurd hsome Bool.false_ne_true

/-- SEAL leaves a value in every byte of the message and the tag, and no fault (R150). -/
theorem exec_sealBuf_isNext {s : State} (herr : s.err = 0) (hfits : s.messageFits)
    (hw : s.written 0 s.messageBytes) : ∃ t, exec .sealBuf s = .next t ∧ t.written 0 s.sealedBytes ∧ t.err = 0 := by
  obtain ⟨-, hpipeline, -⟩ := sealIsItsPipeline
  obtain ⟨-, hcompletes⟩ := hpipeline s herr hfits
  obtain ⟨t, ht, -, hwt, hframe⟩ := hcompletes hw
  exact ⟨t, ht, hwt, (congrArg State.err hframe).trans herr⟩

/-- R153, by the state between the two commands. -/
theorem exec_openBuf_of_sealBuf {s t : State} {b : Byte} (herr : s.err = 0) (hfits : s.messageFits)
    (hw : s.written 0 s.messageBytes) (hpad : s.paddedBy b) (hseal : exec .sealBuf s = .next t) :
    ∃ z, exec .openBuf t = .next z ∧ z.err = 0 ∧ z.padlen = b ∧ ∀ a < s.messageBytes, z.buf.read a = s.buf.read a := by
  obtain ⟨hrestored, -⟩ := openOfSealRestoresTheMessage s herr hfits hw
  obtain ⟨z, hz, hend⟩ := hrestored b hpad
  rw [execAll_cons_of_next hseal, execAll, andThen_eq_next] at hz
  obtain ⟨_, hopen, hz⟩ := hz
  cases hz
  exact ⟨z, hopen, hend⟩

/-- What OPEN reads of a state: K, N, LEN and the parameters, and the bytes of the message and tag regions, all of
which hold values (R154). -/
structure SameSealed (t y : State) : Prop where
  k : t.k = y.k
  n : t.n = y.n
  len : t.len = y.len
  config : t.config = y.config
  written : t.written 0 t.sealedBytes
  read : ∀ a < t.sealedBytes, t.buf.read a = y.buf.read a

/-- R154, where OPEN completes without a fault in one of the two states. -/
theorem SameSealed.exec_openBuf {t y z : State} (h : SameSealed t y) (herr : t.err = 0) (herr' : y.err = 0)
    (hfits : t.messageFits) (hz : exec .openBuf t = .next z) (herrz : z.err = 0) :
    ∃ x, exec .openBuf y = .next x ∧ x.err = 0 ∧ x.padlen = z.padlen ∧
      ∀ a < t.sealedBytes, x.buf.read a = z.buf.read a := by
  have hlen : y.sealedBytes = t.sealedBytes := by rw [State.sealedBytes, State.sealedBytes, h.len]
  have hwy : y.written 0 y.sealedBytes := fun a ha => by
    rw [hlen] at ha
    rw [Nat.zero_add, ← h.read a ha, ← Nat.zero_add a]
    exact h.written a ha
  obtain ⟨x, hx⟩ := exec_isNext_of_written .openBuf hwy
  obtain ⟨-, hsame⟩ := sealAndOpenAreDeterministic t y z x herr herr' h.k h.n h.len h.config
  obtain ⟨herrx, hpadx, hreadx⟩ := hsame h.read hfits hz hx
  exact ⟨x, hx, herrx.symm.trans herrz, (hpadx herrz).symm, fun a ha => (hreadx a ha).symm⟩

/-! ### The two calls -/

section
variable {key nonce m : List Byte} {w : Nat} {s t : State}

/-- `SealBytes` answers the message and tag regions SEAL leaves (R174). -/
theorem sealBytes_of_exec (hw : 8 * w = paddedLength m.length) (hfits : w + 4 ≤ s.config.memWords.toNat)
    (hseal : exec .sealBuf (callState key nonce w (padMessage m) w s) = .next t) (hwt : t.written 0 (8 * (w + 4))) :
    sealBytes key nonce m s = .next (.bytes (t.buf.bytes (8 * (w + 4))), t) := by
  have hcount : (padMessage m).length / 8 = w := by
    rw [padMessage_length]
    omega
  have hin : 8 * (w + 4) ≤ t.bufBytes := by
    rw [State.bufBytes, exec_config hseal]
    exact Nat.mul_le_mul_left 8 hfits
  rw [sealBytes, hcount, if_pos hfits, performAll_call (i := .sealBuf) rfl (by omega), hseal, andThen_next,
    show 8 * w + 32 = 8 * (w + 4) by omega, readBytes_of_written hin hwt, andThen_next]

/-- `OpenBytes` answers the message region less the padding, where OPEN records no fault (R175). -/
theorem openBytes_of_exec {c : List Byte} (h3 : 3 ≤ w) (hc : c.length = 8 * (w + 4))
    (hfits : w + 4 ≤ s.config.memWords.toNat)
    (hopen : exec .openBuf (callState key nonce w c (w + 4) s) = .next t) (herr : t.err = 0)
    (hlen : 8 * w - t.padlen.toNat = m.length) (hread : ∀ a < m.length, t.buf.read a = m[a]?) :
    openBytes key nonce c s = .next (.bytes m, t) := by
  have hguard : ¬ (c.length % 8 ≠ 0 ∨ c.length < 56) := by omega
  have hcount : c.length / 8 - 4 = w := by omega
  have hstatus : (regRead t Reg.status.number).setWidth 4 = (0 : BitVec 4) := by
    rw [regRead_number, regValue_status, herr]
    rfl
  have hpadlen : (regRead t Reg.padlen.number).toNat = t.padlen.toNat := by
    rw [regRead_number]
    exact BitVec.toNat_setWidth_of_le (by decide)
  have hin : m.length ≤ t.bufBytes := by
    rw [State.bufBytes, exec_config hopen]
    change m.length ≤ 8 * s.config.memWords.toNat
    omega
  rw [openBytes, if_neg hguard, hcount, if_pos hfits, performAll_call (i := .openBuf) rfl hfits, hopen, andThen_next,
    hstatus, if_neg (not_not.2 rfl), hpadlen, hlen, readBytes_of_read hin hread, andThen_next]

end

section
variable {key nonce m : List Byte} {w : Nat} {s s' t : State}

/-- SEAL on the padded message completes, and OPEN after it finds the message (R153). -/
theorem exec_callState_roundTrip (hw : 8 * w = paddedLength m.length) (hfits : w + 4 ≤ s.config.memWords.toNat) :
    ∃ t z, exec .sealBuf (callState key nonce w (padMessage m) w s) = .next t ∧ t.written 0 (8 * (w + 4)) ∧ t.err = 0 ∧
      exec .openBuf t = .next z ∧ z.err = 0 ∧ z.padlen = padCount m ∧ ∀ a < m.length, z.buf.read a = m[a]? := by
  have hlt := lt_paddedLength m.length
  have h24 := twentyFour_le_paddedLength m.length
  have hx : 8 * w ≤ (padMessage m).length := by rw [padMessage_length, hw]
  have hbytes := callState_messageBytes (key := key) (nonce := nonce) (x := padMessage m) (count := w) hfits
  have hmsg := callState_messageFits (key := key) (nonce := nonce) (x := padMessage m) (count := w) (by omega) hfits
  have hwritten := hbytes ▸ callState_written (key := key) (nonce := nonce) (w := w) (s := s) hx
  obtain ⟨t, hseal, hwt, herrt⟩ := exec_sealBuf_isNext rfl hmsg hwritten
  obtain ⟨z, hz, herrz, hpadz, hreadz⟩ := exec_openBuf_of_sealBuf rfl hmsg hwritten (callState_paddedBy hw hfits) hseal
  refine ⟨t, z, hseal, callState_sealedBytes hfits ▸ hwt, herrt, hz, herrz, hpadz, fun a ha => ?_⟩
  rw [hreadz a (by omega), callState_read hx (by omega), padMessage_getElem?_message m ha]

variable {x : List Byte} {count : Nat}

theorem len_of_sealBuf_call (hfits : w + 4 ≤ s.config.memWords.toNat)
    (hseal : exec .sealBuf (callState key nonce w x count s) = .next t) : t.len.toNat = w := by
  obtain ⟨-, -, hlen⟩ := onlyClrWritesKeyNonceAndLength .sealBuf _ t (by decide) hseal
  rw [hlen, callState_len_toNat hfits]

/-- The call of `OpenBytes` writes to its engine what SEAL left in the other. -/
theorem sameSealed_callState (hconfig : s'.config = s.config)
    (hfits : w + 4 ≤ s.config.memWords.toNat) (hseal : exec .sealBuf (callState key nonce w x count s) = .next t)
    (hwt : t.written 0 (8 * (w + 4))) :
    SameSealed t (callState key nonce w (t.buf.bytes (8 * (w + 4))) (w + 4) s') := by
  obtain ⟨hk, hn, hlen⟩ := onlyClrWritesKeyNonceAndLength .sealBuf _ t (by decide) hseal
  have hsealed : t.sealedBytes = 8 * (w + 4) := by rw [State.sealedBytes, len_of_sealBuf_call hfits hseal]
  refine ⟨hk, hn, hlen, (exec_config hseal).trans hconfig.symm, hsealed ▸ hwt, fun a ha => ?_⟩
  rw [hsealed] at ha
  rw [hwt.read_eq_bytes ha, callState_read (Memory.bytes_length _ _).ge ha]

end

/-- Settles O58: `Pad` gives SEAL a message with good padding, and OPEN runs on the bytes SEAL left. -/
theorem openBytesOfSealBytes : Obligations.OpenBytesOfSealBytes := by
  intro key nonce m s s' hcap hconfig
  have h24 := twentyFour_le_paddedLength m.length
  have hlt := lt_paddedLength m.length
  obtain ⟨w, hw⟩ : ∃ w, 8 * w = paddedLength m.length :=
    ⟨paddedLength m.length / 8, Nat.mul_div_cancel' (Nat.dvd_of_mod_eq_zero (roundUp8_mod _))⟩
  have hfits : w + 4 ≤ s.config.memWords.toNat := by omega
  obtain ⟨t, z, hseal, hwt, herrt, hz, herrz, hpadz, hreadz⟩ :=
    exec_callState_roundTrip (key := key) (nonce := nonce) hw hfits
  have hlent : t.len.toNat = w := len_of_sealBuf_call hfits hseal
  have hmsg : t.messageFits := by
    rw [State.messageFits, hlent, exec_config hseal]
    exact ⟨by omega, hfits⟩
  have hsame := sameSealed_callState hconfig hfits hseal hwt
  obtain ⟨y, hy, herry, hpady, hready⟩ := hsame.exec_openBuf herrt rfl hmsg hz herrz
  refine ⟨t.buf.bytes (8 * (w + 4)), t, y, sealBytes_of_exec hw hfits hseal hwt, ?length, ?answer⟩
  case length =>
    rw [Memory.bytes_length]
    omega
  case answer =>
    refine openBytes_of_exec (w := w) (by omega) (Memory.bytes_length _ _) (hconfig ▸ hfits) hy herry ?_ fun a ha => ?_
    · rw [hpady, hpadz, padCount_toNat]
      omega
    · rw [hready a (by rw [State.sealedBytes, hlent]; omega), hreadz a ha]

end Sys2Proof.Machine
end
